-- ==== Sys2Proof/Word.lean ====
section
/-! DEFINITION. The byte, the register widths of 10_state.md R22 to R33 and the byte strings of 00_scope.md R8.
All arithmetic is on unbounded unsigned integers unless a width is stated (R7), so lengths and indexes are `Nat` and
narrow explicitly where a register takes them. -/

namespace Sys2Proof

/-- A data byte, 8 bits unsigned (R6). -/
abbrev Byte := BitVec 8

/-- A 16-bit register: `IP`, `INLEN`, `DECLEN`, `OUTLEN`, `FADDR`, `POS`, `BEST_LEN`, `BEST_OFF`. -/
abbrev Word16 := BitVec 16

/-- The 19-bit bit index `BITPOS` (R23). -/
abbrev BitIndex := BitVec 19

/-- A byte string (R8). -/
abbrev ByteString := List (BitVec 8)

/-- The low eight bits of a number as a byte. -/
def byteOf (n : Nat) : Byte := BitVec.ofNat 8 n

/-- The low sixteen bits of a number as a register value. -/
def word16Of (n : Nat) : Word16 := BitVec.ofNat 16 n

/-- The low nineteen bits of a number as a bit index. -/
def bitIndexOf (n : Nat) : BitIndex := BitVec.ofNat 19 n

end Sys2Proof
end

