-- ==== Sys2Proof/Config.lean ====
section
/-! DEFINITION. The parameters of 00_scope.md R5: the *fixed* ones as constants, the *default* and *OPEN* ones as the
fields of `Config`, which the machine holds read-only in its state (log 1); and the free values the spec leaves open. -/

namespace Sys2Proof

/-- A colour of the palette (43_rom_serializer.md R215). -/
structure Rgb where
  r : Byte
  g : Byte
  b : Byte
deriving DecidableEq, Repr

/-- The parameters a model takes as named arguments (R5, *default* and *OPEN*). -/
structure Config where
  /-- `LEGACY_MAGIC` (R66). -/
  legacyMagic : ByteString
  /-- `MODERN_MAGIC` (R67). -/
  modernMagic : ByteString
  /-- `ALPHABET[1..59]`: entry `c - 1` is the byte of code `c` (R68). -/
  alphabet : ByteString
  /-- `LEGACY_COMPAT_SNIPPET`, OPEN; empty means no deletion (R106, log 2). -/
  compatSnippet : ByteString
  /-- `MODERN_RAW_ESCAPE` (R147). -/
  modernRawEscape : Bool
  /-- `CART_VERSION`, OPEN; the host passes it as `ver` (R301, log 3). -/
  cartVersion : Byte
  /-- `LABEL_X` (R208). -/
  labelX : Nat
  /-- `LABEL_Y` (R208). -/
  labelY : Nat
  /-- `PALETTE[0..15]` (R215). -/
  palette : List Rgb
  /-- `TEXT_HEADER_PHRASE` (R232). -/
  headerPhrase : ByteString
  /-- The marker of the code section (R234). -/
  markLua : ByteString
  /-- The marker of the graphics section. -/
  markGfx : ByteString
  /-- The marker of the map section. -/
  markMap : ByteString
  /-- The marker of the sound section. -/
  markSfx : ByteString
  /-- The marker of the music section. -/
  markMusic : ByteString
  /-- The marker of the label section. -/
  markLabel : ByteString
deriving DecidableEq, Repr

/-- `__gff__`, the marker of the flags section: the one marker the source names, *fixed* (R5, 93 G9). -/
def gffMarker : ByteString := [0x5f#8, 0x5f#8, 0x67#8, 0x66#8, 0x66#8, 0x5f#8, 0x5f#8]

namespace Config

/-- The seven section markers in the table's order, six parameters and the fixed `__gff__` (R5, R234). -/
def markers (c : Config) : List ByteString :=
  [c.markLua, c.markGfx, gffMarker, c.markMap, c.markSfx, c.markMusic, c.markLabel]

/-- What R5, R65, R68, R215 and R234 say of the parameters: two different magics of 4 bytes, 59 different alphabet
bytes, 16 colours, seven different markers that are lines (no 0x0a, no 0x0d), and a phrase within one line. -/
def wf (c : Config) : Bool :=
  c.legacyMagic.length == 4 && c.modernMagic.length == 4 && (c.legacyMagic != c.modernMagic) &&
  c.alphabet.length == 59 && decide c.alphabet.Nodup && c.palette.length == 16 &&
  decide c.markers.Nodup && c.markers.all (fun m => m.all (fun b => b != 0x0a#8 && b != 0x0d#8)) &&
  c.headerPhrase.all (fun b => b != 0x0a#8 && b != 0x0d#8)

/-- A free value: the byte found at index `i` of a buffer or table that has no such byte. No rule of the spec reads
one (R48, R105); it stands only in states that no run reaches (log 12). -/
opaque strayByte : Nat → Byte

/-- Free values for the encoder registers `POS`, `BEST_LEN`, `BEST_OFF`, which have no defined value between commands
(10_state.md R33, 93 I21; log 11). -/
opaque freeWord : Nat → Word16

/-- Free values for the writer's pending bit string, as `freeWord` (log 11). -/
opaque freeBits : Nat → List Bool

/-- `CART_VERSION` has no value in any source (00_scope.md R5, D29; log 3). -/
opaque openCartVersion : Byte

end Config

/-- `ROM_SIZE` (R5). -/
def romSize : Nat := 0x8000
/-- `CODE_BASE` (R5). -/
def codeBase : Nat := 0x4300
/-- `CODE_CAP` (R5). -/
def codeCap : Nat := 0x3d00
/-- `S_MAX` (R5). -/
def sMax : Nat := 15608
/-- `LABEL_SIZE` (R5). -/
def labelSize : Nat := 0x2000
/-- `HDR_SIZE` (R5). -/
def hdrSize : Nat := 8
/-- `LEG_WINDOW` (R5). -/
def legWindow : Nat := 3135
/-- `LEG_MAXLEN` (R5). -/
def legMaxLen : Nat := 17
/-- `MOD_WINDOW` (R5). -/
def modWindow : Nat := 32768
/-- The longest input buffer and the longest declared length (R6). -/
def bufferMax : Nat := 65535

end Sys2Proof
end

