-- ==== Sys2Proof/Syntax.lean ====
section
/-! DEFINITION. The instructions: one constructor per row of spec/opcode_table.json. Seven are tokens of the compressed
streams (30_encoding.md R70 to R72, R76, R78), fourteen are host commands (R84). Operands are decoded values; whether
they fit their fields is said by WellFormed.lean. -/

namespace Sys2Proof

/-- The operand `src` of `DECOMPRESS`: the code region, or a host buffer `C` (10_state.md R20). -/
inductive Source where
  | region
  | host (c : ByteString)
deriving DecidableEq, Repr

/-- The instructions of the block. -/
inductive Instr where
  /-- `LIT`: Legacy alphabet literal, format `LL` (R70). -/
  | lit (code : Nat)
  /-- `ESC`: Legacy escaped literal, format `LE` (R71). -/
  | esc (raw : Byte)
  /-- `BREF`: Legacy back-reference, format `LB` (R72). -/
  | bref (offset len : Nat)
  /-- `MLIT`: Modern literal code, format `ML`: unary count `k`, field `v` (R76). `k = 5` is the illegal prefix of five
  ones, which ends the code at once and has no field (R82; log 22). -/
  | mlit (k v : Nat)
  /-- `MBREF.S`: Modern back-reference with a 5-bit offset, format `MBS` (R78). -/
  | mbrefS (offset len : Nat)
  /-- `MBREF.M`: Modern back-reference with a 10-bit offset, format `MBM` (R78). -/
  | mbrefM (offset len : Nat)
  /-- `MBREF.L`: Modern back-reference with a 15-bit offset, format `MBL` (R78). -/
  | mbrefL (offset len : Nat)
  /-- `DECOMPRESS` (R170). -/
  | decompress (src : Source)
  /-- `COMPRESS_LEGACY` (R175). -/
  | compressLegacy (src : ByteString)
  /-- `COMPRESS_MODERN` (R176). -/
  | compressModern (src : ByteString)
  /-- `COMPRESS_BEST` (R177). -/
  | compressBest (src : ByteString)
  /-- `ROM_READ` (R200). -/
  | romRead (a : Nat)
  /-- `ROM_WRITE` (R201). -/
  | romWrite (a v : Nat)
  /-- `LABEL_READ` (R202). -/
  | labelRead (a : Nat)
  /-- `LABEL_WRITE` (R203). -/
  | labelWrite (a v : Nat)
  /-- `ROM_CLEAR` (R204). -/
  | romClear
  /-- `BIN_ASSEMBLE` (R207). -/
  | binAssemble (ver : Nat)
  /-- `PNG_UNPACK` (R209): width, height, RGBA8 pixel buffer. -/
  | pngUnpack (w h : Nat) (p : ByteString)
  /-- `PNG_PACK` (R213): width, height, template pixel buffer, version. -/
  | pngPack (w h : Nat) (p : ByteString) (ver : Nat)
  /-- `TEXT_PARSE` (R230). -/
  | textParse (t : ByteString)
  /-- `TEXT_SERIALIZE` (R244). -/
  | textSerialize (ver : Nat)
deriving DecidableEq, Repr

/-- The three streams an instruction is fetched from: host commands (R84), the byte tokens of a Legacy body (R73), the
bit tokens of a Modern body (R80). -/
inductive Stream where
  | command
  | legacy
  | modern
deriving DecidableEq, Repr

/-- The stream an instruction belongs to. -/
def Instr.stream : Instr → Stream
  | .lit _ => .legacy
  | .esc _ => .legacy
  | .bref _ _ => .legacy
  | .mlit _ _ => .modern
  | .mbrefS _ _ => .modern
  | .mbrefM _ _ => .modern
  | .mbrefL _ _ => .modern
  | .decompress _ => .command
  | .compressLegacy _ => .command
  | .compressModern _ => .command
  | .compressBest _ => .command
  | .romRead _ => .command
  | .romWrite _ _ => .command
  | .labelRead _ => .command
  | .labelWrite _ _ => .command
  | .romClear => .command
  | .binAssemble _ => .command
  | .pngUnpack _ _ _ => .command
  | .pngPack _ _ _ _ => .command
  | .textParse _ => .command
  | .textSerialize _ => .command

end Sys2Proof
end

