-- ==== Sys2Proof/WellFormed.lean ====
section
/-! DEFINITION. When an instruction's operands fit their fields: the field ranges of 30_encoding.md R70 to R72, R76, R78,
R79 and the operand widths of R84 and 10_state.md R20. A command whose operand does not fit its width is refused
(60_exceptions.md R266). The domain checks a command makes itself (`|S| > S_MAX`, `|P| ≠ 4*W*H`, …) are its meaning's. -/

namespace Sys2Proof

/-- The source operand fits: a host buffer has at most 65535 bytes (R20). -/
def Source.wf : Source → Bool
  | .region => true
  | .host c => c.length ≤ bufferMax

/-- The operands of an instruction fit their fields. `MLIT` with `k = 5` and no field is the illegal prefix of five ones (R82;
DESIGN CHOICE, log 22). The 16 bits of `PNG_PACK`'s `W` and `H` and the 8 bits of its `ver` are
the model's choice: R84 gives that row no widths (DESIGN CHOICE, log 29). -/
def Instr.wf : Instr → Bool
  | .lit code => 1 ≤ code && code ≤ 59
  | .esc _ => true
  | .bref offset len => offset ≤ 3135 && 2 ≤ len && len ≤ 17
  | .mlit k v => (k ≤ 4 && v < 2 ^ (4 + k)) || (k == 5 && v == 0)
  | .mbrefS offset len => 1 ≤ offset && offset ≤ 32 && 3 ≤ len
  | .mbrefM offset len => 1 ≤ offset && offset ≤ 1024 && 3 ≤ len
  | .mbrefL offset len => 1 ≤ offset && offset ≤ 32768 && 3 ≤ len
  | .decompress src => src.wf
  | .compressLegacy _ => true
  | .compressModern _ => true
  | .compressBest _ => true
  | .romRead a => a < 2 ^ 16
  | .romWrite a v => a < 2 ^ 16 && v < 2 ^ 8
  | .labelRead a => a < 2 ^ 16
  | .labelWrite a v => a < 2 ^ 16 && v < 2 ^ 8
  | .romClear => true
  | .binAssemble ver => ver < 2 ^ 8
  | .pngUnpack w h _ => w < 2 ^ 16 && h < 2 ^ 16
  | .pngPack w h _ ver => w < 2 ^ 16 && h < 2 ^ 16 && ver < 2 ^ 8
  | .textParse _ => true
  | .textSerialize ver => ver < 2 ^ 8

end Sys2Proof
end

