-- ==== Sys2Proof/Decode.lean ====
section
/-! DEFINITION. The decoders of the three streams, total on any bytes or bits and rejecting by name, and after them the
encoders, written from the same tables: the Legacy token formats (30_encoding.md R70 to R73), the Modern token formats
(R74 to R80) and the host command codes (R84). -/

namespace Sys2Proof

/-- Why a decoder finds no instruction. -/
inductive DecodeError where
  /-- The stream ends inside the token (40 R101 to R104, 41 R131). -/
  | truncated
  /-- A command code that R84 does not list. -/
  | reservedCode (code : Byte)
  /-- A `src` other than 0 and 1 (R84). -/
  | badSource (src : Byte)
  /-- A command message without its code or with too few operand bytes. -/
  | missingOperand
  /-- A command message with more operand bytes than the operands' widths (R266). -/
  | extraBytes
deriving DecidableEq, Repr

/-! ## Bits and fields -/

/-- The bits of a byte in stream order, least significant first (R74). -/
def bitsOfByte (b : Byte) : List Bool :=
  [b.getLsbD 0, b.getLsbD 1, b.getLsbD 2, b.getLsbD 3, b.getLsbD 4, b.getLsbD 5, b.getLsbD 6, b.getLsbD 7]

/-- The bits of a byte string in stream order: bit `p` is bit `p mod 8` of byte `p div 8` (R74). -/
def bitsOf : ByteString → List Bool
  | [] => []
  | b :: bs => bitsOfByte b ++ bitsOf bs

/-- The number whose bits these are, first bit = bit 0 (R132). -/
def natOfBits : List Bool → Nat
  | [] => 0
  | b :: bs => b.toNat + 2 * natOfBits bs

/-- The `n` low bits of a number, bit 0 first (R134). -/
def bitsOfNat : Nat → Nat → List Bool
  | 0, _ => []
  | n + 1, v => (v % 2 == 1) :: bitsOfNat n (v / 2)

/-- `GetBits(n)` on a bit list: the field and the bits after it (R132). -/
def readField : Nat → List Bool → Option (Nat × List Bool)
  | 0, bs => some (0, bs)
  | _ + 1, [] => none
  | n + 1, b :: bs =>
    match readField n bs with
    | some (v, rest) => some (b.toNat + 2 * v, rest)
    | none => none

/-- The unary prefix: ones up to a zero terminator, or `m` ones with no terminator read (R76; 41 R141 stops at the fifth). -/
def readUnary : Nat → List Bool → Option (Nat × List Bool)
  | 0, bs => some (0, bs)
  | _ + 1, [] => none
  | _ + 1, false :: bs => some (0, bs)
  | m + 1, true :: bs =>
    match readUnary m bs with
    | some (k, rest) => some (k + 1, rest)
    | none => none

/-- The length groups: 3-bit fields summed until one is not 7 (R79). -/
def readGroups : List Bool → Option (Nat × List Bool)
  | a :: b :: c :: rest =>
    let g := natOfBits [a, b, c]
    if g = 7 then
      match readGroups rest with
      | some (t, rest') => some (7 + t, rest')
      | none => none
    else some (g, rest)
  | _ => none

/-- `BE16`: the big-endian number of two bytes (R8). -/
def be16 (hi lo : Byte) : Nat := hi.toNat * 256 + lo.toNat

/-- The two bytes of a 16-bit number, high byte first (R66, R67). -/
def be16Bytes (n : Nat) : ByteString := [byteOf (n / 256), byteOf n]

/-! ## The decoders -/

/-- The Legacy decode map (R73): the first token of a byte stream and the bytes after it. -/
def decodeLegacy : ByteString → Except DecodeError (Instr × ByteString)
  | [] => .error .truncated
  | b0 :: rest =>
    if b0 = 0#8 then
      match rest with
      | [] => .error .truncated
      | b1 :: rest' => .ok (.esc b1, rest')
    else if b0.toNat ≤ 0x3b then .ok (.lit b0.toNat, rest)
    else
      match rest with
      | [] => .error .truncated
      | b1 :: rest' => .ok (.bref ((b0.toNat - 0x3c) * 16 + b1.toNat % 16) (b1.toNat / 16 + 2), rest')

/-- The rest of a literal code after its kind bit (R76; 41 R141). -/
def decodeLiteral (bits : List Bool) : Except DecodeError (Instr × List Bool) :=
  match readUnary 5 bits with
  | none => .error .truncated
  | some (k, rest) =>
    if k = 5 then .ok (.mlit 5 0, rest)
    else
      match readField (4 + k) rest with
      | none => .error .truncated
      | some (v, rest') => .ok (.mlit k v, rest')

/-- An offset field of `n` bits and the length groups: the offset and length of a back-reference code (R78, R79). -/
def decodeReference (n : Nat) (bits : List Bool) : Except DecodeError (Nat × Nat × List Bool) :=
  match readField n bits with
  | none => .error .truncated
  | some (o, rest) =>
    match readGroups rest with
    | none => .error .truncated
    | some (t, rest') => .ok (o + 1, 3 + t, rest')

/-- The Modern decode map (R80; 41 R139): the first token of a bit stream and the bits after it. -/
def decodeModern : List Bool → Except DecodeError (Instr × List Bool)
  | true :: bits => decodeLiteral bits
  | false :: true :: true :: bits =>
    match decodeReference 5 bits with
    | .ok (o, l, rest) => .ok (.mbrefS o l, rest)
    | .error e => .error e
  | false :: true :: false :: bits =>
    match decodeReference 10 bits with
    | .ok (o, l, rest) => .ok (.mbrefM o l, rest)
    | .error e => .error e
  | false :: false :: bits =>
    match decodeReference 15 bits with
    | .ok (o, l, rest) => .ok (.mbrefL o l, rest)
    | .error e => .error e
  | _ => .error .truncated

/-- The host commands of R84. -/
inductive Cmd where
  | decompress | compressLegacy | compressModern | compressBest
  | romRead | romWrite | labelRead | labelWrite | romClear
  | binAssemble | pngUnpack | pngPack | textParse | textSerialize
deriving DecidableEq, Repr

/-- The command code table of R84. -/
def commandTable : List (Byte × Cmd) :=
  [(0x01#8, .decompress), (0x02#8, .compressLegacy), (0x03#8, .compressModern), (0x04#8, .compressBest),
   (0x10#8, .romRead), (0x11#8, .romWrite), (0x12#8, .labelRead), (0x13#8, .labelWrite), (0x14#8, .romClear),
   (0x20#8, .binAssemble), (0x30#8, .pngUnpack), (0x31#8, .pngPack), (0x40#8, .textParse), (0x41#8, .textSerialize)]

/-- The entry of a code in a command table. -/
def lookupCmd : List (Byte × Cmd) → Byte → Option Cmd
  | [], _ => none
  | (b, c) :: rest, code => if b = code then some c else lookupCmd rest code

/-- The command a code stands for; codes not listed are reserved (R84). -/
def cmdOfCode (code : Byte) : Option Cmd := lookupCmd commandTable code

/-- How many operand bytes stand before the byte-string operand, or at all (R84's widths; log 5). -/
def Cmd.fixedBytes : Cmd → Nat
  | .decompress => 1
  | .compressLegacy => 0
  | .compressModern => 0
  | .compressBest => 0
  | .romRead => 2
  | .romWrite => 3
  | .labelRead => 2
  | .labelWrite => 3
  | .romClear => 0
  | .binAssemble => 1
  | .pngUnpack => 4
  | .pngPack => 5
  | .textParse => 0
  | .textSerialize => 1

/-- One 8-bit operand, and nothing after it. -/
def oneByte (f : Nat → Instr) : ByteString → Except DecodeError Instr
  | [] => .error .missingOperand
  | [v] => .ok (f v.toNat)
  | _ => .error .extraBytes

/-- One 16-bit operand, high byte first, and nothing after it. -/
def oneWord (f : Nat → Instr) : ByteString → Except DecodeError Instr
  | [hi, lo] => .ok (f (be16 hi lo))
  | _ :: _ :: _ :: _ => .error .extraBytes
  | _ => .error .missingOperand

/-- A 16-bit and an 8-bit operand, and nothing after them. -/
def wordAndByte (f : Nat → Nat → Instr) : ByteString → Except DecodeError Instr
  | [hi, lo, v] => .ok (f (be16 hi lo) v.toNat)
  | _ :: _ :: _ :: _ :: _ => .error .extraBytes
  | _ => .error .missingOperand

/-- The operands of a command, from the message bytes after its code (R84; log 5). -/
def decodeOperands : Cmd → ByteString → Except DecodeError Instr
  | .decompress, ops =>
    match ops with
    | [] => .error .missingOperand
    | src :: rest =>
      if src = 0#8 then (if rest = [] then .ok (.decompress .region) else .error .extraBytes)
      else if src = 1#8 then .ok (.decompress (.host rest))
      else .error (.badSource src)
  | .compressLegacy, ops => .ok (.compressLegacy ops)
  | .compressModern, ops => .ok (.compressModern ops)
  | .compressBest, ops => .ok (.compressBest ops)
  | .romRead, ops => oneWord .romRead ops
  | .romWrite, ops => wordAndByte .romWrite ops
  | .labelRead, ops => oneWord .labelRead ops
  | .labelWrite, ops => wordAndByte .labelWrite ops
  | .romClear, ops => if ops = [] then .ok .romClear else .error .extraBytes
  | .binAssemble, ops => oneByte .binAssemble ops
  | .pngUnpack, ops =>
    match ops with
    | w1 :: w0 :: h1 :: h0 :: p => .ok (.pngUnpack (be16 w1 w0) (be16 h1 h0) p)
    | _ => .error .missingOperand
  | .pngPack, ops =>
    match ops with
    | w1 :: w0 :: h1 :: h0 :: ver :: p => .ok (.pngPack (be16 w1 w0) (be16 h1 h0) p ver.toNat)
    | _ => .error .missingOperand
  | .textParse, ops => .ok (.textParse ops)
  | .textSerialize, ops => oneByte .textSerialize ops

/-- A host command message: its code, then its operands (R84; log 5). -/
def decodeCommand : ByteString → Except DecodeError Instr
  | [] => .error .missingOperand
  | code :: ops =>
    match cmdOfCode code with
    | none => .error (.reservedCode code)
    | some c => decodeOperands c ops

/-- The code of an instruction in its own stream: a command message, token bytes, or token bits. -/
inductive Code where
  | command (msg : ByteString)
  | legacy (bytes : ByteString)
  | modern (bits : List Bool)
deriving DecidableEq, Repr

/-- The one decoder: the first instruction of a code in its stream. -/
def decode : Code → Except DecodeError Instr
  | .command msg => decodeCommand msg
  | .legacy bytes =>
    match decodeLegacy bytes with
    | .ok (i, _) => .ok i
    | .error e => .error e
  | .modern bits =>
    match decodeModern bits with
    | .ok (i, _) => .ok i
    | .error e => .error e

/-! ## The encoders -/

/-- The length groups of `len = 3 + t` (R79; 41 R155): sevens, then the rest. -/
def groupBits (t : Nat) : List Bool :=
  (List.replicate (3 * (t / 7)) true) ++ bitsOfNat 3 (t % 7)

/-- The bytes of a Legacy token (R70 to R72; 40 R113). -/
def encodeLegacy : Instr → ByteString
  | .lit code => [byteOf code]
  | .esc raw => [0#8, raw]
  | .bref offset len => [byteOf (0x3c + offset / 16), byteOf ((len - 2) * 16 + offset % 16)]
  | _ => []

/-- The bits of a Modern token in stream order (R76, R78, R79; 41 R154, R155). -/
def encodeModern : Instr → List Bool
  | .mlit k v =>
    if k = 5 then true :: List.replicate 5 true
    else true :: (List.replicate k true ++ false :: bitsOfNat (4 + k) v)
  | .mbrefS offset len => [false, true, true] ++ bitsOfNat 5 (offset - 1) ++ groupBits (len - 3)
  | .mbrefM offset len => [false, true, false] ++ bitsOfNat 10 (offset - 1) ++ groupBits (len - 3)
  | .mbrefL offset len => [false, false] ++ bitsOfNat 15 (offset - 1) ++ groupBits (len - 3)
  | _ => []

/-- The message of a host command (R84; log 5). -/
def encodeCommand : Instr → ByteString
  | .decompress .region => [0x01#8, 0#8]
  | .decompress (.host c) => 0x01#8 :: 1#8 :: c
  | .compressLegacy s => 0x02#8 :: s
  | .compressModern s => 0x03#8 :: s
  | .compressBest s => 0x04#8 :: s
  | .romRead a => 0x10#8 :: be16Bytes a
  | .romWrite a v => 0x11#8 :: be16Bytes a ++ [byteOf v]
  | .labelRead a => 0x12#8 :: be16Bytes a
  | .labelWrite a v => 0x13#8 :: be16Bytes a ++ [byteOf v]
  | .romClear => [0x14#8]
  | .binAssemble ver => [0x20#8, byteOf ver]
  | .pngUnpack w h p => 0x30#8 :: be16Bytes w ++ be16Bytes h ++ p
  | .pngPack w h p ver => 0x31#8 :: be16Bytes w ++ be16Bytes h ++ byteOf ver :: p
  | .textParse t => 0x40#8 :: t
  | .textSerialize ver => [0x41#8, byteOf ver]
  | _ => []

/-- The one encoder: an instruction's code in its stream. -/
def encode (i : Instr) : Code :=
  match i.stream with
  | .command => .command (encodeCommand i)
  | .legacy => .legacy (encodeLegacy i)
  | .modern => .modern (encodeModern i)

/-! ## The opcode table's words -/

/-- The bytes of an instruction whose table bits are `w`, the byte with bit 0 first. -/
def tableBytes (nbits w : Nat) : ByteString :=
  (List.range ((nbits + 7) / 8)).map (fun j => byteOf (w % 2 ^ nbits / 256 ^ j))

/-- The stream an opcode-table word is taken from. One table lists the instructions of three streams, whose first bytes
coincide, so the length decides: 8 bits are a host command where R84 lists the code, else a one-byte Legacy token where
R73 has one, else Modern bits; 16 bits are a two-byte Legacy token where R73 has one, else Modern bits; any other length is
Modern bits (log 8). -/
def tableStream (nbits w : Nat) : Stream :=
  let b0 := w % 2 ^ nbits % 256
  if nbits = 8 then
    if (cmdOfCode (byteOf b0)).isSome then .command
    else if 1 ≤ b0 ∧ b0 ≤ 0x3b then .legacy
    else .modern
  else if nbits = 16 then
    if b0 = 0 ∨ 0x3c ≤ b0 then .legacy else .modern
  else .modern

/-- The message a table word of the command stream stands for: the code with zero operands. -/
def tableMessage (nbits w : Nat) : ByteString :=
  let code := byteOf (w % 2 ^ nbits)
  match cmdOfCode code with
  | some c => code :: List.replicate c.fixedBytes 0#8
  | none => [code]

/-- The code of an opcode-table word: its own bits, every bit above them 0. -/
def tableCode (nbits w : Nat) : Code :=
  match tableStream nbits w with
  | .command => .command (tableMessage nbits w)
  | .legacy => .legacy (tableBytes nbits w)
  | .modern => .modern (bitsOf (tableBytes nbits w ++ List.replicate 4 0#8))

/-- The instruction the decoder reads from an instruction whose bits are `w`, numbered as the opcode table numbers them. -/
def decodeTableWord (nbits w : Nat) : Option Instr :=
  match decode (tableCode nbits w) with
  | .ok i => some i
  | .error _ => none

end Sys2Proof
end

