-- ==== Sys2Proof/Machine/Tables.lean ====
section
/-! DEFINITION. The values of the tables: the fixed `WIDTH` table (00_scope.md R5, 30_encoding.md R77) and the defaults
of the parameters (R5, R66, R67, R68, R215, R232, R234). The defaults are the spec's; most are marked there "from general
knowledge" (93 G1 to G10), and `LEGACY_COMPAT_SNIPPET` empty is the convention of 95_test_vectors.md (log 2, log 17). -/

namespace Sys2Proof.Machine

open Sys2Proof

/-- `WIDTH[0..15]` (R77). -/
def widthTable : List Nat := [4, 5, 5, 6, 6, 6, 6, 7, 7, 7, 7, 7, 7, 7, 7, 8]

/-- The control bytes, digits and letters of the default alphabet, codes 0x01 to 0x26 (R68). -/
def defaultAlphabetLetters : ByteString :=
  [0x0a#8, 0x20#8, 0x30#8, 0x31#8, 0x32#8, 0x33#8, 0x34#8, 0x35#8, 0x36#8, 0x37#8, 0x38#8, 0x39#8,
   0x61#8, 0x62#8, 0x63#8, 0x64#8, 0x65#8, 0x66#8, 0x67#8, 0x68#8, 0x69#8, 0x6a#8, 0x6b#8, 0x6c#8, 0x6d#8,
   0x6e#8, 0x6f#8, 0x70#8, 0x71#8, 0x72#8, 0x73#8, 0x74#8, 0x75#8, 0x76#8, 0x77#8, 0x78#8, 0x79#8, 0x7a#8]

/-- The punctuation of the default alphabet, codes 0x27 to 0x3b (R68). -/
def defaultAlphabetPunctuation : ByteString :=
  [0x21#8, 0x23#8, 0x25#8, 0x28#8, 0x29#8, 0x7b#8, 0x7d#8, 0x5b#8, 0x5d#8, 0x3c#8, 0x3e#8, 0x2b#8, 0x3d#8,
   0x2f#8, 0x2a#8, 0x3a#8, 0x3b#8, 0x2e#8, 0x2c#8, 0x7e#8, 0x5f#8]

/-- The default palette (R215). -/
def defaultPalette : List Rgb :=
  [⟨0#8, 0#8, 0#8⟩, ⟨29#8, 43#8, 83#8⟩, ⟨126#8, 37#8, 83#8⟩, ⟨0#8, 135#8, 81#8⟩,
   ⟨171#8, 82#8, 54#8⟩, ⟨95#8, 87#8, 79#8⟩, ⟨194#8, 195#8, 199#8⟩, ⟨255#8, 241#8, 232#8⟩,
   ⟨255#8, 0#8, 77#8⟩, ⟨255#8, 163#8, 0#8⟩, ⟨255#8, 236#8, 39#8⟩, ⟨0#8, 228#8, 54#8⟩,
   ⟨41#8, 173#8, 255#8⟩, ⟨131#8, 118#8, 156#8⟩, ⟨255#8, 119#8, 168#8⟩, ⟨255#8, 204#8, 170#8⟩]

/-- A marker: two underscores, a name, two underscores (R234). -/
def markerBytes (name : ByteString) : ByteString := [0x5f#8, 0x5f#8] ++ name ++ [0x5f#8, 0x5f#8]

/-- The parameters at reset: the defaults of R5. -/
def defaultConfig : Config where
  legacyMagic := [0x3a#8, 0x63#8, 0x3a#8, 0x00#8]
  modernMagic := [0x00#8, 0x70#8, 0x78#8, 0x61#8]
  alphabet := defaultAlphabetLetters ++ defaultAlphabetPunctuation
  compatSnippet := []
  modernRawEscape := false
  cartVersion := Config.openCartVersion
  labelX := 16
  labelY := 24
  palette := defaultPalette
  -- "pico-8 cartridge"
  headerPhrase := [0x70#8, 0x69#8, 0x63#8, 0x6f#8, 0x2d#8, 0x38#8, 0x20#8, 0x63#8, 0x61#8, 0x72#8, 0x74#8, 0x72#8,
    0x69#8, 0x64#8, 0x67#8, 0x65#8]
  markLua := markerBytes [0x6c#8, 0x75#8, 0x61#8]
  markGfx := markerBytes [0x67#8, 0x66#8, 0x78#8]
  markMap := markerBytes [0x6d#8, 0x61#8, 0x70#8]
  markSfx := markerBytes [0x73#8, 0x66#8, 0x78#8]
  markMusic := markerBytes [0x6d#8, 0x75#8, 0x73#8, 0x69#8, 0x63#8]
  markLabel := markerBytes [0x6c#8, 0x61#8, 0x62#8, 0x65#8, 0x6c#8]

end Sys2Proof.Machine
end

