-- ==== Sys2Proof/Machine/State.lean ====
section
/-! DEFINITION. The state of the block as plain data: the memories and registers of 10_state.md R20 to R37, the read-only
parameters of 00_scope.md R5, and four fields of the model's own (the host's queue, the returned results, the fetch stage,
the free-value counter; log 4, log 7, log 11). -/

namespace Sys2Proof.Machine

open Sys2Proof

/-- A memory of bytes: the listed cells, addresses strictly rising, no listed byte 0x00. An unlisted address reads 0x00,
the reset content of `ROM` and `LABEL` (R37; log 18). -/
abbrev Memory := List Host.Cell

/-- The form of a code buffer (R65). -/
inductive Form where
  | raw
  | legacy
  | modern
deriving DecidableEq, Repr

/-- `MODE` (R27). -/
inductive Mode where
  | none
  | raw
  | legacy
  | modern
deriving DecidableEq, Repr

/-- Where the buffer of a decode comes from (R170). -/
inductive Origin where
  | region
  | host
deriving DecidableEq, Repr

/-- What the engine does next (the model's own, log 7): take a host command; execute the next token of an opened decode;
end a decode whose loop has stopped. -/
inductive Stage where
  | idle
  | decoding (form : Form) (origin : Origin)
  | ended (form : Form) (origin : Origin)
deriving DecidableEq, Repr

/-- An event of the host: a command message (R84; log 5), or reset (R290). -/
inductive HostEvent where
  | command (msg : ByteString)
  | reset
deriving DecidableEq, Repr

/-- What a command returns (R20). -/
inductive Result where
  /-- A command with no result: `ROM_WRITE`, `LABEL_WRITE`, `ROM_CLEAR`. -/
  | done
  /-- `ROM_READ`, `LABEL_READ`: the byte. -/
  | byte (v : Byte)
  /-- `DECOMPRESS`: `S`, `MODE`, `STATUS`. -/
  | decoded (text : ByteString) (mode : Mode) (status : Byte)
  /-- `COMPRESS_LEGACY`, `COMPRESS_MODERN`: `C`, `STATUS`. -/
  | compressed (code : ByteString) (status : Byte)
  /-- `COMPRESS_BEST`: `C`, `MODE`, `STATUS`. -/
  | best (code : ByteString) (mode : Mode) (status : Byte)
  /-- `BIN_ASSEMBLE`: the image, `STATUS`. -/
  | image (bytes : ByteString) (status : Byte)
  /-- `PNG_UNPACK` with `ok = true`: `ver`, `STATUS`. -/
  | unpacked (ver : Byte) (status : Byte)
  /-- `PNG_PACK` with `ok = true`: the pixel buffer, `STATUS`. -/
  | packed (pixels : ByteString) (status : Byte)
  /-- `TEXT_PARSE` with `ok = true`: `STATUS`. -/
  | parsed (status : Byte)
  /-- `TEXT_SERIALIZE`: the text, `STATUS`. -/
  | text (bytes : ByteString) (status : Byte)
  /-- `PNG_UNPACK`, `PNG_PACK`, `TEXT_PARSE` with `ok = false`: `STATUS`. -/
  | failed (status : Byte)
deriving DecidableEq, Repr

/-- Why the machine stops with a fault. The spec's own fault (60_exceptions.md R265) is no stop: it is taken, in a next
state with `FAULTED` set. -/
inductive Fault where
  /-- Raised by the meaning of a token when no decode of its form is under way, or its output budget is met. The spec
  executes tokens nowhere else (40 R101, 41 R139). Safe: the machine stops where the spec has nothing (log 10). -/
  | noDecode
deriving DecidableEq, Repr

/-- Why a command is refused (00_scope.md R11, 60_exceptions.md R267). A refusal changes no state. -/
inductive Refusal where
  /-- Raised by `exec`'s arm of an instruction that has no meaning yet. Safe. -/
  | notModelled (mnemonic : String)
  /-- Raised by every command's preamble when `FAULTED = 1` (R266, I17). Safe: the spec refuses. -/
  | faulted
  /-- Raised by the fetch of a command whose code R84 does not list (I18). Safe: the spec refuses. -/
  | reservedCode (code : Byte)
  /-- Raised by the fetch of a `DECOMPRESS` whose `src` is neither 0 nor 1 (R84, I18). Safe: the spec refuses. -/
  | badSource (src : Byte)
  /-- Raised by a preamble when an operand does not fit its width (R266, I18), and by the fetch of a message with too few
  or too many operand bytes (log 5). Safe: the spec refuses. -/
  | operandWidth
  /-- Raised by the compress commands and `BIN_ASSEMBLE` when `|S| > S_MAX` (R108, R148, R177, R207; I12, I14). Safe. -/
  | sourceTooLong
  /-- Raised by `COMPRESS_MODERN`, `COMPRESS_BEST` and `BIN_ASSEMBLE` when `S` holds 0x00 (R148, R177, R207; I13, I14).
  Safe. -/
  | sourceHasZero
  /-- Raised by `PNG_UNPACK` and `PNG_PACK` when `|P| ≠ 4*W*H` (R209, R213; I15). Safe. -/
  | pixelBufferLength
  /-- Raised by a Modern decode that reaches `MBREF.M` with `o = 0` while `MODERN_RAW_ESCAPE` is true (R147; I10). Safe. -/
  | rawEscape
  /-- Raised by the meaning of a token whose fields do not exist in its format (R70, R72, R76, R78). No decoder gives one.
  Safe. -/
  | illFormedToken
deriving DecidableEq, Repr

/-- The state. -/
structure State where
  /-- `ROM` (R35, R46). -/
  rom : Memory
  /-- `LABEL` (R35). -/
  label : Memory
  /-- `IP` (R22). -/
  ip : Word16
  /-- `BITPOS` (R23). -/
  bitpos : BitIndex
  /-- `INBUF` (R24). -/
  inbuf : ByteString
  /-- `INLEN` (R24). -/
  inlen : Word16
  /-- `DECLEN` (R25). -/
  declen : Word16
  /-- `OUT` (R26). -/
  out : ByteString
  /-- `OUTLEN` (R26). -/
  outlen : Word16
  /-- `MODE` (R27). -/
  mode : Mode
  /-- `STATUS` (R28). -/
  status : Byte
  /-- `FAULTED` (R29). -/
  faulted : Bool
  /-- `FCAUSE` (R29, R260). -/
  fcause : BitVec 4
  /-- `FADDR` (R29). -/
  faddr : Word16
  /-- `MTF[0..255]` (R30). -/
  mtf : ByteString
  /-- `CACHE` (R31). -/
  cache : ByteString
  /-- `CACHE_VALID` (R31). -/
  cacheValid : Bool
  /-- `POS` (R33). -/
  pos : Word16
  /-- `BEST_LEN` (R33). -/
  bestLen : Word16
  /-- `BEST_OFF` (R33). -/
  bestOff : Word16
  /-- `WB`, the pending bits of the Modern writer (R33, R133). -/
  wb : List Bool
  /-- The parameters and tables of R5 and R32, read-only (log 1). -/
  cfg : Config
  /-- The host events still to come (the model's own, log 4). -/
  port : List HostEvent
  /-- The results returned, oldest first (R302; the model's own, log 4). -/
  results : List Result
  /-- What is fetched next (the model's own, log 7). -/
  stage : Stage
  /-- How many free values have been drawn (the model's own, log 11). -/
  freeCtr : Nat
deriving DecidableEq, Repr

/-- The identity move-to-front list (R30, R136). -/
def identityMtf : ByteString := (List.range 256).map byteOf

/-- The machine right after reset (R37, R290). The encoder registers, which R37 leaves unspecified, are 0 and empty
(DESIGN CHOICE, log 11); the parameters are the defaults of R5. -/
def State.reset : State where
  rom := []
  label := []
  ip := 0#16
  bitpos := 0#19
  inbuf := []
  inlen := 0#16
  declen := 0#16
  out := []
  outlen := 0#16
  mode := .none
  status := 0#8
  faulted := false
  fcause := 0#4
  faddr := 0#16
  mtf := identityMtf
  cache := []
  cacheValid := false
  pos := 0#16
  bestLen := 0#16
  bestOff := 0#16
  wb := []
  cfg := defaultConfig
  port := []
  results := []
  stage := .idle
  freeCtr := 0

end Sys2Proof.Machine
end

