-- ==== Sys2Proof/Machine/Flags.lean ====
section
/-! DEFINITION. The diagnostic flags of `STATUS` (10_state.md R28) and `stop(X)` (00_scope.md R11). -/

namespace Sys2Proof.Machine

open Sys2Proof

/-- The flags of `STATUS` (R28). -/
inductive Flag where
  | fnr
  | stl
  | cbr
  | oco
  | trunc
  | clit
  | endmark
deriving DecidableEq, Repr

/-- A flag's bit in `STATUS` (R28). -/
def Flag.bit : Flag → Nat
  | .fnr => 0
  | .stl => 1
  | .cbr => 2
  | .oco => 3
  | .trunc => 4
  | .clit => 5
  | .endmark => 6

/-- A flag as a `STATUS` value. -/
def Flag.mask (f : Flag) : Byte := 1#8 <<< f.bit

/-- `set STATUS.X` (R11): flags are only ever set within a command. -/
def setFlag (f : Flag) (s : State) : State := { s with status := s.status ||| f.mask }

/-- `set STATUS.X` when a condition holds. -/
def setFlagIf (c : Bool) (f : Flag) (s : State) : State := if c then setFlag f s else s

/-- A flag read back from `STATUS`. -/
def hasFlag (f : Flag) (s : State) : Bool := s.status.getLsbD f.bit

/-- The end of the decode loop a stage is in. -/
def Stage.stopped : Stage → Stage
  | .idle => .idle
  | .decoding f o => .ended f o
  | .ended f o => .ended f o

/-- The decode loop ends here. -/
def endLoop (s : State) : State := { s with stage := s.stage.stopped }

/-- `stop(X)` (R11): set the flag and end the decode loop. -/
def stop (f : Flag) (s : State) : State := endLoop (setFlag f s)

/-- The 2-bit value of `MODE` (R27). -/
def Mode.code : Mode → BitVec 2
  | .none => 0#2
  | .raw => 1#2
  | .legacy => 2#2
  | .modern => 3#2

/-- The `MODE` of a form (R27). -/
def Form.mode : Form → Mode
  | .raw => .raw
  | .legacy => .legacy
  | .modern => .modern

end Sys2Proof.Machine
end

