-- ==== Sys2Proof/Machine/Ops.lean ====
section
/-! DEFINITION. The shared operations: memory (20_memory.md R48, R51, R53), the command preamble (60_exceptions.md R266),
taking the fault (R265), the results, appending and copying output (40_legacy_codec.md R105), and the move-to-front list
(41_modern_codec.md R136 to R138). -/

namespace Sys2Proof.Machine

open Sys2Proof

/-- The outcome of an instruction. -/
abbrev Step := Host.Outcome State Fault Refusal

/-- Go on from a next state; a fault or a refusal stays. -/
def andThen (o : Step) (k : State → Step) : Step :=
  match o with
  | .next t => k t
  | .fault f => .fault f
  | .refused r => .refused r

/-! ## Memory -/

/-- The byte at an address; an unlisted address reads 0x00 (R37, R53). -/
def Memory.read : Memory → Nat → Byte
  | [], _ => 0#8
  | (k, v) :: rest, a => if k = a then v else Memory.read rest a

/-- Writing a byte, in canonical form: 0x00 is not listed. -/
def Memory.write : Memory → Nat → Byte → Memory
  | [], a, v => if v = 0#8 then [] else [(a, v)]
  | (k, x) :: rest, a, v =>
    if a < k then (if v = 0#8 then (k, x) :: rest else (a, v) :: (k, x) :: rest)
    else if a = k then (if v = 0#8 then rest else (k, v) :: rest)
    else (k, x) :: Memory.write rest a v

/-- The canonical form: addresses strictly rising, no listed byte 0x00. -/
def Memory.wf : Memory → Bool
  | [] => true
  | (k, v) :: rest => (v != 0#8) && rest.all (fun c => k < c.1) && Memory.wf rest

/-- Every listed address is below a size. -/
def Memory.below (m : Memory) (size : Nat) : Bool := m.all (fun c => c.1 < size)

/-- The `n` bytes from `base` on. -/
def Memory.slice (m : Memory) (base n : Nat) : ByteString := (List.range' base n).map m.read

/-- Writing bytes one after another from `base` on. -/
def Memory.writeList : Memory → Nat → ByteString → Memory
  | m, _, [] => m
  | m, base, b :: bs => Memory.writeList (m.write base b) (base + 1) bs

/-- OR-ing bytes one after another into memory from `base` on (44_text_sections.md R237). -/
def Memory.orList : Memory → Nat → ByteString → Memory
  | m, _, [] => m
  | m, base, b :: bs => Memory.orList (m.write base (m.read base ||| b)) (base + 1) bs

/-- The memory that holds these bytes from `base` on and 0x00 elsewhere. -/
def Memory.ofBytes : Nat → ByteString → Memory
  | _, [] => []
  | base, b :: bs => if b = 0#8 then Memory.ofBytes (base + 1) bs else (base, b) :: Memory.ofBytes (base + 1) bs

/-- The code region as a buffer (R170). -/
def codeRegion (s : State) : ByteString := s.rom.slice codeBase codeCap

/-- A write of one ROM byte with its one side effect: at or above 0x4300 it clears `CACHE_VALID` (R51, R58). -/
def romPut (a : Nat) (v : Byte) (s : State) : State :=
  { s with rom := s.rom.write a v, cacheValid := if codeBase ≤ a then false else s.cacheValid }

/-- A write of one label byte; it never touches the cache (R203). -/
def labelPut (a : Nat) (v : Byte) (s : State) : State := { s with label := s.label.write a v }

/-! ## Commands -/

/-- The preamble of every command (R266): refused while faulted, refused when an operand does not fit its width; else
`STATUS <- 0`. -/
def preamble (i : Instr) (s : State) (k : State → Step) : Step :=
  if s.faulted then .refused .faulted
  else if i.wf = false then .refused .operandWidth
  else k { s with status := 0#8 }

/-- The cause codes of `FCAUSE` (R260). -/
inductive Cause where
  | romOor
  | labelOor
deriving DecidableEq, Repr

/-- The value of `FCAUSE` for a cause (R260). -/
def Cause.code : Cause → BitVec 4
  | .romOor => 1#4
  | .labelOor => 2#4

/-- Taking the fault (R265): `FAULTED <- 1; FCAUSE <- cause; FADDR <- a`; the preamble has left `STATUS` at 0, nothing else
changes, and no result is returned. There is no handler, no saved program counter and no return (R271). -/
def raiseFault (c : Cause) (a : Nat) (s : State) : State :=
  { s with faulted := true, fcause := c.code, faddr := word16Of a }

/-- Reset, the one event that leaves the fault (R290, R291): every piece of state at its reset value. The parameters, the
events still pending and the free-value counter are not the spec's state and stay; a new run begins, so the results of the
old one are gone (R302; log 23). -/
def hostReset (s : State) : State := { State.reset with cfg := s.cfg, port := s.port, freeCtr := s.freeCtr }

/-- A command returns its result. -/
def respond (r : Result) (s : State) : State := { s with results := s.results ++ [r] }

/-- The encoder registers after a compress: no defined value, so free values (R33; log 11). -/
def scrambleEncoder (s : State) : State :=
  { s with
    pos := Config.freeWord s.freeCtr
    bestLen := Config.freeWord (s.freeCtr + 1)
    bestOff := Config.freeWord (s.freeCtr + 2)
    wb := Config.freeBits (s.freeCtr + 3)
    freeCtr := s.freeCtr + 4 }

/-! ## Tokens -/

/-- A token is executed only by the decode loop of its form, while the output budget is not met (40 R101, 41 R139). -/
def inDecode (form : Form) (i : Instr) (s : State) (k : State → Step) : Step :=
  match s.stage with
  | .decoding f _ =>
    if f = form ∧ s.outlen.toNat < s.declen.toNat then (if i.wf then k s else .refused .illFormedToken)
    else .fault .noDecode
  | .idle => .fault .noDecode
  | .ended _ _ => .fault .noDecode

/-- `Append(OUT, v); OUTLEN <- OUTLEN + 1` (R8, R26). -/
def append (v : Byte) (s : State) : State := { s with out := s.out ++ [v], outlen := s.outlen + 1#16 }

/-- `OUT[i]`. -/
def outAt (s : State) (i : Nat) : Byte := s.out[i]?.getD (Config.strayByte i)

/-- `Copy(offset, len)`, one byte at a time, each visible to the next (40 R105; 20 R57): up to `n` more bytes, stopping at
the output budget. -/
def copy : Nat → Nat → State → State
  | 0, _, s => s
  | n + 1, offset, s =>
    if s.outlen = s.declen then s
    else copy n offset (append (outAt s (s.outlen.toNat - offset)) s)

/-- A back-reference whose operands are read (40 R104, 41 R143 to R145; 60 R263): corrupt when it reaches before the start
of `OUT`, or has offset 0, then it copies nothing and sets `CBR`; else it copies. -/
def reference (offset len : Nat) (s : State) : State :=
  if offset = 0 ∨ s.outlen.toNat < offset then setFlag .cbr s else copy len offset s

/-- `IP <- IP + n` (R22). -/
def advanceIp (n : Nat) (s : State) : State := { s with ip := s.ip + word16Of n }

/-- Reading the `n` bits of a Modern token (41 R131): past the input budget the decode stops with `TRUNC`, every bit of the
budget read and the token abandoned; else `BITPOS` stands after it. -/
def takeBits (n : Nat) (s : State) (k : State → Step) : Step :=
  if s.bitpos.toNat + n ≤ 8 * s.inlen.toNat then k { s with bitpos := bitIndexOf (s.bitpos.toNat + n) }
  else .next (stop .trunc { s with bitpos := bitIndexOf (max s.bitpos.toNat (8 * s.inlen.toNat)) })

/-! ## Move-to-front -/

/-- `MtfInit()` (R136). -/
def mtfInit (s : State) : State := { s with mtf := identityMtf }

/-- The byte at a rank. -/
def mtfByte (l : ByteString) (rank : Nat) : Byte := l[rank]?.getD (Config.strayByte rank)

/-- The list after `MtfTake(rank)`: the byte at the front, the entries before it one back (R137). -/
def mtfPromote (l : ByteString) (rank : Nat) : ByteString := mtfByte l rank :: (l.take rank ++ l.drop (rank + 1))

/-- `MtfRank(c)`: the rank of a byte (R138). -/
def mtfRank (l : ByteString) (c : Byte) : Nat := l.idxOf c

end Sys2Proof.Machine
end

