-- ==== Sys2Proof/Machine/Operands.lean ====
section
/-! DEFINITION. The operands of the tokens: the Legacy alphabet both ways (30_encoding.md R68, R69), the width, rank and
length of a Modern literal code (R76, R77), the length of a back-reference code (R78, R79), and the costs of the Modern
chooser (41_modern_codec.md R150, R152). -/

namespace Sys2Proof.Machine

open Sys2Proof

/-- `ALPHA[code]` (R68). -/
def alphaOf (c : Config) (code : Nat) : Byte := c.alphabet[code - 1]?.getD (Config.strayByte code)

/-- `CODE_OF[b]`: the code of a byte, 0 when it is not in the alphabet (R69). -/
def codeOf (c : Config) (b : Byte) : Nat :=
  let i := c.alphabet.idxOf b
  if i < c.alphabet.length then i + 1 else 0

/-- The width of a literal code's field (R76). -/
def litWidth (k : Nat) : Nat := 4 + k

/-- The rank a literal code spells (R76): `v + 2^w - 16`. -/
def litRank (k v : Nat) : Nat := v + 2 ^ litWidth k - 16

/-- The bits of a literal code: `2*w - 2`; the illegal prefix of five ones has been read after six bits (R76, R82). -/
def litBits (k : Nat) : Nat := if k = 5 then 6 else 2 * litWidth k - 2

/-- The bits of the length groups of `len` (R79). -/
def lengthBits (len : Nat) : Nat := 3 * ((len - 3) / 7 + 1)

/-- `WIDTH[rank >> 4]` (R77). -/
def widthOf (rank : Nat) : Nat := widthTable.getD (rank / 16) 8

/-- `LITCOST` (41 R150). -/
def litCost (rank : Nat) : Nat := 2 * widthOf rank - 2

/-- `OCOST(o)` (41 R152). -/
def offsetCost (o : Nat) : Nat := if o ≤ 32 then 8 else if o ≤ 1024 then 13 else 17

/-- `LCOST(l) = ⌈(l + 6) / 7⌉ * 3` (41 R152, 90_conflicts.md C5). -/
def lengthCost (l : Nat) : Nat := (l + 12) / 7 * 3

/-- `BRCOST` (41 R152). -/
def refCost (o l : Nat) : Nat := offsetCost o + lengthCost l

end Sys2Proof.Machine
end

