-- ==== Sys2Proof/Machine/Accessors.lean ====
section
/-! DEFINITION. The byte accessors of ROM and LABEL (43_rom_serializer.md R200 to R204). -/

namespace Sys2Proof.Machine

open Sys2Proof

/-- `ROM_READ` (R200). -/
def execRomRead (a : Nat) (s : State) : Step :=
  preamble (.romRead a) s fun s =>
    if romSize ≤ a then .next (raiseFault .romOor a s)
    else .next (respond (.byte (s.rom.read a)) s)

/-- `ROM_WRITE` (R201). -/
def execRomWrite (a v : Nat) (s : State) : Step :=
  preamble (.romWrite a v) s fun s =>
    if romSize ≤ a then .next (raiseFault .romOor a s)
    else .next (respond .done (romPut a (byteOf v) s))

/-- `LABEL_READ` (R202). -/
def execLabelRead (a : Nat) (s : State) : Step :=
  preamble (.labelRead a) s fun s =>
    if labelSize ≤ a then .next (raiseFault .labelOor a s)
    else .next (respond (.byte (s.label.read a)) s)

/-- `LABEL_WRITE` (R203). -/
def execLabelWrite (a v : Nat) (s : State) : Step :=
  preamble (.labelWrite a v) s fun s =>
    if labelSize ≤ a then .next (raiseFault .labelOor a s)
    else .next (respond .done (labelPut a (byteOf v) s))

/-- `ROM` and `LABEL` all 0x00 (R204, R210; 44 R235). -/
def zeroMemories (s : State) : State := { s with rom := [], label := [] }

/-- `ROM_CLEAR` (R204). -/
def execRomClear (s : State) : Step :=
  preamble .romClear s fun s => .next (respond .done { zeroMemories s with cacheValid := false })

end Sys2Proof.Machine
end

