-- ==== Sys2Proof/Machine/LegacyTokens.lean ====
section
/-! DEFINITION. The Legacy tokens (40_legacy_codec.md R102 to R104). -/

namespace Sys2Proof.Machine

open Sys2Proof

/-- `LIT` (R102): append the alphabet byte, `IP <- IP + 1`. -/
def execLit (code : Nat) (s : State) : Step :=
  inDecode .legacy (.lit code) s fun s => .next (advanceIp 1 (append (alphaOf s.cfg code) s))

/-- `ESC` (R103): append the raw byte, `IP <- IP + 2`; a missing second byte stops with `TRUNC`. -/
def execEsc (raw : Byte) (s : State) : Step :=
  inDecode .legacy (.esc raw) s fun s =>
    if s.inlen.toNat ≤ s.ip.toNat + 1 then .next (stop .trunc s)
    else .next (advanceIp 2 (append raw s))

/-- `BREF` (R104): `IP <- IP + 2`, then copy, or `CBR` for a corrupt reference; a missing second byte stops with `TRUNC`. -/
def execBref (offset len : Nat) (s : State) : Step :=
  inDecode .legacy (.bref offset len) s fun s =>
    if s.inlen.toNat ≤ s.ip.toNat + 1 then .next (stop .trunc s)
    else .next (reference offset len (advanceIp 2 s))

end Sys2Proof.Machine
end

