-- ==== Sys2Proof/Machine/ModernTokens.lean ====
section
/-! DEFINITION. The Modern tokens (41_modern_codec.md R141 to R147). -/

namespace Sys2Proof.Machine

open Sys2Proof

/-- A literal code whose bits are read (R141, R142): no rank, then `CLIT`; the byte 0, then `ENDMARK`; else append. -/
def literal (k v : Nat) (s : State) : State :=
  if k = 5 ∨ 255 < litRank k v then stop .clit s
  else
    let c := mtfByte s.mtf (litRank k v)
    let t := { s with mtf := mtfPromote s.mtf (litRank k v) }
    if c = 0#8 then stop .endmark t else append c t

/-- `MLIT` (R141). -/
def execMlit (k v : Nat) (s : State) : Step :=
  inDecode .modern (.mlit k v) s fun s => takeBits (litBits k) s fun s => .next (literal k v s)

/-- `MBREF.S` (R143): 3 bits of kind and prefix, 5 of offset, the length groups. -/
def execMbrefS (offset len : Nat) (s : State) : Step :=
  inDecode .modern (.mbrefS offset len) s fun s =>
    takeBits (8 + lengthBits len) s fun s => .next (reference offset len s)

/-- `MBREF.M` (R144): 3 bits, 10 of offset, the length groups; under `MODERN_RAW_ESCAPE` it is refused once ten zero offset
bits are there (R147; log 20). -/
def execMbrefM (offset len : Nat) (s : State) : Step :=
  inDecode .modern (.mbrefM offset len) s fun s =>
    if s.cfg.modernRawEscape ∧ offset = 1 ∧ s.bitpos.toNat + 13 ≤ 8 * s.inlen.toNat then .refused .rawEscape
    else takeBits (13 + lengthBits len) s fun s => .next (reference offset len s)

/-- `MBREF.L` (R145): 2 bits, 15 of offset, the length groups. -/
def execMbrefL (offset len : Nat) (s : State) : Step :=
  inDecode .modern (.mbrefL offset len) s fun s =>
    takeBits (17 + lengthBits len) s fun s => .next (reference offset len s)

end Sys2Proof.Machine
end

