-- ==== Sys2Proof/Machine/Fetch.lean ====
section
/-! DEFINITION. Opening a decode (40_legacy_codec.md R100, 41_modern_codec.md R130, 42_detect_and_best.md R172), fetching what
the engine does next (R101, R139, R172; commands 30_encoding.md R84), ending a decode (40 R106, R107; 41 R140; 42 R170, R174),
and placing an opcode-table word where the next fetch reads it. -/

namespace Sys2Proof.Machine

open Sys2Proof

/-! ## Detection and set-up -/

/-- The buffer starts with a magic of four bytes (42 R171). -/
def hasMagic (magic buf : ByteString) : Bool := (buf.take 4).length == 4 && buf.take 4 == magic

/-- `Detect(B)` (42 R171). -/
def detect (c : Config) (buf : ByteString) : Form :=
  if hasMagic c.legacyMagic buf then .legacy
  else if hasMagic c.modernMagic buf then .modern
  else .raw

/-- `BE16(B, i)` (00 R8). -/
def be16At (buf : ByteString) (i : Nat) : Nat := be16 (buf[i]?.getD 0#8) (buf[i + 1]?.getD 0#8)

/-- The common part of the three set-ups: the input is `buf` and `OUT` is empty. -/
def openBuffer (form : Form) (origin : Origin) (buf : ByteString) (s : State) : State :=
  { s with inbuf := buf, out := [], outlen := 0#16, stage := .decoding form origin }

/-- Legacy decode set-up (40 R100). -/
def openLegacy (origin : Origin) (buf : ByteString) (s : State) : State :=
  let t := { openBuffer .legacy origin buf s with inlen := word16Of buf.length }
  if buf.length < hdrSize then stop .trunc { t with declen := 0#16 }
  else { t with declen := word16Of (be16At buf 4), ip := 8#16 }

/-- Modern decode set-up (41 R130). -/
def openModern (origin : Origin) (buf : ByteString) (s : State) : State :=
  let t := openBuffer .modern origin buf s
  if buf.length < hdrSize then stop .trunc { t with declen := 0#16 }
  else
    mtfInit { t with
      declen := word16Of (be16At buf 4)
      inlen := word16Of (min (be16At buf 6) buf.length - hdrSize)
      bitpos := 0#19 }

/-- Raw decode set-up (42 R172). -/
def openRaw (origin : Origin) (buf : ByteString) (s : State) : State :=
  { openBuffer .raw origin buf s with
    inlen := word16Of buf.length
    declen := word16Of buf.length
    ip := 0#16 }

/-- The set-up of a form. -/
def openDecode (form : Form) (origin : Origin) (buf : ByteString) (s : State) : State :=
  match form with
  | .legacy => openLegacy origin buf s
  | .modern => openModern origin buf s
  | .raw => openRaw origin buf s

/-! ## Fetching -/

/-- What the engine does next: run an instruction in a state, do a step that runs none, or refuse. -/
inductive Fetch where
  | run (i : Instr) (s : State)
  | act (s : State)
  | refuse (r : Refusal)
deriving DecidableEq, Repr

/-- The bytes of the Legacy stream from `IP` to the input budget. -/
def legacyAhead (s : State) : ByteString := (s.inbuf.take s.inlen.toNat).drop s.ip.toNat

/-- The bits of the Modern body from `BITPOS` to the input budget (41 R131). -/
def modernAhead (s : State) : List Bool :=
  (bitsOf ((((s.inbuf.drop hdrSize).take s.inlen.toNat)).drop (s.bitpos.toNat / 8))).drop (s.bitpos.toNat % 8)

/-- The ten zero offset bits of `MBREF.M` stand ahead (41 R144). -/
def escapeAhead (bits : List Bool) : Bool :=
  bits.take 13 == [false, true, false] ++ List.replicate 10 false

/-- The next Legacy token (40 R101); a token cut short stops with `TRUNC`. -/
def fetchLegacy (s : State) : Fetch :=
  match decodeLegacy (legacyAhead s) with
  | .ok (i, _) => .run i s
  | .error _ => .act (stop .trunc s)

/-- The next Modern token (41 R139); a token cut short stops with `TRUNC`, all bits of the budget read (41 R131). -/
def fetchModern (s : State) : Fetch :=
  if s.cfg.modernRawEscape ∧ escapeAhead (modernAhead s) then .refuse .rawEscape
  else
    match decodeModern (modernAhead s) with
    | .ok (i, _) => .run i s
    | .error _ => .act (stop .trunc { s with bitpos := bitIndexOf (max s.bitpos.toNat (8 * s.inlen.toNat)) })

/-- One byte of a Raw decode (42 R172). -/
def rawStep (s : State) : State :=
  if s.ip.toNat < s.inlen.toNat then
    match s.inbuf[s.ip.toNat]? with
    | none => endLoop s
    | some b => if b = 0#8 then endLoop s else advanceIp 1 (append b s)
  else endLoop s

/-- The head of the decode loop (40 R101, 41 R139): no token once `OUTLEN = DECLEN`. -/
def fetchToken (form : Form) (s : State) : Fetch :=
  match form with
  | .raw => .act (rawStep s)
  | .legacy => if s.outlen.toNat < s.declen.toNat then fetchLegacy s else .act (endLoop s)
  | .modern => if s.outlen.toNat < s.declen.toNat then fetchModern s else .act (endLoop s)

/-- The refusal of a command message that decodes to no instruction (60 R266). -/
def refusalOf : DecodeError → Refusal
  | .reservedCode c => .reservedCode c
  | .badSource b => .badSource b
  | .truncated => .operandWidth
  | .missingOperand => .operandWidth
  | .extraBytes => .operandWidth

/-- The next host command (30 R84); every command is refused while faulted (60 R266). -/
def fetchCommand (msg : ByteString) (s : State) : Fetch :=
  if s.faulted then .refuse .faulted
  else
    match decodeCommand msg with
    | .ok i => .run i s
    | .error e => .refuse (refusalOf e)

/-! ## Ending a decode -/

/-- Delete the first occurrence of a byte string. -/
def deleteFirst (p : ByteString) : ByteString → ByteString
  | [] => []
  | b :: bs => if p.isPrefixOf (b :: bs) then (b :: bs).drop p.length else b :: deleteFirst p bs

/-- A byte string occurs in another. -/
def occurs (p : ByteString) : ByteString → Bool
  | [] => p == []
  | b :: bs => p.isPrefixOf (b :: bs) || occurs p bs

/-- Legacy post-processing (40 R106): the first occurrence of a non-empty `LEGACY_COMPAT_SNIPPET` is deleted and `OUTLEN`
reduced by its length. -/
def dropSnippet (s : State) : State :=
  if s.cfg.compatSnippet ≠ [] ∧ occurs s.cfg.compatSnippet s.out then
    { s with
      out := deleteFirst s.cfg.compatSnippet s.out
      outlen := s.outlen - word16Of s.cfg.compatSnippet.length }
  else s

/-- What follows the loop of a form (40 R106; nothing for Modern and Raw, 41 R140). -/
def postProcess (form : Form) (s : State) : State :=
  match form with
  | .legacy => dropSnippet s
  | .modern => s
  | .raw => s

/-- The cache takes a decoded region (42 R174); a host buffer leaves it alone. -/
def fillCache (origin : Origin) (s : State) : State :=
  match origin with
  | .region => { s with cache := s.out, cacheValid := true }
  | .host => s

/-- The end of a `DECOMPRESS` (42 R170): post-processing, the cache, the result. -/
def finishDecode (form : Form) (origin : Origin) (s : State) : State :=
  let t := fillCache origin (postProcess form s)
  respond (.decoded t.out t.mode t.status) { t with stage := .idle }

/-- What the engine does next in each stage. With nothing pending it waits (R290; log 6). -/
def fetch (s : State) : Fetch :=
  match s.stage with
  | .decoding form _ => fetchToken form s
  | .ended form origin => .act (finishDecode form origin s)
  | .idle =>
    match s.port with
    | [] => .act s
    | .reset :: rest => .act (hostReset { s with port := rest })
    | .command msg :: rest => fetchCommand msg { s with port := rest }

/-! ## Placing a word -/

/-- A host message becomes the next event of an idle engine. -/
def placeCommand (msg : ByteString) (s : State) : State :=
  { s with port := .command msg :: s.port, stage := .idle }

/-- A decode of a host buffer is opened on a body: the state `DECOMPRESS(HOST(C))` leaves after its set-up, with the largest
declared length (log 7). -/
def placeTokens (form : Form) (body : ByteString) (s : State) : State :=
  let magic := match form with
    | .modern => s.cfg.modernMagic
    | .legacy => s.cfg.legacyMagic
    | .raw => s.cfg.legacyMagic
  let count := match form with
    | .modern => be16Bytes (hdrSize + body.length)
    | .legacy => [0#8, 0#8]
    | .raw => [0#8, 0#8]
  openDecode form .host (magic ++ be16Bytes bufferMax ++ count ++ body) { s with mode := form.mode }

/-- An opcode-table word where the next fetch reads it: a command message in the port, or the first token of an opened
decode (log 7, log 8). Operand bytes and bits above the word are 0. -/
def placeWord (nbits w : Nat) (s : State) : State :=
  match tableStream nbits w with
  | .command => placeCommand (tableMessage nbits w) s
  | .legacy => placeTokens .legacy (tableBytes nbits w) s
  | .modern => placeTokens .modern (tableBytes nbits w ++ List.replicate 4 0#8) s

end Sys2Proof.Machine
end

