-- ==== Sys2Proof/Machine/Decoder.lean ====
section
/-! DEFINITION. The decode loop as one operation: the same fetch and the same token meanings the single step uses, repeated
until the loop stops (40_legacy_codec.md R101, 41_modern_codec.md R139, 42_detect_and_best.md R172). -/

namespace Sys2Proof.Machine

open Sys2Proof

/-- The meaning of a token; a command is no token. -/
def runToken (i : Instr) (s : State) : Step :=
  match i with
  | .lit code => execLit code s
  | .esc raw => execEsc raw s
  | .bref offset len => execBref offset len s
  | .mlit k v => execMlit k v s
  | .mbrefS offset len => execMbrefS offset len s
  | .mbrefM offset len => execMbrefM offset len s
  | .mbrefL offset len => execMbrefL offset len s
  | .decompress _ => .fault .noDecode
  | .compressLegacy _ => .fault .noDecode
  | .compressModern _ => .fault .noDecode
  | .compressBest _ => .fault .noDecode
  | .romRead _ => .fault .noDecode
  | .romWrite _ _ => .fault .noDecode
  | .labelRead _ => .fault .noDecode
  | .labelWrite _ _ => .fault .noDecode
  | .romClear => .fault .noDecode
  | .binAssemble _ => .fault .noDecode
  | .pngUnpack _ _ _ => .fault .noDecode
  | .pngPack _ _ _ _ => .fault .noDecode
  | .textParse _ => .fault .noDecode
  | .textSerialize _ => .fault .noDecode

/-- One iteration of the decode loop. -/
def decodeStep (form : Form) (s : State) : Step :=
  match fetchToken form s with
  | .run i t => runToken i t
  | .act t => .next t
  | .refuse r => .refused r

/-- The decode loop, at most so many iterations. -/
def decodeLoop : Nat → State → Step
  | 0, s => .next s
  | n + 1, s =>
    match s.stage with
    | .decoding form _ => andThen (decodeStep form s) (decodeLoop n)
    | .idle => .next s
    | .ended _ _ => .next s

/-- Enough iterations for any input: every iteration but the last consumes a byte or a bit of the budget (70 R299; log 19). -/
def loopBound (s : State) : Nat := 8 * s.inlen.toNat + 2

/-- Set-up, then the loop to its end. -/
def decodeBuffer (form : Form) (origin : Origin) (buf : ByteString) (s : State) : Step :=
  let t := openDecode form origin buf s
  decodeLoop (loopBound t) t

/-- The end of a `DECOMPRESS`, from the state the loop leaves. -/
def closeDecode (s : State) : State :=
  match s.stage with
  | .ended form origin => finishDecode form origin s
  | .idle => s
  | .decoding _ _ => s

/-- "The decode steps of rules R170 to R173 on REGION" inside another command (43 R207, 44 R244): the detected form is a
command-local copy, so `MODE` stays, nothing is returned and the cache is the caller's (log 15). -/
def decodeRegion (s : State) : Step :=
  let buf := codeRegion s
  let form := detect s.cfg buf
  andThen (decodeBuffer form .region buf s) fun t => .next { postProcess form t with stage := s.stage }

end Sys2Proof.Machine
end

