-- ==== Sys2Proof/Machine/Asm.lean ====
section
/-! DEFINITION. Token streams put together: the headers (30_encoding.md R66, R67), the bit writer's flush
(41_modern_codec.md R135), the assembler's directives and pseudo-instructions (30 R85, R86). The encoders use them. -/

namespace Sys2Proof.Machine

open Sys2Proof

/-- The Legacy header with declared length `n` (R66; the directive `.legacy n` of R85). -/
def legacyHeader (c : Config) (n : Nat) : ByteString := c.legacyMagic ++ be16Bytes n ++ [0#8, 0#8]

/-- `Flush()`: bits to bytes, the last byte padded with 0 bits (41 R135). -/
def flushBits (bits : List Bool) : ByteString :=
  (List.range' 0 ((bits.length + 7) / 8)).map fun j => byteOf (natOfBits ((bits.drop (8 * j)).take 8))

/-- A Modern buffer: header with declared length `n` and the whole buffer's length, then the flushed body (R67; 41 R156; the
directive `.modern n` of R85). -/
def modernBuffer (c : Config) (n : Nat) (bits : List Bool) : ByteString :=
  let body := flushBits bits
  c.modernMagic ++ be16Bytes n ++ be16Bytes (hdrSize + body.length) ++ body

/-- A Legacy program with declared length `n` (R85). -/
def asmLegacy (c : Config) (n : Nat) (tokens : List Instr) : ByteString :=
  legacyHeader c n ++ tokens.flatMap encodeLegacy

/-- A Modern program with declared length `n` (R85). -/
def asmModern (c : Config) (n : Nat) (tokens : List Instr) : ByteString :=
  modernBuffer c n (tokens.flatMap encodeModern)

/-- The literal token of a byte: `LIT` when the alphabet has it, else `ESC` (R86). -/
def litOrEsc (c : Config) (b : Byte) : Instr := if codeOf c b ≠ 0 then .lit (codeOf c b) else .esc b

/-- `LITS "text"` (R86). -/
def asmLits (c : Config) (text : ByteString) : List Instr := text.map (litOrEsc c)

/-- `MLIT #rank`: the literal code that spells a rank (R85; 41 R154). -/
def mlitOfRank (rank : Nat) : Instr := .mlit (widthOf rank - 4) (rank + 16 - 2 ^ widthOf rank)

/-- `MLITB 'c'`: the literal of a byte in the list the assembler tracks, and the list after it (R86). -/
def asmMlitb (mtf : ByteString) (c : Byte) : Instr × ByteString :=
  (mlitOfRank (mtfRank mtf c), mtfPromote mtf (mtfRank mtf c))

/-- `MBREF offset, len`: the narrowest form (R86; 41 R155). -/
def asmMbref (offset len : Nat) : Instr :=
  if offset ≤ 32 then .mbrefS offset len
  else if offset ≤ 1024 then .mbrefM offset len
  else .mbrefL offset len

/-- `MEND`: the end marker (R86, R82 (c)). -/
def asmMend (mtf : ByteString) : Instr × ByteString := asmMlitb mtf 0#8

end Sys2Proof.Machine
end

