-- ==== Sys2Proof/Machine/LegacyEncoder.lean ====
section
/-! DEFINITION. The Legacy encoder (40_legacy_codec.md R108 to R114) and the match scan both encoders share. -/

namespace Sys2Proof.Machine

open Sys2Proof

/-- How many leading bytes of two strings agree, at most `cap` (40 R110, 41 R151). -/
def matchLen : Nat → ByteString → ByteString → Nat
  | 0, _, _ => 0
  | _ + 1, [], _ => 0
  | _ + 1, _ :: _, [] => 0
  | cap + 1, a :: as, b :: bs => if a = b then matchLen cap as bs + 1 else 0

/-- The scan over candidate offsets, nearest first: `(BEST_LEN, BEST_OFF)`, replaced only by a strictly longer match
(40 R110, R111; 41 R151). -/
def bestMatch (lenAt : Nat → Nat) : List Nat → Nat × Nat → Nat × Nat
  | [], best => best
  | o :: os, best => bestMatch lenAt os (if best.1 < lenAt o then (lenAt o, o) else best)

/-- The Legacy match search at `pos` (40 R110): at most 3135 back, at most 17 long, never past the current position. -/
def legacySearch (src : ByteString) (pos : Nat) : Nat × Nat :=
  bestMatch (fun o => matchLen (min legMaxLen o) (src.drop (pos - o)) (src.drop pos))
    (List.range' 1 (min pos legWindow)) (0, 0)

/-- The Legacy token choice at `pos`, where the byte `c` stands (40 R112), and how far it advances. -/
def legacyChoice (cfg : Config) (src : ByteString) (pos : Nat) (c : Byte) : Instr × Nat :=
  let best := legacySearch src pos
  if 2 ≤ best.1 ∧ (2 < best.1 ∨ codeOf cfg c = 0) then (.bref best.2 best.1, best.1)
  else (litOrEsc cfg c, 1)

/-- The tokens of a source from `pos` on (40 R112, R114); the first argument bounds their number. -/
def legacyTokens (cfg : Config) (src : ByteString) : Nat → Nat → List Instr
  | 0, _ => []
  | n + 1, pos =>
    match src[pos]? with
    | none => []
    | some c =>
      let t := legacyChoice cfg src pos c
      t.1 :: legacyTokens cfg src n (pos + t.2)

/-- The Legacy buffer of a source (40 R109, R113, R114). -/
def legacyEncode (cfg : Config) (src : ByteString) : ByteString :=
  asmLegacy cfg src.length (legacyTokens cfg src src.length 0)

end Sys2Proof.Machine
end

