-- ==== Sys2Proof/Machine/ModernEncoder.lean ====
section
/-! DEFINITION. The Modern encoder (41_modern_codec.md R148 to R156). -/

namespace Sys2Proof.Machine

open Sys2Proof

/-- The Modern match search at `pos` (R151): at most 32768 back, overlap allowed, capped by the end of the source. -/
def modernSearch (src : ByteString) (pos : Nat) : Nat × Nat :=
  bestMatch (fun o => matchLen src.length (src.drop (pos - o)) (src.drop pos))
    (List.range' 1 (min pos modWindow)) (0, 0)

/-- The Modern choice at `pos`, where the byte `c` stands, with list `mtf` (R150, R152, R153): the token, how far it
advances, and the list after it (R154, R155). -/
def modernChoice (src : ByteString) (pos : Nat) (mtf : ByteString) (c : Byte) : Instr × Nat × ByteString :=
  let best := modernSearch src pos
  if 3 ≤ best.1 ∧ refCost best.2 best.1 < litCost (mtfRank mtf c) * best.1 then
    (asmMbref best.2 best.1, best.1, mtf)
  else ((asmMlitb mtf c).1, 1, (asmMlitb mtf c).2)

/-- The tokens of a source from `pos` on and the list at the end; the first argument bounds their number. -/
def modernTokens (src : ByteString) : Nat → Nat → ByteString → List Instr × ByteString
  | 0, _, mtf => ([], mtf)
  | n + 1, pos, mtf =>
    match src[pos]? with
    | none => ([], mtf)
    | some c =>
      let t := modernChoice src pos mtf c
      let rest := modernTokens src n (pos + t.2.1) t.2.2
      (t.1 :: rest.1, rest.2)

/-- The Modern buffer of a source and the list its encoding leaves (R149, R156). -/
def modernEncode (cfg : Config) (src : ByteString) : ByteString × ByteString :=
  let t := modernTokens src src.length 0 identityMtf
  (asmModern cfg src.length t.1, t.2)

end Sys2Proof.Machine
end

