-- ==== Sys2Proof/Machine/CodecCommands.lean ====
section
/-! DEFINITION. The codec commands (42_detect_and_best.md R170, R175 to R177). -/

namespace Sys2Proof.Machine

open Sys2Proof

/-- The buffer and origin a source operand names (R170). -/
def sourceBuffer (src : Source) (s : State) : Origin × ByteString :=
  match src with
  | .region => (.region, codeRegion s)
  | .host c => (.host, c)

/-- `MODE <- Detect(INBUF)`, then the set-up of that form: the state in which a `DECOMPRESS` starts its loop (R170). -/
def beginDecompress (src : Source) (s : State) : State :=
  let b := sourceBuffer src s
  let form := detect s.cfg b.2
  openDecode form b.1 b.2 { s with mode := form.mode }

/-- `DECOMPRESS` (R170). -/
def execDecompress (src : Source) (s : State) : Step :=
  preamble (.decompress src) s fun s =>
    let t := beginDecompress src s
    andThen (decodeLoop (loopBound t) t) fun t => .next (closeDecode t)

/-- `STATUS.OCO` for a returned buffer (R175 to R177; 60 R264). -/
def flagOversize (code : ByteString) (s : State) : State := setFlagIf (codeCap < code.length) .oco s

/-- The state after the Legacy encoder: it writes `OUT` (10 R26, 20 R45, 40 R109 to R113) and its working registers (log 11, log 13). -/
def afterLegacyEncode (src : ByteString) (s : State) : State :=
  scrambleEncoder { s with out := legacyEncode s.cfg src }

/-- The state after the Modern encoder: it writes `OUT`, the output of the encode (10 R26, 20 R45, 41 R156), `MTF` (41 R149,
R154) and its working registers (log 11, log 13). -/
def afterModernEncode (src : ByteString) (s : State) : State :=
  scrambleEncoder { s with out := (modernEncode s.cfg src).1, mtf := (modernEncode s.cfg src).2 }

/-- `COMPRESS_LEGACY` (R175). -/
def execCompressLegacy (src : ByteString) (s : State) : Step :=
  preamble (.compressLegacy src) s fun s =>
    if sMax < src.length then .refused .sourceTooLong
    else
      let code := legacyEncode s.cfg src
      let t := flagOversize code { afterLegacyEncode src s with mode := .legacy }
      .next (respond (.compressed code t.status) t)

/-- `COMPRESS_MODERN` (R176). -/
def execCompressModern (src : ByteString) (s : State) : Step :=
  preamble (.compressModern src) s fun s =>
    if sMax < src.length then .refused .sourceTooLong
    else if 0#8 ∈ src then .refused .sourceHasZero
    else
      let code := (modernEncode s.cfg src).1
      let t := flagOversize code { afterModernEncode src s with mode := .modern }
      .next (respond (.compressed code t.status) t)

/-- The chooser (R177): the shorter buffer, a tie keeps Legacy. -/
def chooseBest (cfg : Config) (src : ByteString) : Form × ByteString :=
  let cl := legacyEncode cfg src
  let cm := (modernEncode cfg src).1
  if cm.length < cl.length then (.modern, cm) else (.legacy, cl)

/-- The state after both encoders have run, the Modern one last (R177; log 14). -/
def afterBothEncoders (src : ByteString) (s : State) : State :=
  afterModernEncode src (afterLegacyEncode src s)

/-- `COMPRESS_BEST` (R177). -/
def execCompressBest (src : ByteString) (s : State) : Step :=
  preamble (.compressBest src) s fun s =>
    if sMax < src.length then .refused .sourceTooLong
    else if 0#8 ∈ src then .refused .sourceHasZero
    else
      let best := chooseBest s.cfg src
      let t := flagOversize best.2 { afterBothEncoders src s with mode := best.1.mode }
      .next (respond (.best best.2 t.mode t.status) t)

end Sys2Proof.Machine
end

