-- ==== Sys2Proof/Machine/BinCommands.lean ====
section
/-! DEFINITION. `BIN_ASSEMBLE` and the source both exporters use (43_rom_serializer.md R207; 44_text_sections.md R244). -/

namespace Sys2Proof.Machine

open Sys2Proof

/-- The source text an exporter works on: the valid cache, else the decode of the region, whose flags accumulate (R207). -/
def withSource (s : State) (k : ByteString → State → Step) : Step :=
  if s.cacheValid then k s.cache s else andThen (decodeRegion s) fun t => k t.out t

/-- `CACHE <- S; CACHE_VALID <- 1` (42 R174). -/
def keepSource (src : ByteString) (s : State) : State := { s with cache := src, cacheValid := true }

/-- The `.bin` image: ROM up to the code region, the compressed buffer with its own header, the version (R207, C9). -/
def binImage (s : State) (code : ByteString) (ver : Nat) : ByteString :=
  s.rom.slice 0 codeBase ++ code ++ [byteOf ver]

/-- The second half of `BIN_ASSEMBLE`: the refusals, the cache, both encoders, the image (R207). -/
def assembleBin (ver : Nat) (src : ByteString) (s : State) : Step :=
  if sMax < src.length then .refused .sourceTooLong
  else if 0#8 ∈ src then .refused .sourceHasZero
  else
    let best := chooseBest s.cfg src
    let t := flagOversize best.2 (afterBothEncoders src (keepSource src s))
    .next (respond (.image (binImage t best.2 ver) t.status) t)

/-- `BIN_ASSEMBLE` (R207). `MODE` is not written. -/
def execBinAssemble (ver : Nat) (s : State) : Step :=
  preamble (.binAssemble ver) s fun s => withSource s (assembleBin ver)

end Sys2Proof.Machine
end

