-- ==== Sys2Proof/Machine/Views.lean ====
section
/-! DEFINITION. The typed views of the ROM fields (43_rom_serializer.md R205, R206, R220, R221): all read the one flat array,
so the gfx and map2 views share their bytes (20_memory.md R47). -/

namespace Sys2Proof.Machine

open Sys2Proof

/-- Offsets of the ROM fields (20 R46). -/
def gfxBase : Nat := 0x0000
/-- map2, the second half of gfx (20 R46, R47). -/
def map2Base : Nat := 0x1000
/-- map (20 R46). -/
def mapBase : Nat := 0x2000
/-- sprite flags (20 R46). -/
def flagsBase : Nat := 0x3000
/-- song table (20 R46). -/
def songBase : Nat := 0x3100
/-- sfx table (20 R46). -/
def sfxBase : Nat := 0x3200

/-- Nibble `x & 1` of a byte: low for the even, left pixel (R206). -/
def pixelNibble (b : Byte) (x : Nat) : BitVec 4 := if x % 2 = 0 then b.extractLsb' 0 4 else b.extractLsb' 4 4

/-- gfx pixel `(x, y)` (R205). -/
def gfxPixel (s : State) (x y : Nat) : BitVec 4 := pixelNibble (s.rom.read (gfxBase + y * 64 + x / 2)) x

/-- Label pixel `(x, y)` (R208). -/
def labelPixel (m : Memory) (x y : Nat) : BitVec 4 := pixelNibble (m.read (y * 64 + x / 2)) x

/-- Map tile `(tx, ty)`: rows 32 to 63 are map2 (R205). -/
def mapTile (s : State) (tx ty : Nat) : Byte :=
  if ty < 32 then s.rom.read (mapBase + ty * 128 + tx) else s.rom.read (map2Base + (ty - 32) * 128 + tx)

/-- The flags byte of a sprite (R205). -/
def spriteFlags (s : State) (n : Nat) : Byte := s.rom.read (flagsBase + n)

/-- Song entry `e`, 4 bytes (R205, R220). -/
def songEntry (s : State) (e : Nat) : ByteString := s.rom.slice (songBase + 4 * e) 4

/-- The channel reference of channel `k` of a song entry (R220). -/
def songChannel (s : State) (e k : Nat) : BitVec 7 := (s.rom.read (songBase + 4 * e + k)).extractLsb' 0 7

/-- Flag `k` of a song entry (R220). -/
def songFlag (s : State) (e k : Nat) : Bool := (s.rom.read (songBase + 4 * e + k)).getLsbD 7

/-- Sfx entry `e`, 68 bytes (R205, R221). -/
def sfxEntry (s : State) (e : Nat) : ByteString := s.rom.slice (sfxBase + 68 * e) 68

/-- Note `n` of an sfx entry as a 16-bit little-endian word (R221; 20 R49). -/
def noteWord (s : State) (e n : Nat) : Word16 :=
  s.rom.read (sfxBase + 68 * e + 2 * n + 1) ++ s.rom.read (sfxBase + 68 * e + 2 * n)

/-- The pitch field of a note (R221). -/
def notePitch (w : Word16) : BitVec 6 := w.extractLsb' 0 6
/-- The instrument field of a note (R221). -/
def noteInstrument (w : Word16) : BitVec 3 := w.extractLsb' 6 3
/-- The volume field of a note (R221). -/
def noteVolume (w : Word16) : BitVec 3 := w.extractLsb' 9 3
/-- The effect field of a note (R221). -/
def noteEffect (w : Word16) : BitVec 4 := w.extractLsb' 12 4

/-- Meta byte `j` of an sfx entry (R221). -/
def sfxMeta (s : State) (e j : Nat) : Byte := s.rom.read (sfxBase + 68 * e + 64 + j)

end Sys2Proof.Machine
end

