-- ==== Sys2Proof/Machine/PngCommands.lean ====
section
/-! DEFINITION. The PNG payload packer (43_rom_serializer.md R208 to R217). A pixel buffer is read as its pixels in raster
order, four bytes r, g, b, a each (20_memory.md R52). -/

namespace Sys2Proof.Machine

open Sys2Proof

/-- One RGBA8 pixel (20 R52). -/
structure Pixel where
  r : Byte
  g : Byte
  b : Byte
  a : Byte
deriving DecidableEq, Repr

/-- The pixels of a buffer: pixel `i` is bytes `4*i` to `4*i + 3` (20 R52). -/
def toPixels : ByteString → List Pixel
  | r :: g :: b :: a :: rest => ⟨r, g, b, a⟩ :: toPixels rest
  | _ => []

/-- The bytes of pixels, in the same order. -/
def ofPixels : List Pixel → ByteString
  | [] => []
  | p :: ps => p.r :: p.g :: p.b :: p.a :: ofPixels ps

/-- How many pixels a payload takes: the ROM image and the version byte (R209). -/
def payloadPixels : Nat := 0x8001

/-- The label's width and height (R208). -/
def labelSide : Nat := 128

/-- The label rectangle fits a buffer (R208). -/
def labelFits (c : Config) (w h : Nat) : Bool := c.labelX + labelSide ≤ w && c.labelY + labelSide ≤ h

/-- `PixByte`: the low two bits of a, r, g, b, high to low (R210). -/
def pixByte (p : Pixel) : Byte :=
  ((p.a &&& 3#8) <<< 6) ||| ((p.r &&& 3#8) <<< 4) ||| ((p.g &&& 3#8) <<< 2) ||| (p.b &&& 3#8)

/-- The payload byte of pixel `i` (R210, R211). -/
def payloadAt (px : List Pixel) (i : Nat) : Byte :=
  match px[i]? with
  | some p => pixByte p
  | none => Config.strayByte i

/-! ## Nearest colour -/

/-- The square of the difference of two channels. -/
def channelDist (x y : Byte) : Nat := ((x.toNat - y.toNat) + (y.toNat - x.toNat)) ^ 2

/-- Squared Euclidean distance in RGB space (R216). -/
def colourDist (r g b : Byte) (c : Rgb) : Nat := channelDist r c.r + channelDist g c.g + channelDist b c.b

/-- The scan of a palette from index `i`, keeping `(index, distance)` of the first closest colour. -/
def nearestFrom (r g b : Byte) : List Rgb → Nat → Nat × Nat → Nat × Nat
  | [], _, best => best
  | c :: cs, i, best =>
    nearestFrom r g b cs (i + 1) (if colourDist r g b c < best.2 then (i, colourDist r g b c) else best)

/-- `Nearest(r, g, b)`: the index of the closest colour, the lowest on a tie (R216). No distance reaches `2^18`. -/
def nearest (pal : List Rgb) (r g b : Byte) : Nat := (nearestFrom r g b pal 0 (0, 2 ^ 18)).1

/-! ## Unpacking -/

/-- Two pixel values a byte, the left one in the low nibble (R206, R212). -/
def packNibbles : List Nat → ByteString
  | l :: r :: rest => byteOf (l ||| (r <<< 4)) :: packNibbles rest
  | _ => []

/-- Row `y` of the label rectangle as 64 label bytes (R208, R212). -/
def labelRow (c : Config) (w : Nat) (px : List Pixel) (y : Nat) : ByteString :=
  packNibbles (((px.drop ((c.labelY + y) * w + c.labelX)).take labelSide).map fun p => nearest c.palette p.r p.g p.b)

/-- The label decoded from the rectangle (R212); all zero when the rectangle does not fit. -/
def unpackLabel (c : Config) (w h : Nat) (px : List Pixel) : Memory :=
  if labelFits c w h then Memory.ofBytes 0 ((List.range labelSide).flatMap (labelRow c w px)) else []

/-- The ROM decoded from the payload (R210). -/
def unpackRom (px : List Pixel) : Memory := Memory.ofBytes 0 ((px.take romSize).map pixByte)

/-- `PNG_UNPACK` (R209 to R212). -/
def execPngUnpack (w h : Nat) (p : ByteString) (s : State) : Step :=
  preamble (.pngUnpack w h p) s fun s =>
    if p.length ≠ 4 * w * h then .refused .pixelBufferLength
    else if w * h < payloadPixels then
      let t := setFlag .fnr s
      .next (respond (.failed t.status) t)
    else
      let px := toPixels p
      let t := { s with rom := unpackRom px, label := unpackLabel s.cfg w h px, cacheValid := false }
      .next (respond (.unpacked (payloadAt px romSize) t.status) t)

/-! ## Packing -/

/-- A palette colour (R215). -/
def paletteColour (c : Config) (i : Nat) : Rgb :=
  c.palette[i]?.getD ⟨Config.strayByte i, Config.strayByte (i + 1), Config.strayByte (i + 2)⟩

/-- The label write at pixel index `i` (R214): inside the rectangle the nibble's palette colour with alpha 0xff. -/
def labelWriteAt (s : State) (w i : Nat) (p : Pixel) : Pixel :=
  let y := i / w
  let x := i % w
  if s.cfg.labelY ≤ y ∧ y < s.cfg.labelY + labelSide ∧ s.cfg.labelX ≤ x ∧ x < s.cfg.labelX + labelSide then
    let c := paletteColour s.cfg (labelPixel s.label (x - s.cfg.labelX) (y - s.cfg.labelY)).toNat
    ⟨c.r, c.g, c.b, 0xff#8⟩
  else p

/-- The low two bits of each channel replaced by a payload byte's (R217). -/
def embedByte (v : Byte) (p : Pixel) : Pixel where
  a := (p.a &&& 0xfc#8) ||| ((v >>> 6) &&& 3#8)
  r := (p.r &&& 0xfc#8) ||| ((v >>> 4) &&& 3#8)
  g := (p.g &&& 0xfc#8) ||| ((v >>> 2) &&& 3#8)
  b := (p.b &&& 0xfc#8) ||| (v &&& 3#8)

/-- The payload byte for pixel index `i` of a packing (R217). -/
def packByte (s : State) (ver i : Nat) : Byte := if i < romSize then s.rom.read i else byteOf ver

/-- One pixel of `P'`: the label first, then the payload (R214, R217; 70 R297). -/
def packPixel (s : State) (w h ver i : Nat) (p : Pixel) : Pixel :=
  let q := if labelFits s.cfg w h then labelWriteAt s w i p else p
  if i < payloadPixels then embedByte (packByte s ver i) q else q

/-- A function of index and pixel applied to pixels counted from `i`. -/
def mapPixels (f : Nat → Pixel → Pixel) : Nat → List Pixel → List Pixel
  | _, [] => []
  | i, p :: ps => f i p :: mapPixels f (i + 1) ps

/-- The packed buffer `P'` (R213, R214, R217). -/
def packPixels (s : State) (w h : Nat) (p : ByteString) (ver : Nat) : ByteString :=
  ofPixels (mapPixels (packPixel s w h ver) 0 (toPixels p))

/-- `PNG_PACK` (R213, R214, R217). It writes no state but `STATUS`. -/
def execPngPack (w h : Nat) (p : ByteString) (ver : Nat) (s : State) : Step :=
  preamble (.pngPack w h p ver) s fun s =>
    if p.length ≠ 4 * w * h then .refused .pixelBufferLength
    else if w * h < payloadPixels then
      let t := setFlag .fnr s
      .next (respond (.failed t.status) t)
    else .next (respond (.packed (packPixels s w h p ver) s.status) s)

end Sys2Proof.Machine
end

