-- ==== Sys2Proof/Machine/TextCommands.lean ====
section
/-! DEFINITION. The text-section codec (44_text_sections.md R230 to R253). -/

namespace Sys2Proof.Machine

open Sys2Proof

/-! ## Lines and sections -/

/-- The lines of a text in order, each with its 0x0a where it has one (R231). -/
def rawLines : ByteString → List ByteString
  | [] => []
  | b :: bs =>
    if b = 0x0a#8 then [b] :: rawLines bs
    else
      match rawLines bs with
      | [] => [[b]]
      | l :: ls => (b :: l) :: ls

/-- A byte string without its last byte, when that is `b`. -/
def dropLast1 (b : Byte) (l : ByteString) : ByteString := if l.getLast? = some b then l.dropLast else l

/-- What a line is compared as: without its 0x0a and one trailing 0x0d (R231). -/
def lineText (line : ByteString) : ByteString := dropLast1 0x0d#8 (dropLast1 0x0a#8 line)

/-- The kinds of section (R234). -/
inductive SectionKind where
  | code
  | graphics
  | flags
  | map
  | sound
  | music
  | label
deriving DecidableEq, Repr

/-- The section whose marker a line is (R234). -/
def markerOf (c : Config) (line : ByteString) : Option SectionKind :=
  let t := lineText line
  if t = c.markLua then some .code
  else if t = c.markGfx then some .graphics
  else if t = gffMarker then some .flags
  else if t = c.markMap then some .map
  else if t = c.markSfx then some .sound
  else if t = c.markMusic then some .music
  else if t = c.markLabel then some .label
  else none

/-- The bytes before the first marker line, and the sections in order with their contents (R233, R234). -/
def splitSections (c : Config) : List ByteString → ByteString × List (SectionKind × ByteString)
  | [] => ([], [])
  | l :: ls =>
    let rest := splitSections c ls
    match markerOf c l with
    | some k => ([], (k, rest.1) :: rest.2)
    | none => (l ++ rest.1, rest.2)

/-! ## Hex streams -/

/-- The value of a hex digit of either case (R236). -/
def hexValue (b : Byte) : Option Nat :=
  let n := b.toNat
  if 0x30 ≤ n ∧ n ≤ 0x39 then some (n - 0x30)
  else if 0x61 ≤ n ∧ n ≤ 0x66 then some (n - 0x61 + 10)
  else if 0x41 ≤ n ∧ n ≤ 0x46 then some (n - 0x41 + 10)
  else none

/-- Digit pairs to bytes; a final unpaired digit is dropped (R236). -/
def pairDigits (swap : Bool) : List Nat → ByteString
  | d0 :: d1 :: rest => byteOf (if swap then d1 * 16 + d0 else d0 * 16 + d1) :: pairDigits swap rest
  | _ => []

/-- `HexBytes(content, swap)` (R236). -/
def hexBytes (swap : Bool) (content : ByteString) : ByteString := pairDigits swap (content.filterMap hexValue)

/-! ## Applying the sections -/

/-- `STL` when a section's bytes exceed its capacity (R243). -/
def flagTooLarge (capacity : Nat) (bytes : ByteString) (s : State) : State :=
  setFlagIf (capacity < bytes.length) .stl s

/-- The first 0x1000 bytes overwrite from `base` on, the next 0x1000 are OR-ed into map2 (R237). -/
def applyAliased (base : Nat) (bytes : ByteString) (s : State) : State :=
  let direct := s.rom.writeList base (bytes.take 0x1000)
  { s with rom := direct.orList map2Base ((bytes.drop 0x1000).take 0x1000) }

/-- Graphics (R237). -/
def applyGraphics (content : ByteString) (s : State) : State :=
  let bytes := hexBytes true content
  flagTooLarge 0x2000 bytes (applyAliased gfxBase bytes s)

/-- Map (R237). -/
def applyMap (content : ByteString) (s : State) : State :=
  let bytes := hexBytes false content
  flagTooLarge 0x2000 bytes (applyAliased mapBase bytes s)

/-- Flags (R238). -/
def applyFlags (content : ByteString) (s : State) : State :=
  let bytes := hexBytes false content
  flagTooLarge 0x100 bytes { s with rom := s.rom.writeList flagsBase (bytes.take 0x100) }

/-- A channel byte of a song: bits 6..0 of the text byte, bit `k` of the flag byte in bit 7 (R239). -/
def songByte (flags ch : Byte) (k : Nat) : Byte := (ch &&& 0x7f#8) ||| (((flags >>> k) &&& 1#8) <<< 7)

/-- Song entries: every 5 bytes give 4; a final partial group is ignored (R239). -/
def songBytes : ByteString → ByteString
  | f :: c0 :: c1 :: c2 :: c3 :: rest =>
    songByte f c0 0 :: songByte f c1 1 :: songByte f c2 2 :: songByte f c3 3 :: songBytes rest
  | _ => []

/-- Music (R239): at most 64 entries. -/
def applyMusic (content : ByteString) (s : State) : State :=
  let bytes := hexBytes false content
  flagTooLarge 320 bytes { s with rom := s.rom.writeList songBase ((songBytes bytes).take 256) }

/-- The nibbles of bytes, high first (R240). -/
def nibbles : ByteString → List Nat
  | [] => []
  | b :: bs => b.toNat / 16 :: b.toNat % 16 :: nibbles bs

/-- The note word of five nibbles: two pitch digits, instrument, volume, effect (R240): `V[17:12]`, `V[10:8]`, `V[6:4]`,
`V[3:0]`. -/
def noteOf (n0 n1 n2 n3 n4 : Nat) : Word16 :=
  let v : BitVec 20 := BitVec.ofNat 20 (n0 * 65536 + n1 * 4096 + n2 * 256 + n3 * 16 + n4)
  (v.extractLsb' 0 4 : BitVec 4) ++ (v.extractLsb' 4 3 : BitVec 3) ++ (v.extractLsb' 8 3 : BitVec 3) ++
    (v.extractLsb' 12 6 : BitVec 6)

/-- Notes: every five nibbles give a little-endian word (R221, R240). -/
def noteBytes : List Nat → ByteString
  | n0 :: n1 :: n2 :: n3 :: n4 :: rest =>
    let w := noteOf n0 n1 n2 n3 n4
    w.extractLsb' 0 8 :: w.extractLsb' 8 8 :: noteBytes rest
  | _ => []

/-- One sfx entry of 68 bytes from its 84-byte block: notes first, then the four meta bytes (R221, R240). -/
def sfxFromBlock (block : ByteString) : ByteString := noteBytes (nibbles (block.drop 4)) ++ block.take 4

/-- The entries of at most `n` whole 84-byte blocks (R240). -/
def sfxBytes : Nat → ByteString → ByteString
  | 0, _ => []
  | n + 1, bytes =>
    if (bytes.take 84).length < 84 then [] else sfxFromBlock (bytes.take 84) ++ sfxBytes n (bytes.drop 84)

/-- Sound (R240): at most 64 entries. -/
def applySound (content : ByteString) (s : State) : State :=
  let bytes := hexBytes false content
  flagTooLarge 5376 bytes { s with rom := s.rom.writeList sfxBase (sfxBytes 64 bytes) }

/-- Code (R241): the content verbatim becomes the cache, with no size check (log 16); the code region is not written. -/
def applyCode (content : ByteString) (s : State) : State := { s with cache := content, cacheValid := true }

/-- Label (R242). -/
def applyLabel (content : ByteString) (s : State) : State :=
  let bytes := hexBytes true content
  flagTooLarge 0x2000 bytes { s with label := s.label.writeList 0 (bytes.take 0x2000) }

/-- The rule of a marker (R230). -/
def applySection (k : SectionKind) (content : ByteString) (s : State) : State :=
  match k with
  | .code => applyCode content s
  | .graphics => applyGraphics content s
  | .flags => applyFlags content s
  | .map => applyMap content s
  | .sound => applySound content s
  | .music => applyMusic content s
  | .label => applyLabel content s

/-- The sections in order of appearance (R230, R234). -/
def applySections : List (SectionKind × ByteString) → State → State
  | [], s => s
  | (k, content) :: rest, s => applySections rest (applySection k content s)

/-- `Clear()` (R235). -/
def clearForText (s : State) : State := { zeroMemories s with cache := [], cacheValid := true }

/-- The header check (R230, R232): line 0 exists and contains the phrase. -/
def hasHeader (c : Config) (lines : List ByteString) : Bool :=
  match lines with
  | [] => false
  | l :: _ => occurs c.headerPhrase (lineText l)

/-- `TEXT_PARSE` (R230). -/
def execTextParse (t : ByteString) (s : State) : Step :=
  preamble (.textParse t) s fun s =>
    let lines := rawLines t
    if hasHeader s.cfg lines = false then
      let u := setFlag .fnr s
      .next (respond (.failed u.status) u)
    else
      let u := applySections (splitSections s.cfg lines).2 (clearForText s)
      .next (respond (.parsed u.status) u)

/-! ## Serializing -/

/-- The lower-case digit of a value 0..15 (R245). -/
def hex1 (d : Nat) : Byte := byteOf (if d < 10 then 0x30 + d else 0x57 + d)

/-- `Hex2(b)` (R245). -/
def hex2 (b : Byte) : ByteString := [hex1 (b.toNat / 16), hex1 (b.toNat % 16)]

/-- `Hex2s(b)`, nibbles swapped (R245). -/
def hex2s (b : Byte) : ByteString := [hex1 (b.toNat % 16), hex1 (b.toNat / 16)]

/-- A hex line: the bytes it covers, and its text without the 0x0a. -/
structure HexLine where
  bytes : ByteString
  text : ByteString
deriving DecidableEq, Repr

/-- The bytes of a line are not all zero. -/
def HexLine.live (l : HexLine) : Bool := l.bytes.any (fun b => b != 0#8)

/-- Lines up to the last one that is not all zero (R246). -/
def trimLines : List HexLine → List HexLine
  | [] => []
  | l :: ls =>
    match trimLines ls with
    | [] => if l.live then [l] else []
    | k :: ks => l :: k :: ks

/-- `HexSec`: the marker line and the trimmed lines; nothing when no line is left (R246). -/
def hexSection (marker : ByteString) (lines : List HexLine) : ByteString :=
  match trimLines lines with
  | [] => []
  | l :: ls => marker ++ [0x0a#8] ++ (l :: ls).flatMap fun h => h.text ++ [0x0a#8]

/-- `n` lines of `width` bytes each from `base` on, in a digit form. -/
def byteLines (digits : Byte → ByteString) (m : Memory) (base width n : Nat) : List HexLine :=
  (List.range n).map fun i =>
    let bytes := m.slice (base + width * i) width
    ⟨bytes, bytes.flatMap digits⟩

/-- The digits of a note: pitch in two digits, instrument, volume, effect (R252). -/
def noteDigits (w : Word16) : ByteString :=
  hex2 (byteOf (notePitch w).toNat) ++
    [hex1 (noteInstrument w).toNat, hex1 (noteVolume w).toNat, hex1 (noteEffect w).toNat]

/-- Sfx line `e` (R252). -/
def sfxLine (s : State) (e : Nat) : HexLine :=
  ⟨sfxEntry s e,
   ((List.range 4).flatMap fun j => hex2 (sfxMeta s e j)) ++ (List.range 32).flatMap fun n => noteDigits (noteWord s e n)⟩

/-- The flag byte of a music line: flag `k` in bit `k` (R253). -/
def songFlagByte (s : State) (e : Nat) : Nat :=
  (songFlag s e 0).toNat + 2 * (songFlag s e 1).toNat + 4 * (songFlag s e 2).toNat + 8 * (songFlag s e 3).toNat

/-- Music line `e` (R253). -/
def musicLine (s : State) (e : Nat) : HexLine :=
  ⟨songEntry s e,
   hex2 (byteOf (songFlagByte s e)) ++ [0x20#8] ++
     (List.range 4).flatMap fun k => hex2 (byteOf (songChannel s e k).toNat)⟩

/-- `CodeSec(S)` (R247). -/
def codeSection (c : Config) (src : ByteString) : ByteString :=
  if src = [] then []
  else c.markLua ++ [0x0a#8] ++ src ++ (if src.getLast? = some 0x0a#8 then [] else [0x0a#8])

/-- `decimal(ver)`, no leading zeros (R244). -/
def decimal (n : Nat) : ByteString :=
  if n < 10 then [hex1 n]
  else if n < 100 then [hex1 (n / 10), hex1 (n % 10)]
  else [hex1 (n / 100 % 10), hex1 (n / 10 % 10), hex1 (n % 10)]

/-- `"version "` (R244). -/
def versionWord : ByteString := [0x76#8, 0x65#8, 0x72#8, 0x73#8, 0x69#8, 0x6f#8, 0x6e#8, 0x20#8]

/-- The text of a cartridge (R244, R248 to R253). -/
def serializeText (s : State) (src : ByteString) (ver : Nat) : ByteString :=
  s.cfg.headerPhrase ++ [0x0a#8] ++ versionWord ++ decimal ver ++ [0x0a#8] ++
  codeSection s.cfg src ++
  hexSection s.cfg.markGfx (byteLines hex2s s.rom gfxBase 64 128) ++
  hexSection s.cfg.markLabel (byteLines hex2s s.label 0 64 128) ++
  hexSection gffMarker (byteLines hex2 s.rom flagsBase 128 2) ++
  hexSection s.cfg.markMap (byteLines hex2 s.rom mapBase 128 32) ++
  hexSection s.cfg.markSfx ((List.range 64).map (sfxLine s)) ++
  hexSection s.cfg.markMusic ((List.range 64).map (musicLine s))

/-- `TEXT_SERIALIZE` (R244). `MODE` is not written. -/
def execTextSerialize (ver : Nat) (s : State) : Step :=
  preamble (.textSerialize ver) s fun s =>
    withSource s fun src s =>
      let t := keepSource src s
      .next (respond (.text (serializeText t src ver) t.status) t)

end Sys2Proof.Machine
end

