-- ==== Sys2Proof/Machine/Dispatch.lean ====
section
/-! DEFINITION. The dispatch of an instruction to its meaning, one arm per constructor. -/

namespace Sys2Proof.Machine

open Sys2Proof

def exec (i : Instr) (s : State) : Host.Outcome State Fault Refusal :=
  match i with
  | .lit code => Sys2Proof.Machine.execLit code s
  | .esc raw => Sys2Proof.Machine.execEsc raw s
  | .bref offset len => Sys2Proof.Machine.execBref offset len s
  | .mlit k v => Sys2Proof.Machine.execMlit k v s
  | .mbrefS offset len => Sys2Proof.Machine.execMbrefS offset len s
  | .mbrefM offset len => Sys2Proof.Machine.execMbrefM offset len s
  | .mbrefL offset len => Sys2Proof.Machine.execMbrefL offset len s
  | .decompress src => Sys2Proof.Machine.execDecompress src s
  | .compressLegacy src => Sys2Proof.Machine.execCompressLegacy src s
  | .compressModern src => Sys2Proof.Machine.execCompressModern src s
  | .compressBest src => Sys2Proof.Machine.execCompressBest src s
  | .romRead a => Sys2Proof.Machine.execRomRead a s
  | .romWrite a v => Sys2Proof.Machine.execRomWrite a v s
  | .labelRead a => Sys2Proof.Machine.execLabelRead a s
  | .labelWrite a v => Sys2Proof.Machine.execLabelWrite a v s
  | .romClear => Sys2Proof.Machine.execRomClear s
  | .binAssemble ver => Sys2Proof.Machine.execBinAssemble ver s
  | .pngUnpack w h p => Sys2Proof.Machine.execPngUnpack w h p s
  | .pngPack w h p ver => Sys2Proof.Machine.execPngPack w h p ver s
  | .textParse t => Sys2Proof.Machine.execTextParse t s
  | .textSerialize ver => Sys2Proof.Machine.execTextSerialize ver s

end Sys2Proof.Machine
end

