-- ==== Sys2Proof/Machine/HostSequences.lean ====
section
/-! DEFINITION. The host's command sequences (70_reset_and_hazards.md R300, R301), over the meanings of the commands. They are
the host's, not the block's: no instruction is defined by them. -/

namespace Sys2Proof.Machine

open Sys2Proof

/-- The last result says `ok = false`. -/
def lastFailed (s : State) : Bool :=
  match s.results.getLast? with
  | some (.failed _) => true
  | _ => false

/-- Loading a cartridge (R300): the text form, else the pixel form followed by the decode of the region. `ok` of the load is
`lastFailed = false`. -/
def hostLoad (text : ByteString) (w h : Nat) (p : ByteString) (s : State) : Step :=
  andThen (execTextParse text s) fun t =>
    if lastFailed t then
      andThen (execPngUnpack w h p t) fun u => if lastFailed u then .next u else execDecompress .region u
    else .next t

/-- `ROM_WRITE` of bytes one after another from an address on. -/
def hostWriteAll : Nat → ByteString → State → Step
  | _, [], s => .next s
  | a, b :: bs, s => andThen (execRomWrite a b.toNat s) (hostWriteAll (a + 1) bs)

/-- Placing the code (R300): `C <- COMPRESS_BEST(CACHE)`, its first 0x3d00 bytes into the region, 0x00 after them. -/
def hostPlaceCode (s : State) : Step :=
  let src := s.cache
  andThen (execCompressBest src s) fun t =>
    let code := (chooseBest t.cfg src).2
    hostWriteAll codeBase ((code ++ List.replicate codeCap 0#8).take codeCap) t

/-- `get_bin()` (R301). -/
def hostGetBin (s : State) : Step := execBinAssemble s.cfg.cartVersion.toNat s

/-- `get_p8()` (R301). -/
def hostGetP8 (s : State) : Step := execTextSerialize s.cfg.cartVersion.toNat s

/-- `get_png()` on a template, after the code placement (R301). -/
def hostGetPng (w h : Nat) (p : ByteString) (s : State) : Step :=
  andThen (hostPlaceCode s) fun t => execPngPack w h p t.cfg.cartVersion.toNat t

end Sys2Proof.Machine
end

