-- ==== Sys2Proof/Machine/Step.lean ====
section
/-! DEFINITION. One step of the machine: what `fetch` finds, run by `exec`; and the placing of an opcode-table word. -/

namespace Sys2Proof.Machine

open Sys2Proof

/-- One step: run the fetched instruction, or do the engine's own step, or refuse. -/
def step (s : State) : Host.Outcome State Fault Refusal :=
  match fetch s with
  | .run i t => exec i t
  | .act t => .next t
  | .refuse r => .refused r

/-- The state whose next step fetches and runs exactly the instruction of an opcode-table word (log 7). -/
def State.withFetchWord (s : State) (nbits w : Nat) : State := placeWord nbits w s

end Sys2Proof.Machine
end

