-- ==== Sys2Proof/Safety.lean ====
section
/-! DEFINITION. What counts as a safe run (70_reset_and_hazards.md R302), the invariant of the machine's states, and the words
the statements use. -/

namespace Sys2Proof.Machine

open Sys2Proof

/-- A run of `n` steps is successful so far: none was refused, none stopped, and no command has faulted (R302). -/
def SafeRun (n : Nat) (s : State) : Prop :=
  ∃ t, Host.Core.run Sys2Proof.core n s = .next t ∧ t.faulted = false

/-- A command passes its preamble: not faulted, operands within their widths (60 R266). -/
def Ready (i : Instr) (s : State) : Prop := s.faulted = false ∧ i.wf = true

/-- The state a command's body starts in (60 R266). -/
def State.cleared (s : State) : State := { s with status := 0#8 }

/-- A token of a form may be executed: its decode is under way and the output budget is not met (40 R101, 41 R139). -/
def InToken (form : Form) (s : State) : Prop :=
  (∃ o, s.stage = .decoding form o) ∧ s.outlen.toNat < s.declen.toNat

/-- `OUTLEN` is `|OUT|`, as it is during a decode (10 R26). -/
def OutInStep (s : State) : Prop := s.outlen.toNat = s.out.length

/-- `after` is `before` followed by up to `len` bytes, each equal to the byte `offset` before it, cut at `budget` bytes in all
(40 R105; 20 R57). -/
def CopiedOut (offset len budget : Nat) (before after : ByteString) : Prop :=
  after.length = min (before.length + len) budget ∧
  after.take before.length = before ∧
  ∀ j, before.length ≤ j → j < after.length → after[j]? = after[j - offset]?

/-- The registers of a decode under way are in step with their buffers and budgets (10 R22 to R27). -/
structure DecodeInv (form : Form) (s : State) : Prop where
  /-- `OUTLEN = |OUT|` (R26). -/
  outInStep : OutInStep s
  /-- `OUTLEN ≤ DECLEN` (R25, R26). -/
  withinBudget : s.outlen.toNat ≤ s.declen.toNat
  /-- `MODE` is the form of the decode (R27). -/
  modeIsForm : s.mode = form.mode

/-- While the loop runs, the stream pointer is within the input budget and the budget within the buffer (R22 to R24). -/
def PointerInv (form : Form) (s : State) : Prop :=
  match form with
  | .raw => s.ip.toNat ≤ s.inlen.toNat ∧ s.inlen.toNat = s.inbuf.length ∧ s.ip = s.outlen ∧ s.declen = s.inlen
  | .legacy => s.ip.toNat ≤ s.inlen.toNat ∧ s.inlen.toNat = s.inbuf.length
  | .modern => s.bitpos.toNat ≤ 8 * s.inlen.toNat ∧ s.inlen.toNat + hdrSize ≤ s.inbuf.length

/-- What holds of a stage. -/
def StageInv (s : State) : Prop :=
  match s.stage with
  | .idle => True
  | .decoding form _ => s.faulted = false ∧ DecodeInv form s ∧ PointerInv form s
  | .ended form _ => s.faulted = false ∧ DecodeInv form s

/-- The next step is a `TEXT_PARSE` of a text with a code section over 65535 bytes: the one write of `CACHE` that R31's bound
does not hold for, since R241 applies no size check to it (log 16). -/
def ParsesLongCode (s : State) : Prop :=
  s.stage = .idle ∧ ∃ (m : ByteString) (rest : List HostEvent) (text content : ByteString),
    s.port = .command m :: rest ∧ decodeCommand m = .ok (.textParse text) ∧
    (SectionKind.code, content) ∈ (splitSections s.cfg (rawLines text)).2 ∧ bufferMax < content.length

/-- The invariant of the machine's states. -/
structure State.Inv (s : State) : Prop where
  /-- `ROM` is in canonical form, within 0x0000..0x7FFF (R35). -/
  romWf : s.rom.wf = true
  romBelow : s.rom.below romSize = true
  /-- `LABEL` is in canonical form, within 0x0000..0x1FFF (R35). -/
  labelWf : s.label.wf = true
  labelBelow : s.label.below labelSize = true
  /-- `MTF` is a permutation of 0..255 (R30). -/
  mtfPerm : s.mtf.Perm identityMtf
  /-- `STATUS` bit 7 reads 0 (R28). -/
  statusReserved : s.status.getLsbD 7 = false
  /-- `FCAUSE` is 0, 1 or 2 (R260), and 0 exactly when not faulted. -/
  causeLegal : s.fcause.toNat ≤ 2
  causeFaulted : s.fcause = 0#4 ↔ s.faulted = false
  /-- What the stage says. -/
  stageInv : StageInv s

end Sys2Proof.Machine
end

