-- ==== Sys2Proof/Certificates/Slice0/Obligations.lean ====
section
/-! DEFINITION. The statements for the provers. Each docstring names the rules of spec/ it formalises; every one with
hypotheses has a witness in Sys2Proof/Tests/Slice0.lean. A statement about every state holds for every value of the parameters
in `cfg`, of the encoder registers and of the free-value counter. -/

open Sys2Proof Sys2Proof.Machine

/-! ## Encoding -/

/-- 30 R70 to R73, 40 R113: the decoder reads back every well-formed Legacy token, whatever follows it; and what it reads is
well formed and encodes to the bytes read. -/
def Obligations.LegacyEncodingIsOneToOne : Prop :=
  (∀ (i : Instr) (rest : ByteString), i.stream = .legacy → i.wf = true →
    decodeLegacy (encodeLegacy i ++ rest) = .ok (i, rest)) ∧
  ∀ (bs rest : ByteString) (i : Instr), decodeLegacy bs = .ok (i, rest) →
    i.stream = .legacy ∧ i.wf = true ∧ encodeLegacy i ++ rest = bs

/-- 30 R74 to R80: the decoder reads back every well-formed Modern token, whatever follows it; and what it reads is well formed
and encodes to the bits read. Two illegal codes of 30 R82 are in its range: (b), `MLIT` with `k = 4` and `v ≥ 16`, has the
format of R76; (a), the prefix of five ones, has no token in R74 to R80, and that it is the term `MLIT` with `k = 5` and no
field, six bits long, is the model's choice (log 22), made so that its stop is 41 R141's. -/
def Obligations.ModernEncodingIsOneToOne : Prop :=
  (∀ (i : Instr) (rest : List Bool), i.stream = .modern → i.wf = true →
    decodeModern (encodeModern i ++ rest) = .ok (i, rest)) ∧
  ∀ (bits rest : List Bool) (i : Instr), decodeModern bits = .ok (i, rest) →
    i.stream = .modern ∧ i.wf = true ∧ encodeModern i ++ rest = bits

/-- 30 R84 (codes and widths; the byte layout is the model's choice, log 5): the decoder reads back every well-formed command;
and a message that decodes is the encoding of its command, so every command has one message. -/
def Obligations.CommandEncodingIsOneToOne : Prop :=
  (∀ i : Instr, i.stream = .command → i.wf = true → decodeCommand (encodeCommand i) = .ok i) ∧
  ∀ (m : ByteString) (i : Instr), decodeCommand m = .ok i → i.stream = .command ∧ encodeCommand i = m

/-- Words written out from the formats of 30 R70 to R72, R76, R78, R79, R84, one or more a family. -/
def Obligations.SpecWordsDecode : Prop :=
  decode (.legacy [0x0d#8]) = .ok (.lit 13) ∧
  decode (.legacy [0x00#8, 0x41#8]) = .ok (.esc 0x41#8) ∧
  decode (.legacy [0xff#8, 0xff#8]) = .ok (.bref 3135 17) ∧
  decode (.modern [true, true, true, false, true, false, false, false, true, true]) = .ok (.mlit 2 49) ∧
  decode (.modern [false, true, true, true, true, false, false, false, true, false, false]) = .ok (.mbrefS 4 4) ∧
  decode (.command [0x11#8, 0x90#8, 0x00#8, 0x01#8]) = .ok (.romWrite 0x9000 1) ∧
  decode (.command [0x14#8]) = .ok .romClear

/-- 30 R77: the width table, and its agreement with the literal code of every rank 0 to 255. -/
def Obligations.WidthTableSpellsEveryRank : Prop :=
  widthTable = [4, 5, 5, 6, 6, 6, 6, 7, 7, 7, 7, 7, 7, 7, 7, 8] ∧
  ∀ rank < 256,
    widthOf rank = (if rank < 16 then 4 else if rank < 48 then 5 else if rank < 112 then 6 else if rank < 240 then 7 else 8) ∧
    ∃ k v, mlitOfRank rank = .mlit k v ∧ (Instr.mlit k v).wf = true ∧ litWidth k = widthOf rank ∧ litRank k v = rank

/-! ## Legacy tokens -/

/-- 40 R102: `LIT` appends the alphabet byte of its code and advances `IP` by 1; nothing else changes. -/
def Obligations.LitAppendsAlphabetByte : Prop :=
  ∀ (s : State) (code : Nat) (b : Byte), InToken .legacy s → 1 ≤ code → code ≤ 59 → s.cfg.alphabet[code - 1]? = some b →
    exec (.lit code) s = .next { s with out := s.out ++ [b], outlen := s.outlen + 1#16, ip := s.ip + 1#16 }

/-- 40 R103: `ESC` appends its raw byte and advances `IP` by 2; with its second byte beyond the input budget it stops with
`TRUNC`, appending nothing and leaving `IP`. Nothing else changes. -/
def Obligations.EscAppendsRawByte : Prop :=
  ∀ (s : State) (raw : Byte) (o : Origin), s.stage = .decoding .legacy o → s.outlen.toNat < s.declen.toNat →
    exec (.esc raw) s =
      if s.ip.toNat + 1 < s.inlen.toNat then
        .next { s with out := s.out ++ [raw], outlen := s.outlen + 1#16, ip := s.ip + 2#16 }
      else .next { s with status := s.status ||| 0x10#8, stage := .ended .legacy o }

/-- 40 R104, R105, 60 R263: `BREF` advances `IP` by 2; a corrupt reference sets `CBR` and copies nothing, a good one appends the
copy, cut at the output budget; a missing second byte stops with `TRUNC`. Nothing else changes. -/
def Obligations.BrefCopiesOrFlags : Prop :=
  ∀ (s : State) (offset len : Nat) (o : Origin), s.stage = .decoding .legacy o → s.outlen.toNat < s.declen.toNat →
    OutInStep s → offset ≤ 3135 → 2 ≤ len → len ≤ 17 →
    (s.inlen.toNat ≤ s.ip.toNat + 1 →
      exec (.bref offset len) s = .next { s with status := s.status ||| 0x10#8, stage := .ended .legacy o }) ∧
    (s.ip.toNat + 1 < s.inlen.toNat → (offset = 0 ∨ s.out.length < offset) →
      exec (.bref offset len) s = .next { s with ip := s.ip + 2#16, status := s.status ||| 0x04#8 }) ∧
    (s.ip.toNat + 1 < s.inlen.toNat → 1 ≤ offset → offset ≤ s.out.length →
      ∃ t, exec (.bref offset len) s = .next t ∧
        t = { s with ip := s.ip + 2#16, out := t.out, outlen := t.outlen } ∧
        OutInStep t ∧ CopiedOut offset len s.declen.toNat s.out t.out)

/-! ## Modern tokens -/

/-- 41 R141, R142, R137: a literal code of a rank reads `2*w - 2` bits, takes the byte at the rank and moves it to the front;
the byte 0 sets `ENDMARK` and ends the decode, any other is appended. Nothing else changes. -/
def Obligations.MlitAppendsRankedByte : Prop :=
  ∀ (s : State) (k v : Nat) (c : Byte) (o : Origin), s.stage = .decoding .modern o → s.outlen.toNat < s.declen.toNat →
    k ≤ 4 → v < 2 ^ (4 + k) → v + 2 ^ (4 + k) - 16 ≤ 255 →
    s.bitpos.toNat + (2 * (4 + k) - 2) ≤ 8 * s.inlen.toNat →
    s.mtf[v + 2 ^ (4 + k) - 16]? = some c →
    exec (.mlit k v) s =
      .next (if c = 0#8 then
        { s with
          bitpos := bitIndexOf (s.bitpos.toNat + (2 * (4 + k) - 2))
          mtf := c :: (s.mtf.take (v + 2 ^ (4 + k) - 16) ++ s.mtf.drop (v + 2 ^ (4 + k) - 16 + 1))
          status := s.status ||| 0x40#8
          stage := .ended .modern o }
      else
        { s with
          bitpos := bitIndexOf (s.bitpos.toNat + (2 * (4 + k) - 2))
          mtf := c :: (s.mtf.take (v + 2 ^ (4 + k) - 16) ++ s.mtf.drop (v + 2 ^ (4 + k) - 16 + 1))
          out := s.out ++ [c]
          outlen := s.outlen + 1#16 })

/-- 30 R82 (a), (b), 41 R141: five ones, or a rank above 255, end the decode with `CLIT`, after 6 or 14 bits; no byte, no
move. (That five ones are the term `MLIT` with `k = 5` is the model's choice, log 22; the effect is R141's.) -/
def Obligations.IllegalLiteralStopsWithClit : Prop :=
  ∀ (s : State) (k v n : Nat) (o : Origin), s.stage = .decoding .modern o → s.outlen.toNat < s.declen.toNat →
    (k = 5 ∧ v = 0 ∧ n = 6 ∨ k = 4 ∧ 16 ≤ v ∧ v < 256 ∧ n = 14) →
    s.bitpos.toNat + n ≤ 8 * s.inlen.toNat →
    exec (.mlit k v) s = .next { s with
      bitpos := bitIndexOf (s.bitpos.toNat + n), status := s.status ||| 0x20#8, stage := .ended .modern o }

/-- 41 R143 to R146, 40 R105, 60 R263: the three Modern back-references read their bits, then set `CBR` and copy nothing when
the offset reaches before the start of `OUT`, else append the copy, cut at the output budget. `MTF` and everything else stay. -/
def Obligations.ModernReferencesCopyOrFlag : Prop :=
  ∀ (s : State) (i : Instr) (offset len n : Nat) (o : Origin),
    s.stage = .decoding .modern o → s.outlen.toNat < s.declen.toNat → OutInStep s →
    1 ≤ offset → 3 ≤ len →
    (i = .mbrefS offset len ∧ offset ≤ 32 ∧ n = 3 + 5 + 3 * ((len - 3) / 7 + 1) ∨
     i = .mbrefM offset len ∧ offset ≤ 1024 ∧ n = 3 + 10 + 3 * ((len - 3) / 7 + 1) ∧
       (s.cfg.modernRawEscape = false ∨ offset ≠ 1) ∨
     i = .mbrefL offset len ∧ offset ≤ 32768 ∧ n = 2 + 15 + 3 * ((len - 3) / 7 + 1)) →
    s.bitpos.toNat + n ≤ 8 * s.inlen.toNat →
    (s.out.length < offset →
      exec i s = .next { s with bitpos := bitIndexOf (s.bitpos.toNat + n), status := s.status ||| 0x04#8 }) ∧
    (offset ≤ s.out.length →
      ∃ t, exec i s = .next t ∧
        t = { s with bitpos := bitIndexOf (s.bitpos.toNat + n), out := t.out, outlen := t.outlen } ∧
        OutInStep t ∧ CopiedOut offset len s.declen.toNat s.out t.out)

/-- 41 R131: a Modern token cut short by the input budget is abandoned: `TRUNC`, every bit of the budget read (log 21), nothing
appended, `MTF` as it was. (Among the tokens is the illegal prefix of five ones, 30 R82 (a), the term `MLIT` with `k = 5`: the
model's choice, log 22.) -/
def Obligations.ModernTokenCutShortStops : Prop :=
  ∀ (s : State) (i : Instr) (o : Origin), s.stage = .decoding .modern o → s.outlen.toNat < s.declen.toNat →
    i.stream = .modern → i.wf = true → s.cfg.modernRawEscape = false →
    s.bitpos.toNat ≤ 8 * s.inlen.toNat → 8 * s.inlen.toNat < s.bitpos.toNat + (encodeModern i).length →
    exec i s = .next { s with
      bitpos := bitIndexOf (8 * s.inlen.toNat), status := s.status ||| 0x10#8, stage := .ended .modern o }

/-- 41 R147: under `MODERN_RAW_ESCAPE` the form `MBREF.M` with `o = 0` is refused. -/
def Obligations.RawEscapeFormIsRefused : Prop :=
  ∀ (s : State) (len : Nat), InToken .modern s → 3 ≤ len → s.cfg.modernRawEscape = true →
    s.bitpos.toNat + 13 ≤ 8 * s.inlen.toNat → exec (.mbrefM 1 len) s = .refused .rawEscape

/-- 41 R138, 10 R30: in a list that is a permutation of 0..255 every byte has one rank, and it is the rank that holds it. -/
def Obligations.MtfRankIsTheOnlyRank : Prop :=
  ∀ (l : ByteString) (c : Byte), l.Perm identityMtf →
    mtfRank l c < 256 ∧ ∀ r < 256, l[r]? = some c ↔ r = mtfRank l c

/-! ## Commands: preamble, accessors, the fault -/

/-- 60 R266: every command is refused while faulted; with an operand that does not fit its width it is refused; else what it
does is what it does with `STATUS` 0 at its start, whatever `STATUS` held. (The widths of `PNG_PACK`'s `W`, `H` and `ver` are
the model's choice, log 29.) -/
def Obligations.PreambleRunsFirst : Prop :=
  ∀ (i : Instr) (s : State), i.stream = .command →
    (s.faulted = true → exec i s = .refused .faulted) ∧
    (s.faulted = false → i.wf = false → exec i s = .refused .operandWidth) ∧
    (∀ b : Byte, exec i { s with status := b } = exec i s)

/-- 30 R84: a command whose code the table does not list is refused. -/
def Obligations.ReservedCommandCodesRefused : Prop :=
  ∀ (s : State) (code : Byte) (ops : ByteString) (rest : List HostEvent),
    s.stage = .idle → s.faulted = false → s.port = .command (code :: ops) :: rest →
    code ∉ [0x01#8, 0x02#8, 0x03#8, 0x04#8, 0x10#8, 0x11#8, 0x12#8, 0x13#8, 0x14#8, 0x20#8, 0x30#8, 0x31#8, 0x40#8, 0x41#8] →
    step s = .refused (.reservedCode code)

/-- 43 R200, R202: the reads return the byte and change nothing but `STATUS` (0). -/
def Obligations.ReadsReturnTheByte : Prop :=
  ∀ (s : State) (a : Nat), s.faulted = false →
    (a < 0x8000 → exec (.romRead a) s =
      .next { s with status := 0#8, results := s.results ++ [.byte (s.rom.read a)] }) ∧
    (a < 0x2000 → exec (.labelRead a) s =
      .next { s with status := 0#8, results := s.results ++ [.byte (s.label.read a)] })

/-- 43 R201, 20 R51, R53, R58: `ROM_WRITE` changes one byte of `ROM`, clears `CACHE_VALID` exactly for an address in the code
region, and changes nothing else but `STATUS` (0). -/
def Obligations.RomWriteChangesOneByte : Prop :=
  ∀ (s : State) (a v : Nat), s.faulted = false → s.rom.wf = true → a < 0x8000 → v < 256 →
    ∃ t, exec (.romWrite a v) s = .next t ∧
      t = { s with rom := t.rom, cacheValid := t.cacheValid, status := 0#8, results := s.results ++ [.done] } ∧
      (∀ b, t.rom.read b = if b = a then byteOf v else s.rom.read b) ∧
      t.cacheValid = (if 0x4300 ≤ a then false else s.cacheValid) ∧ t.rom.wf = true

/-- 43 R203: `LABEL_WRITE` changes one byte of `LABEL` and never the cache; nothing else changes but `STATUS` (0). -/
def Obligations.LabelWriteChangesOneByte : Prop :=
  ∀ (s : State) (a v : Nat), s.faulted = false → s.label.wf = true → a < 0x2000 → v < 256 →
    ∃ t, exec (.labelWrite a v) s = .next t ∧
      t = { s with label := t.label, status := 0#8, results := s.results ++ [.done] } ∧
      (∀ b, t.label.read b = if b = a then byteOf v else s.label.read b) ∧ t.label.wf = true

/-- 60 R265, 20 R48: an access out of range takes the fault: `FAULTED`, the cause (1 for ROM, 2 for LABEL) and the index are
recorded, `STATUS` is 0, no memory byte, register or result changes, nothing is returned. -/
def Obligations.OutOfRangeTakesTheFault : Prop :=
  ∀ (s : State) (a v : Nat), s.faulted = false → a < 0x10000 → v < 256 →
    (0x8000 ≤ a →
      exec (.romRead a) s = .next { s with status := 0#8, faulted := true, fcause := 1#4, faddr := word16Of a } ∧
      exec (.romWrite a v) s = .next { s with status := 0#8, faulted := true, fcause := 1#4, faddr := word16Of a }) ∧
    (0x2000 ≤ a →
      exec (.labelRead a) s = .next { s with status := 0#8, faulted := true, fcause := 2#4, faddr := word16Of a } ∧
      exec (.labelWrite a v) s = .next { s with status := 0#8, faulted := true, fcause := 2#4, faddr := word16Of a })

/-- 43 R204: `ROM_CLEAR` zeroes every byte of `ROM` and `LABEL` and clears `CACHE_VALID`; nothing else changes but `STATUS`. -/
def Obligations.RomClearZeroesBothMemories : Prop :=
  ∀ s : State, s.faulted = false →
    ∃ t, exec .romClear s = .next t ∧ (∀ a, t.rom.read a = 0#8 ∧ t.label.read a = 0#8) ∧
      t = { s with
        rom := t.rom, label := t.label, cacheValid := false, status := 0#8, results := s.results ++ [.done] }

/-- 20 R47, 43 R205, 70 R298: a map tile of rows 32 to 63 is the pixel pair of gfx at the same bytes. -/
def Obligations.Map2TilesAreGfxPixels : Prop :=
  ∀ (s : State) (tx ty : Nat), tx < 128 → 32 ≤ ty → ty < 64 →
    (mapTile s tx ty).toNat =
      (gfxPixel s (2 * (tx % 64)) (64 + 2 * (ty - 32) + tx / 64)).toNat +
        16 * (gfxPixel s (2 * (tx % 64) + 1) (64 + 2 * (ty - 32) + tx / 64)).toNat

/-! ## The codec commands -/

/-- 42 R170, R171, R174: `DECOMPRESS` of a well-formed source completes where no raw escape can stand: it returns `OUT`, the
detected form and `STATUS`; the region fills the cache, a host buffer leaves it; ROM, LABEL and the fault registers stay. Where
a raw escape can stand it completes or is refused by that name (41 R147). What it returns is the `OUT` its loop ends with, of
which a Legacy decode deletes the first occurrence of a non-empty `LEGACY_COMPAT_SNIPPET`, `OUTLEN` reduced by its length, and
nothing else (40 R106; the snippet is a parameter, log 2). -/
def Obligations.DecompressCompletes : Prop :=
  ∀ (s : State) (src : Source), s.faulted = false → src.wf = true →
    ((s.cfg.modernRawEscape = false ∨ detect s.cfg (sourceBuffer src s).2 ≠ .modern) →
      ∃ t, exec (.decompress src) s = .next t ∧
        t.results = s.results ++ [.decoded t.out t.mode t.status] ∧
        t.mode = (detect s.cfg (sourceBuffer src s).2).mode ∧
        t.inbuf = (sourceBuffer src s).2 ∧
        (src = .region → t.cache = t.out ∧ t.cacheValid = true) ∧
        (src ≠ .region → t.cache = s.cache ∧ t.cacheValid = s.cacheValid) ∧
        t = { s with
          ip := t.ip, bitpos := t.bitpos, inbuf := t.inbuf, inlen := t.inlen, declen := t.declen, out := t.out
          outlen := t.outlen, mode := t.mode, status := t.status, mtf := t.mtf, cache := t.cache
          cacheValid := t.cacheValid, results := t.results, stage := .idle }) ∧
    ((∃ t, exec (.decompress src) s = .next t) ∨ exec (.decompress src) s = .refused .rawEscape) ∧
    ∀ u, decodeLoop (loopBound (beginDecompress src s.cleared)) (beginDecompress src s.cleared) = .next u →
      ∃ t, exec (.decompress src) s = .next t ∧
        (detect s.cfg (sourceBuffer src s).2 = .legacy → s.cfg.compatSnippet ≠ [] →
          ∀ pre post, u.out = pre ++ s.cfg.compatSnippet ++ post →
            (∀ pre' post', u.out = pre' ++ s.cfg.compatSnippet ++ post' → pre.length ≤ pre'.length) →
            t.out = pre ++ post ∧ t.outlen.toNat + s.cfg.compatSnippet.length = u.outlen.toNat) ∧
        (detect s.cfg (sourceBuffer src s).2 ≠ .legacy ∨ s.cfg.compatSnippet = [] ∨ ¬ s.cfg.compatSnippet <:+: u.out →
          t.out = u.out ∧ t.outlen = u.outlen) ∧
        t.ip = u.ip ∧ t.bitpos = u.bitpos ∧ t.mtf = u.mtf ∧ t.status = u.status ∧ t.mode = u.mode

/-- 42 R171, 40 R100, 41 R130: the first four bytes alone tell the form; a magic with fewer than four bytes after it is still
its form, and its decode stops with `TRUNC` and returns the empty string. -/
def Obligations.DetectReadsTheFirstFourBytes : Prop :=
  (∀ (c : Config) (b : ByteString),
    (4 ≤ b.length → b.take 4 = c.legacyMagic → detect c b = .legacy) ∧
    (4 ≤ b.length → b.take 4 = c.modernMagic → b.take 4 ≠ c.legacyMagic → detect c b = .modern) ∧
    (b.length < 4 ∨ (b.take 4 ≠ c.legacyMagic ∧ b.take 4 ≠ c.modernMagic) → detect c b = .raw)) ∧
  ∀ (s : State) (b : ByteString), s.faulted = false → 4 ≤ b.length → b.length < 8 →
    (b.take 4 = s.cfg.legacyMagic →
      exec (.decompress (.host b)) s = .next { s with
        inbuf := b, inlen := word16Of b.length, declen := 0#16, out := [], outlen := 0#16, mode := .legacy
        status := 0x10#8, stage := .idle, results := s.results ++ [.decoded [] .legacy 0x10#8] }) ∧
    (b.take 4 = s.cfg.modernMagic → b.take 4 ≠ s.cfg.legacyMagic →
      exec (.decompress (.host b)) s = .next { s with
        inbuf := b, declen := 0#16, out := [], outlen := 0#16, mode := .modern
        status := 0x10#8, stage := .idle, results := s.results ++ [.decoded [] .modern 0x10#8] })

/-- 42 R172: a buffer with neither magic is read up to its first zero byte or its end, with no flag; `IP` and `OUTLEN` end
there, `INLEN` and `DECLEN` are the buffer's length. -/
def Obligations.RawTextStopsAtZero : Prop :=
  ∀ (s : State) (c : ByteString), s.faulted = false → c.length ≤ 65535 → detect s.cfg c = .raw →
    exec (.decompress (.host c)) s = .next { s with
      inbuf := c, inlen := word16Of c.length, declen := word16Of c.length
      ip := word16Of (c.takeWhile (fun b => b != 0#8)).length
      out := c.takeWhile (fun b => b != 0#8)
      outlen := word16Of (c.takeWhile (fun b => b != 0#8)).length
      mode := .raw, status := 0#8, stage := .idle
      results := s.results ++ [.decoded (c.takeWhile (fun b => b != 0#8)) .raw 0#8] }

/-- 42 R175, 40 R108, R114: `COMPRESS_LEGACY` refuses a source longer than 15608; else it returns the Legacy buffer whole, with
`OCO` when it exceeds 15616 bytes, and `MODE = LEGACY`. Only `OUT`, `MODE`, `STATUS`, the encoder registers and the model's
results and counter change (what `OUT` holds, and that `OUTLEN` and `MTF` stay, is the model's reading, log 13; the encoder
registers are free values, log 11). -/
def Obligations.CompressLegacyReturnsItsBuffer : Prop :=
  ∀ (s : State) (src : ByteString), s.faulted = false →
    (15608 < src.length → exec (.compressLegacy src) s = .refused .sourceTooLong) ∧
    (src.length ≤ 15608 →
      ∃ t, exec (.compressLegacy src) s = .next t ∧
        t.status = (if 15616 < (legacyEncode s.cfg src).length then 0x08#8 else 0#8) ∧
        t = { s with
          out := legacyEncode s.cfg src, mode := .legacy, status := t.status
          pos := t.pos, bestLen := t.bestLen, bestOff := t.bestOff, wb := t.wb, freeCtr := t.freeCtr
          results := s.results ++ [.compressed (legacyEncode s.cfg src) t.status] })

/-- 42 R176, 41 R148, R156: `COMPRESS_MODERN` refuses a source longer than 15608 or with a zero byte; else it returns the
Modern buffer whole, with `OCO` when it exceeds 15616 bytes, and `MODE = MODERN`. Only `OUT`, `MTF`, `MODE`, `STATUS`, the
encoder registers and the model's results and counter change. (That `OUT` holds the buffer and `MTF` the encoder's list, and
that `OUTLEN` stays, is the model's reading, log 13; the encoder registers are free values, log 11.) -/
def Obligations.CompressModernReturnsItsBuffer : Prop :=
  ∀ (s : State) (src : ByteString), s.faulted = false →
    (15608 < src.length → exec (.compressModern src) s = .refused .sourceTooLong) ∧
    (src.length ≤ 15608 → 0#8 ∈ src → exec (.compressModern src) s = .refused .sourceHasZero) ∧
    (src.length ≤ 15608 → 0#8 ∉ src →
      ∃ t, exec (.compressModern src) s = .next t ∧
        t.status = (if 15616 < (modernEncode s.cfg src).1.length then 0x08#8 else 0#8) ∧
        t = { s with
          out := (modernEncode s.cfg src).1, mtf := (modernEncode s.cfg src).2, mode := .modern, status := t.status
          pos := t.pos, bestLen := t.bestLen, bestOff := t.bestOff, wb := t.wb, freeCtr := t.freeCtr
          results := s.results ++ [.compressed (modernEncode s.cfg src).1 t.status] })

/-- 42 R177: `COMPRESS_BEST` refuses as `COMPRESS_MODERN` does; else it returns the Modern buffer when it is the shorter, else
the Legacy buffer (a tie keeps Legacy), with its form and with `OCO` for the returned buffer only. ROM, LABEL, the cache and the
decode registers but `OUT` and `MTF` stay (what those two hold is log 14). -/
def Obligations.CompressBestReturnsTheShorter : Prop :=
  ∀ (s : State) (src : ByteString), s.faulted = false →
    (15608 < src.length → exec (.compressBest src) s = .refused .sourceTooLong) ∧
    (src.length ≤ 15608 → 0#8 ∈ src → exec (.compressBest src) s = .refused .sourceHasZero) ∧
    (src.length ≤ 15608 → 0#8 ∉ src →
      ∃ t code, exec (.compressBest src) s = .next t ∧
        ((modernEncode s.cfg src).1.length < (legacyEncode s.cfg src).length →
          code = (modernEncode s.cfg src).1 ∧ t.mode = .modern) ∧
        ((legacyEncode s.cfg src).length ≤ (modernEncode s.cfg src).1.length →
          code = legacyEncode s.cfg src ∧ t.mode = .legacy) ∧
        t.status = (if 15616 < code.length then 0x08#8 else 0#8) ∧
        t = { s with
          out := t.out, mtf := t.mtf, mode := t.mode, status := t.status
          pos := t.pos, bestLen := t.bestLen, bestOff := t.bestOff, wb := t.wb, freeCtr := t.freeCtr
          results := s.results ++ [.best code t.mode t.status] })

/-- 40 R115: a source of at most 15608 bytes that does not contain the compatibility snippet comes back from the buffer
`COMPRESS_LEGACY` returns, decoded in any state with the same parameters, with `MODE = LEGACY` and no flag.
(A source that contains it comes back without its first occurrence, 40 R106: `DecompressCompletes`.) -/
def Obligations.LegacyRoundTrip : Prop :=
  ∀ (s v : State) (src : ByteString), s.faulted = false → v.faulted = false → v.cfg = s.cfg → s.cfg.wf = true →
    src.length ≤ 15608 → (s.cfg.compatSnippet = [] ∨ ¬ s.cfg.compatSnippet <:+: src) →
    ∃ t b c u, exec (.compressLegacy src) s = .next t ∧ t.results = s.results ++ [.compressed c b] ∧
      exec (.decompress (.host c)) v = .next u ∧ u.results = v.results ++ [.decoded src .legacy 0#8]

/-- 41 R157: a source of at most 15608 bytes without a zero byte comes back from the buffer `COMPRESS_MODERN` returns, decoded
in any state with the same parameters, with `MODE = MODERN` and no flag. -/
def Obligations.ModernRoundTrip : Prop :=
  ∀ (s v : State) (src : ByteString), s.faulted = false → v.faulted = false → v.cfg = s.cfg → s.cfg.wf = true →
    src.length ≤ 15608 → 0#8 ∉ src →
    ∃ t b c u, exec (.compressModern src) s = .next t ∧ t.results = s.results ++ [.compressed c b] ∧
      exec (.decompress (.host c)) v = .next u ∧ u.results = v.results ++ [.decoded src .modern 0#8]

/-- 40 R116: a Legacy buffer has at least its header and at most two bytes a source byte, and each token encodes at least one
source byte, within the source. -/
def Obligations.LegacyBufferSize : Prop :=
  ∀ (c : Config) (src : ByteString), c.wf = true →
    8 ≤ (legacyEncode c src).length ∧ (legacyEncode c src).length ≤ 8 + 2 * src.length ∧
    ∀ pos b, src[pos]? = some b → 1 ≤ (legacyChoice c src pos b).2 ∧ pos + (legacyChoice c src pos b).2 ≤ src.length

/-- 41 R159: a Modern buffer has at most 8 bytes and 14 bits a source byte, so its length fits `CCOUNT`. -/
def Obligations.ModernBufferSize : Prop :=
  ∀ (c : Config) (src : ByteString), c.wf = true →
    (modernEncode c src).1.length ≤ 8 + (14 * src.length + 7) / 8 ∧
    (src.length ≤ 15608 → (modernEncode c src).1.length ≤ 27322)

/-- 42 R178: the chooser's buffer is no longer than either encoder's, and is one of the two. -/
def Obligations.ChooserIsNeverLonger : Prop :=
  ∀ (s t : State) (src code : ByteString) (m : Mode) (b : Byte), exec (.compressBest src) s = .next t →
    t.results.getLast? = some (.best code m b) →
    code.length ≤ (legacyEncode s.cfg src).length ∧ code.length ≤ (modernEncode s.cfg src).1.length ∧
    (code = legacyEncode s.cfg src ∨ code = (modernEncode s.cfg src).1)

/-- 40 R110, R111: the Legacy search finds a true match within 3135 bytes back and 17 long that ends before the position; no
other offset has a longer one, and no nearer offset one as long. It finds none only where no byte in the window is the byte at
the position. -/
def Obligations.LegacySearchFindsNearestLongest : Prop :=
  ∀ (src : ByteString) (pos l o : Nat), pos < src.length → legacySearch src pos = (l, o) →
    (l = 0 → o = 0 ∧ ∀ o', 1 ≤ o' → o' ≤ min pos 3135 → src[pos - o']? ≠ src[pos]?) ∧
    (0 < l →
      1 ≤ o ∧ o ≤ min pos 3135 ∧ l ≤ 17 ∧ l ≤ o ∧ pos + l ≤ src.length ∧
      (∀ i < l, src[pos - o + i]? = src[pos + i]?) ∧
      ∀ o' l', 1 ≤ o' → o' ≤ min pos 3135 → l' ≤ 17 → l' ≤ o' → pos + l' ≤ src.length →
        (∀ i < l', src[pos - o' + i]? = src[pos + i]?) → l' ≤ l ∧ (l' = l → o ≤ o'))

/-- 41 R151: the Modern search finds a true match within 32768 bytes back, possibly overlapping the position; no other offset
has a longer one, and no nearer offset one as long. It finds none only where no byte in the window is the byte at the
position. -/
def Obligations.ModernSearchFindsNearestLongest : Prop :=
  ∀ (src : ByteString) (pos l o : Nat), pos < src.length → modernSearch src pos = (l, o) →
    (l = 0 → o = 0 ∧ ∀ o', 1 ≤ o' → o' ≤ min pos 32768 → src[pos - o']? ≠ src[pos]?) ∧
    (0 < l →
      1 ≤ o ∧ o ≤ min pos 32768 ∧ pos + l ≤ src.length ∧
      (∀ i < l, src[pos - o + i]? = src[pos + i]?) ∧
      ∀ o' l', 1 ≤ o' → o' ≤ min pos 32768 → pos + l' ≤ src.length →
        (∀ i < l', src[pos - o' + i]? = src[pos + i]?) → l' ≤ l ∧ (l' = l → o ≤ o'))

/-! ## .bin, PNG -/

/-- 43 R207 with a valid cache: refused outside `COMPRESS_BEST`'s domain; else the image is ROM up to the code region, the
chooser's buffer, the version; `MODE`, ROM, LABEL and the cache stay. -/
def Obligations.BinAssembleFromCache : Prop :=
  ∀ (s : State) (ver : Nat), s.faulted = false → ver < 256 → s.cacheValid = true →
    (15608 < s.cache.length → exec (.binAssemble ver) s = .refused .sourceTooLong) ∧
    (s.cache.length ≤ 15608 → 0#8 ∈ s.cache → exec (.binAssemble ver) s = .refused .sourceHasZero) ∧
    (s.cache.length ≤ 15608 → 0#8 ∉ s.cache →
      ∃ t, exec (.binAssemble ver) s = .next t ∧
        t.status = (if 15616 < (chooseBest s.cfg s.cache).2.length then 0x08#8 else 0#8) ∧
        t = { s with
          out := t.out, mtf := t.mtf, status := t.status
          pos := t.pos, bestLen := t.bestLen, bestOff := t.bestOff, wb := t.wb, freeCtr := t.freeCtr
          results := s.results ++
            [.image (s.rom.slice 0 0x4300 ++ (chooseBest s.cfg s.cache).2 ++ [byteOf ver]) t.status] })

/-- 43 R207, 42 R174 without a valid cache: the source is what `DECOMPRESS(REGION)` would return, its flags accumulate, it is
kept in the cache, and `MODE`, ROM, LABEL and the fault registers stay; outside the chooser's domain the command is refused. -/
def Obligations.BinAssembleDecodesTheRegion : Prop :=
  ∀ (s u : State) (ver : Nat), s.faulted = false → ver < 256 → s.cacheValid = false → s.stage = .idle →
    exec (.decompress .region) s = .next u →
    (15608 < u.out.length → exec (.binAssemble ver) s = .refused .sourceTooLong) ∧
    (u.out.length ≤ 15608 → 0#8 ∈ u.out → exec (.binAssemble ver) s = .refused .sourceHasZero) ∧
    (u.out.length ≤ 15608 → 0#8 ∉ u.out →
      ∃ t, exec (.binAssemble ver) s = .next t ∧
        t.status = u.status ||| (if 15616 < (chooseBest s.cfg u.out).2.length then 0x08#8 else 0#8) ∧
        t = { s with
          ip := t.ip, bitpos := t.bitpos, inbuf := t.inbuf, inlen := t.inlen, declen := t.declen, out := t.out
          outlen := t.outlen, mtf := t.mtf, status := t.status, cache := u.out, cacheValid := true
          pos := t.pos, bestLen := t.bestLen, bestOff := t.bestOff, wb := t.wb, freeCtr := t.freeCtr
          results := s.results ++
            [.image (s.rom.slice 0 0x4300 ++ (chooseBest s.cfg u.out).2 ++ [byteOf ver]) t.status] })

/-- 43 R218 (a): `BIN_ASSEMBLE` twice on an unmodified cartridge returns the same bytes. -/
def Obligations.BinAssembleTwiceIsTheSame : Prop :=
  ∀ (s t : State) (ver : Nat), exec (.binAssemble ver) s = .next t →
    ∃ u bytes b b', exec (.binAssemble ver) t = .next u ∧
      t.results.getLast? = some (.image bytes b) ∧ u.results.getLast? = some (.image bytes b')

/-- 43 R209, R213: a pixel buffer of the wrong length is refused; one with fewer than 0x8001 pixels fails with `FNR` and
changes nothing else. -/
def Obligations.SmallOrMalformedImagesAreRejected : Prop :=
  ∀ (s : State) (w h ver : Nat) (p : ByteString), s.faulted = false → w < 65536 → h < 65536 → ver < 256 →
    (p.length ≠ 4 * w * h →
      exec (.pngUnpack w h p) s = .refused .pixelBufferLength ∧
      exec (.pngPack w h p ver) s = .refused .pixelBufferLength) ∧
    (p.length = 4 * w * h → w * h < 0x8001 →
      exec (.pngUnpack w h p) s = .next { s with status := 0x01#8, results := s.results ++ [.failed 0x01#8] } ∧
      exec (.pngPack w h p ver) s = .next { s with status := 0x01#8, results := s.results ++ [.failed 0x01#8] })

/-- 43 R210, R211, R208, R212: `PNG_UNPACK` of a large enough buffer fills `ROM` from the low two bits of the channels, returns
the version byte, clears `CACHE_VALID`, and fills `LABEL` from the rectangle by nearest colour when it fits, else with zeros.
Nothing else changes but `STATUS` (0). -/
def Obligations.PngUnpackReadsThePayload : Prop :=
  ∀ (s : State) (w h : Nat) (p : ByteString), s.faulted = false → s.cfg.wf = true → w < 65536 → h < 65536 →
    p.length = 4 * w * h → 0x8001 ≤ w * h →
    ∃ t ver, exec (.pngUnpack w h p) s = .next t ∧
      t = { s with
        rom := t.rom, label := t.label, cacheValid := false, status := 0#8
        results := s.results ++ [.unpacked ver 0#8] } ∧
      (∀ i r g b a, i ≤ 0x8000 → p[4 * i]? = some r → p[4 * i + 1]? = some g → p[4 * i + 2]? = some b →
        p[4 * i + 3]? = some a →
        (if i < 0x8000 then t.rom.read i else ver).toNat =
          a.toNat % 4 * 64 + r.toNat % 4 * 16 + g.toNat % 4 * 4 + b.toNat % 4) ∧
      (∀ i, 0x8000 ≤ i → t.rom.read i = 0#8) ∧
      (∀ x y q r g b, x < 128 → y < 128 → s.cfg.labelX + 128 ≤ w → s.cfg.labelY + 128 ≤ h →
        q = (s.cfg.labelY + y) * w + s.cfg.labelX + x →
        p[4 * q]? = some r → p[4 * q + 1]? = some g → p[4 * q + 2]? = some b →
        (labelPixel t.label x y).toNat = nearest s.cfg.palette r g b) ∧
      (¬ (s.cfg.labelX + 128 ≤ w ∧ s.cfg.labelY + 128 ≤ h) → ∀ a, t.label.read a = 0#8)

/-- 43 R216: `Nearest` is an index of the palette with the least squared distance, and the lowest such index. -/
def Obligations.NearestIsLowestClosest : Prop :=
  ∀ (pal : List Rgb) (r g b : Byte) (i : Nat) (c : Rgb), pal[i]? = some c →
    ∃ n, pal[nearest pal r g b]? = some n ∧
      colourDist r g b n ≤ colourDist r g b c ∧
      (colourDist r g b n = colourDist r g b c → nearest pal r g b ≤ i)

/-- 43 R213, R214, R217, 70 R297: `PNG_PACK` changes no state but `STATUS` (0) and returns a buffer in which, at each payload
pixel, the low two bits are the payload's and the upper six the template's, or in the label rectangle the palette colour's;
pixels that are neither are the template's. (`W` and `H` of 16 bits, `ver` of 8: the model's choice, log 29.) -/
def Obligations.PngPackEmbedsThePayload : Prop :=
  ∀ (s : State) (w h ver : Nat) (p : ByteString), s.faulted = false → s.cfg.wf = true → w < 65536 → h < 65536 → ver < 256 →
    p.length = 4 * w * h → 0x8001 ≤ w * h →
    ∃ q, exec (.pngPack w h p ver) s = .next { s with status := 0#8, results := s.results ++ [.packed q 0#8] } ∧
      q.length = p.length ∧
      ∀ i px, (toPixels p)[i]? = some px →
        ∃ base, (toPixels q)[i]? = some (if i ≤ 0x8000 then
            embedByte (if i < 0x8000 then s.rom.read i else byteOf ver) base else base) ∧
          (∀ x y c, x < 128 → y < 128 → s.cfg.labelX + 128 ≤ w → s.cfg.labelY + 128 ≤ h →
            i = (s.cfg.labelY + y) * w + s.cfg.labelX + x →
            s.cfg.palette[(labelPixel s.label x y).toNat]? = some c → base = ⟨c.r, c.g, c.b, 0xff#8⟩) ∧
          ((¬ (s.cfg.labelX + 128 ≤ w ∧ s.cfg.labelY + 128 ≤ h) ∨
            ¬ (s.cfg.labelX ≤ i % w ∧ i % w < s.cfg.labelX + 128 ∧
              s.cfg.labelY ≤ i / w ∧ i / w < s.cfg.labelY + 128)) → base = px)

/-- 43 R219: unpacking a packed buffer restores `ROM` and the version, whatever the palette, and with the default palette `LABEL`
when the rectangle fits; an all-zero `ROM` packed with version 0 leaves the low two bits of every channel of the payload pixels
zero. (`W` and `H` have the 16 bits R84 gives `PNG_UNPACK`; for `PNG_PACK` they and the 8 bits of `ver` are log 29.) -/
def Obligations.PngRoundTrip : Prop :=
  ∀ (s u : State) (w h ver : Nat) (p : ByteString), s.faulted = false → u.faulted = false → u.cfg = s.cfg →
    w < 65536 → h < 65536 → ver < 256 → p.length = 4 * w * h → 0x8001 ≤ w * h →
    ∃ q t, exec (.pngPack w h p ver) s = .next { s with status := 0#8, results := s.results ++ [.packed q 0#8] } ∧
      exec (.pngUnpack w h q) u = .next t ∧
      (∀ a, a < 0x8000 → t.rom.read a = s.rom.read a) ∧ t.results = u.results ++ [.unpacked (byteOf ver) 0#8] ∧
      (s.cfg.palette = defaultPalette → s.cfg.labelX + 128 ≤ w → s.cfg.labelY + 128 ≤ h →
        ∀ a, a < 0x2000 → t.label.read a = s.label.read a) ∧
      (ver = 0 → (∀ a, s.rom.read a = 0#8) → ∀ i px, i ≤ 0x8000 → (toPixels q)[i]? = some px →
        px.r.toNat % 4 = 0 ∧ px.g.toNat % 4 = 0 ∧ px.b.toNat % 4 = 0 ∧ px.a.toNat % 4 = 0)

/-! ## The text codec -/

/-- 44 R230, R232: a text whose line 0 lacks the header phrase, or an empty one, fails with `FNR` and changes nothing else. -/
def Obligations.TextWithoutHeaderFails : Prop :=
  ∀ (s : State) (t : ByteString), s.faulted = false →
    (t = [] ∨ ∀ l, (rawLines t).head? = some l → ¬ s.cfg.headerPhrase <:+: lineText l) →
    exec (.textParse t) s = .next { s with status := 0x01#8, results := s.results ++ [.failed 0x01#8] }

/-- 44 R230, R235: a text with its header completes: `ROM` and `LABEL` zeroed and the cache emptied, then the rule of each
section applied in the order of appearance; nothing else changes. 44 R243: `STL` is set exactly when a section's bytes exceed
its capacity, and no other flag can be. 44 R241: the cache is the last code section, of any length (log 16), empty without one,
and the code region reads zero. -/
def Obligations.TextParseCompletes : Prop :=
  ∀ (s : State) (t l : ByteString) (secs : List (SectionKind × ByteString)), s.faulted = false →
    (rawLines t).head? = some l → s.cfg.headerPhrase <:+: lineText l → (splitSections s.cfg (rawLines t)).2 = secs →
    ∃ u, exec (.textParse t) s = .next u ∧
      u = { applySections secs (clearForText s.cleared) with results := s.results ++ [.parsed u.status] } ∧
      (∀ a, (clearForText s.cleared).rom.read a = 0#8 ∧ (clearForText s.cleared).label.read a = 0#8) ∧
      u = { s with
        rom := u.rom, label := u.label, cache := u.cache, cacheValid := true, status := u.status
        results := s.results ++ [.parsed u.status] } ∧
      (u.status = 0#8 ∨ u.status = 0x02#8) ∧
      (u.status = 0x02#8 ↔
        ∃ (k : SectionKind) (content : ByteString) (capacity : Nat), (k, content) ∈ secs ∧
          (k, capacity) ∈ [(.graphics, 0x2000), (.map, 0x2000), (.label, 0x2000), (.flags, 0x100), (.music, 320),
            (.sound, 5376)] ∧
          capacity < (hexBytes false content).length) ∧
      (∀ pre content post, secs = pre ++ (.code, content) :: post → (∀ sec ∈ post, sec.1 ≠ .code) → u.cache = content) ∧
      ((∀ sec ∈ secs, sec.1 ≠ .code) → u.cache = []) ∧
      ∀ a, 0x4300 ≤ a → u.rom.read a = 0#8

/-- 44 R237, 70 R298: the graphics and the map section leave the same state in either order. -/
def Obligations.GraphicsAndMapOrderIsImmaterial : Prop :=
  ∀ (s : State) (gfx map : ByteString), s.rom.wf = true →
    applyGraphics gfx (applyMap map s) = applyMap map (applyGraphics gfx s)

/-- 44 R239, R253, 43 R220: the text of a music line parses back to the four bytes of its song entry. 44 R240, R252, 43 R221: the
text of a sound line parses back to the 68 bytes of its sfx entry. -/
def Obligations.MusicAndSoundLinesParseBack : Prop :=
  (∀ (s : State) (e : Nat), e < 64 → songBytes (hexBytes false (musicLine s e).text) = songEntry s e) ∧
  ∀ (s : State) (e : Nat), e < 64 → sfxBytes 1 (hexBytes false (sfxLine s e).text) = sfxEntry s e

/-- 44 R244, R246: with a valid cache `TEXT_SERIALIZE` completes, whatever the memories hold, and changes nothing but `STATUS`
(0); with no source and both memories zero its text is the header line and the version line only. -/
def Obligations.TextSerializeFromCache : Prop :=
  ∀ (s : State) (ver : Nat), s.faulted = false → ver < 256 → s.cacheValid = true →
    exec (.textSerialize ver) s = .next { s with
      status := 0#8, results := s.results ++ [.text (serializeText s s.cache ver) 0#8] } ∧
    (s.cache = [] → (∀ a, s.rom.read a = 0#8 ∧ s.label.read a = 0#8) →
      serializeText s s.cache ver =
        s.cfg.headerPhrase ++ [0x0a#8] ++ versionWord ++ decimal ver ++ [0x0a#8])

/-- 44 R244, 42 R174: without a valid cache, where no raw escape can stand, `TEXT_SERIALIZE` completes: it decodes the region as
`DECOMPRESS(REGION)` does, accumulates its flags and keeps its source in the cache; `MODE`, ROM, LABEL, the fault and the encoder
registers stay. -/
def Obligations.TextSerializeDecodesTheRegion : Prop :=
  ∀ (s : State) (ver : Nat), s.faulted = false → ver < 256 → s.cacheValid = false → s.stage = .idle →
    (s.cfg.modernRawEscape = false ∨ detect s.cfg (codeRegion s) ≠ .modern) →
    ∃ t u, exec (.decompress .region) s = .next u ∧ exec (.textSerialize ver) s = .next t ∧
      t.status = u.status ∧
      t = { s with
        ip := t.ip, bitpos := t.bitpos, inbuf := t.inbuf, inlen := t.inlen, declen := t.declen, out := t.out
        outlen := t.outlen, mtf := t.mtf, status := t.status, cache := u.out, cacheValid := true
        results := s.results ++ [.text (serializeText s u.out ver) t.status] }

/-- 44 R254, for a source none of whose lines is a marker (with one, the text splits and the memories may differ): parsing the
serialized text restores ROM below the code region and LABEL, leaves the code region zero, and puts the source into the cache,
with a line end appended when it is not empty and lacks one. -/
def Obligations.TextRoundTrip : Prop :=
  ∀ (s u : State) (ver : Nat), s.faulted = false → u.faulted = false → ver < 256 → s.cacheValid = true → u.cfg = s.cfg →
    s.cfg.headerPhrase = defaultConfig.headerPhrase → s.cfg.markers = defaultConfig.markers →
    (∀ l ∈ rawLines s.cache, markerOf s.cfg l = none) →
    ∃ t v, exec (.textSerialize ver) s = .next t ∧
      t.results = s.results ++ [.text (serializeText s s.cache ver) 0#8] ∧
      exec (.textParse (serializeText s s.cache ver)) u = .next v ∧
      (∀ a, a < 0x4300 → v.rom.read a = s.rom.read a) ∧ (∀ a, 0x4300 ≤ a → v.rom.read a = 0#8) ∧
      (∀ a, a < 0x2000 → v.label.read a = s.label.read a) ∧
      v.cache = (if s.cache = [] ∨ s.cache.getLast? = some 0x0a#8 then s.cache else s.cache ++ [0x0a#8])

/-! ## The machine -/

/-- A step runs the decoded instruction: a host message that decodes is run by `exec` in the state without it; a Legacy or
Modern token that decodes ahead of `IP` or `BITPOS` is run by `exec` in the same state (40 R101, 41 R139, 30 R84). -/
def Obligations.StepRunsTheDecodedInstruction : Prop :=
  (∀ (s : State) (m : ByteString) (rest : List HostEvent) (i : Instr),
    s.stage = .idle → s.port = .command m :: rest → s.faulted = false → decodeCommand m = .ok i →
    step s = exec i { s with port := rest }) ∧
  (∀ (s : State) (i : Instr) (rest : ByteString), InToken .legacy s →
    decodeLegacy (legacyAhead s) = .ok (i, rest) → step s = exec i s) ∧
  (∀ (s : State) (i : Instr) (rest : List Bool), InToken .modern s →
    decodeModern (modernAhead s) = .ok (i, rest) → step s = exec i s)

/-- 40 R101, R103, R104, 41 R131, R139: with the output budget met the loop ends with no flag and nothing read; with a token cut
short by the end of the stream it ends with `TRUNC` (Modern: every bit of the budget read, log 21) and appends nothing. -/
def Obligations.LoopEndsAtItsBudgets : Prop :=
  (∀ (s : State) (form : Form) (o : Origin), s.stage = .decoding form o → form ≠ .raw → s.declen.toNat ≤ s.outlen.toNat →
    step s = .next { s with stage := .ended form o }) ∧
  (∀ (s : State) (o : Origin), s.stage = .decoding .legacy o → s.outlen.toNat < s.declen.toNat →
    (s.inlen.toNat ≤ s.ip.toNat ∨
      s.inlen.toNat = s.ip.toNat + 1 ∧ ∀ b, s.inbuf[s.ip.toNat]? = some b → b = 0#8 ∨ 0x3c ≤ b.toNat) →
    step s = .next { s with status := s.status ||| 0x10#8, stage := .ended .legacy o }) ∧
  (∀ (s : State) (o : Origin) (e : DecodeError), s.stage = .decoding .modern o → s.outlen.toNat < s.declen.toNat →
    (s.cfg.modernRawEscape = true → escapeAhead (modernAhead s) = false) → s.bitpos.toNat ≤ 8 * s.inlen.toNat →
    decodeModern (modernAhead s) = .error e →
    step s = .next { s with
      bitpos := bitIndexOf (8 * s.inlen.toNat), status := s.status ||| 0x10#8, stage := .ended .modern o })

/-- 10 R37, 70 R290: reset leaves every piece of the spec's state at its reset value, as a state and as an event (the encoder
registers, the parameters and the model's own fields are the model's choice, log 1, log 4, log 7, log 11, log 23), and the
invariant holds. -/
def Obligations.ResetStateAndInvariant : Prop :=
  State.reset.Inv ∧
  (∀ a, State.reset.rom.read a = 0#8 ∧ State.reset.label.read a = 0#8) ∧
  State.reset.ip = 0#16 ∧ State.reset.bitpos = 0#19 ∧ State.reset.inlen = 0#16 ∧ State.reset.declen = 0#16 ∧
  State.reset.outlen = 0#16 ∧ State.reset.inbuf = [] ∧ State.reset.out = [] ∧ State.reset.mode.code = 0#2 ∧
  State.reset.status = 0#8 ∧ State.reset.faulted = false ∧ State.reset.fcause = 0#4 ∧ State.reset.faddr = 0#16 ∧
  (∀ i < 256, State.reset.mtf[i]? = some (byteOf i)) ∧ State.reset.cache = [] ∧ State.reset.cacheValid = false ∧
  ∀ (s : State) (rest : List HostEvent), s.stage = .idle → s.port = .reset :: rest →
    step s = .next { State.reset with cfg := s.cfg, port := rest, freeCtr := s.freeCtr }

/-- From every state that meets the invariant a step leads to one that meets it: canonical memories within their bounds, `MTF` a
permutation, the reserved bit of `STATUS` 0, a legal fault cause, the decode registers in step (10 R22 to R30; 60 R260). 10 R31:
the step keeps `CACHE` within 65535 bytes, too, unless it is a `TEXT_PARSE` of a longer code section (44 R241; log 16). -/
def Obligations.StepKeepsTheInvariant : Prop :=
  ∀ s t : State, s.Inv → step s = .next t →
    t.Inv ∧ (s.cache.length ≤ 65535 → t.cache.length ≤ 65535 ∨ ParsesLongCode s)

/-- 10 R30: `MTF` is a permutation of 0..255 after every step from a state in which it is one. -/
def Obligations.MtfStaysAPermutation : Prop :=
  ∀ s t : State, s.mtf.Perm identityMtf → step s = .next t → t.mtf.Perm identityMtf

/-- 70 R291, 60 R265: reset is the only event that clears the fault registers: a step that takes no reset event leaves a faulted
state's `FAULTED`, `FCAUSE` and `FADDR` as they are; the reset event clears them. -/
def Obligations.OnlyResetClearsTheFault : Prop :=
  (∀ s t : State, s.faulted = true → (s.stage ≠ .idle ∨ s.port.head? ≠ some .reset) → step s = .next t →
    t.faulted = true ∧ t.fcause = s.fcause ∧ t.faddr = s.faddr) ∧
  (∀ (s : State) (rest : List HostEvent), s.stage = .idle → s.port = .reset :: rest →
    ∃ t, step s = .next t ∧ t.faulted = false ∧ t.fcause = 0#4 ∧ t.faddr = 0#16)

/-- 10 R27: the values of `MODE`; `DECOMPRESS` writes the detected form, `COMPRESS_LEGACY` and `COMPRESS_MODERN` their own,
`COMPRESS_BEST` the form it returns; no other instruction writes it. -/
def Obligations.ModeIsWrittenByTheCodecCommands : Prop :=
  (Mode.none.code = 0#2 ∧ Mode.raw.code = 1#2 ∧ Mode.legacy.code = 2#2 ∧ Mode.modern.code = 3#2) ∧
  ∀ (i : Instr) (s t : State), exec i s = .next t →
    (∀ src, i = .decompress src → t.mode = (detect s.cfg (sourceBuffer src s).2).mode) ∧
    (∀ src, i = .compressLegacy src → t.mode = .legacy) ∧
    (∀ src, i = .compressModern src → t.mode = .modern) ∧
    (∀ src, i = .compressBest src → t.mode = (chooseBest s.cfg src).1.mode ∧
      ∃ b, t.results = s.results ++ [.best (chooseBest s.cfg src).2 t.mode b]) ∧
    ((∀ src, i ≠ .decompress src) → (∀ src, i ≠ .compressLegacy src) → (∀ src, i ≠ .compressModern src) →
      (∀ src, i ≠ .compressBest src) → t.mode = s.mode)

/-- 60 R270: a `DECOMPRESS` ends with at most one of `TRUNC`, `CLIT`, `ENDMARK`, and sets none of `FNR`, `STL`, `OCO` (42 R170). -/
def Obligations.DecodeEndsWithOneReason : Prop :=
  ∀ (s t : State) (src : Source), exec (.decompress src) s = .next t →
    ¬ (hasFlag .trunc t = true ∧ hasFlag .clit t = true) ∧ ¬ (hasFlag .trunc t = true ∧ hasFlag .endmark t = true) ∧
    ¬ (hasFlag .clit t = true ∧ hasFlag .endmark t = true) ∧
    hasFlag .fnr t = false ∧ hasFlag .stl t = false ∧ hasFlag .oco t = false

/-- 00 R12, 10 R32: no step writes the parameters and constant tables. -/
def Obligations.ParametersAreReadOnly : Prop :=
  ∀ s t : State, step s = .next t → t.cfg = s.cfg

/-- 40 R101, 41 R139, 42 R170: a `DECOMPRESS`, one step, leaves what its decode leaves when it is stepped token by token from its
set-up (the model's stage, log 7). -/
def Obligations.DecompressIsItsTokensStepped : Prop :=
  ∀ (s t : State) (src : Source), exec (.decompress src) s = .next t →
    ∃ n, Host.Core.run Sys2Proof.core n (beginDecompress src s.cleared) = .next t
end

