-- ==== Sys2Proof/Laws/State.lean ====
section
/-! SUPPORT. One lemma per field per shared update of the state, true by `rfl`, so that no proof unfolds a record update. -/

namespace Sys2Proof.Machine

open Sys2Proof

/-! ### setFlag: setting a diagnostic flag (10 R28) -/

@[simp] theorem setFlag_rom (f : Flag) (s : State) : (setFlag f s).rom = s.rom := rfl
@[simp] theorem setFlag_label (f : Flag) (s : State) : (setFlag f s).label = s.label := rfl
@[simp] theorem setFlag_ip (f : Flag) (s : State) : (setFlag f s).ip = s.ip := rfl
@[simp] theorem setFlag_bitpos (f : Flag) (s : State) : (setFlag f s).bitpos = s.bitpos := rfl
@[simp] theorem setFlag_inbuf (f : Flag) (s : State) : (setFlag f s).inbuf = s.inbuf := rfl
@[simp] theorem setFlag_inlen (f : Flag) (s : State) : (setFlag f s).inlen = s.inlen := rfl
@[simp] theorem setFlag_declen (f : Flag) (s : State) : (setFlag f s).declen = s.declen := rfl
@[simp] theorem setFlag_out (f : Flag) (s : State) : (setFlag f s).out = s.out := rfl
@[simp] theorem setFlag_outlen (f : Flag) (s : State) : (setFlag f s).outlen = s.outlen := rfl
@[simp] theorem setFlag_mode (f : Flag) (s : State) : (setFlag f s).mode = s.mode := rfl
@[simp] theorem setFlag_status (f : Flag) (s : State) : (setFlag f s).status = s.status ||| f.mask := rfl
@[simp] theorem setFlag_faulted (f : Flag) (s : State) : (setFlag f s).faulted = s.faulted := rfl
@[simp] theorem setFlag_fcause (f : Flag) (s : State) : (setFlag f s).fcause = s.fcause := rfl
@[simp] theorem setFlag_faddr (f : Flag) (s : State) : (setFlag f s).faddr = s.faddr := rfl
@[simp] theorem setFlag_mtf (f : Flag) (s : State) : (setFlag f s).mtf = s.mtf := rfl
@[simp] theorem setFlag_cache (f : Flag) (s : State) : (setFlag f s).cache = s.cache := rfl
@[simp] theorem setFlag_cacheValid (f : Flag) (s : State) : (setFlag f s).cacheValid = s.cacheValid := rfl
@[simp] theorem setFlag_pos (f : Flag) (s : State) : (setFlag f s).pos = s.pos := rfl
@[simp] theorem setFlag_bestLen (f : Flag) (s : State) : (setFlag f s).bestLen = s.bestLen := rfl
@[simp] theorem setFlag_bestOff (f : Flag) (s : State) : (setFlag f s).bestOff = s.bestOff := rfl
@[simp] theorem setFlag_wb (f : Flag) (s : State) : (setFlag f s).wb = s.wb := rfl
@[simp] theorem setFlag_cfg (f : Flag) (s : State) : (setFlag f s).cfg = s.cfg := rfl
@[simp] theorem setFlag_port (f : Flag) (s : State) : (setFlag f s).port = s.port := rfl
@[simp] theorem setFlag_results (f : Flag) (s : State) : (setFlag f s).results = s.results := rfl
@[simp] theorem setFlag_stage (f : Flag) (s : State) : (setFlag f s).stage = s.stage := rfl
@[simp] theorem setFlag_freeCtr (f : Flag) (s : State) : (setFlag f s).freeCtr = s.freeCtr := rfl

/-! ### endLoop: ending the decode loop -/

@[simp] theorem endLoop_rom (s : State) : (endLoop s).rom = s.rom := rfl
@[simp] theorem endLoop_label (s : State) : (endLoop s).label = s.label := rfl
@[simp] theorem endLoop_ip (s : State) : (endLoop s).ip = s.ip := rfl
@[simp] theorem endLoop_bitpos (s : State) : (endLoop s).bitpos = s.bitpos := rfl
@[simp] theorem endLoop_inbuf (s : State) : (endLoop s).inbuf = s.inbuf := rfl
@[simp] theorem endLoop_inlen (s : State) : (endLoop s).inlen = s.inlen := rfl
@[simp] theorem endLoop_declen (s : State) : (endLoop s).declen = s.declen := rfl
@[simp] theorem endLoop_out (s : State) : (endLoop s).out = s.out := rfl
@[simp] theorem endLoop_outlen (s : State) : (endLoop s).outlen = s.outlen := rfl
@[simp] theorem endLoop_mode (s : State) : (endLoop s).mode = s.mode := rfl
@[simp] theorem endLoop_status (s : State) : (endLoop s).status = s.status := rfl
@[simp] theorem endLoop_faulted (s : State) : (endLoop s).faulted = s.faulted := rfl
@[simp] theorem endLoop_fcause (s : State) : (endLoop s).fcause = s.fcause := rfl
@[simp] theorem endLoop_faddr (s : State) : (endLoop s).faddr = s.faddr := rfl
@[simp] theorem endLoop_mtf (s : State) : (endLoop s).mtf = s.mtf := rfl
@[simp] theorem endLoop_cache (s : State) : (endLoop s).cache = s.cache := rfl
@[simp] theorem endLoop_cacheValid (s : State) : (endLoop s).cacheValid = s.cacheValid := rfl
@[simp] theorem endLoop_pos (s : State) : (endLoop s).pos = s.pos := rfl
@[simp] theorem endLoop_bestLen (s : State) : (endLoop s).bestLen = s.bestLen := rfl
@[simp] theorem endLoop_bestOff (s : State) : (endLoop s).bestOff = s.bestOff := rfl
@[simp] theorem endLoop_wb (s : State) : (endLoop s).wb = s.wb := rfl
@[simp] theorem endLoop_cfg (s : State) : (endLoop s).cfg = s.cfg := rfl
@[simp] theorem endLoop_port (s : State) : (endLoop s).port = s.port := rfl
@[simp] theorem endLoop_results (s : State) : (endLoop s).results = s.results := rfl
@[simp] theorem endLoop_stage (s : State) : (endLoop s).stage = s.stage.stopped := rfl
@[simp] theorem endLoop_freeCtr (s : State) : (endLoop s).freeCtr = s.freeCtr := rfl

/-! ### stop: `stop(X)` (00 R11) -/

@[simp] theorem stop_rom (f : Flag) (s : State) : (stop f s).rom = s.rom := rfl
@[simp] theorem stop_label (f : Flag) (s : State) : (stop f s).label = s.label := rfl
@[simp] theorem stop_ip (f : Flag) (s : State) : (stop f s).ip = s.ip := rfl
@[simp] theorem stop_bitpos (f : Flag) (s : State) : (stop f s).bitpos = s.bitpos := rfl
@[simp] theorem stop_inbuf (f : Flag) (s : State) : (stop f s).inbuf = s.inbuf := rfl
@[simp] theorem stop_inlen (f : Flag) (s : State) : (stop f s).inlen = s.inlen := rfl
@[simp] theorem stop_declen (f : Flag) (s : State) : (stop f s).declen = s.declen := rfl
@[simp] theorem stop_out (f : Flag) (s : State) : (stop f s).out = s.out := rfl
@[simp] theorem stop_outlen (f : Flag) (s : State) : (stop f s).outlen = s.outlen := rfl
@[simp] theorem stop_mode (f : Flag) (s : State) : (stop f s).mode = s.mode := rfl
@[simp] theorem stop_status (f : Flag) (s : State) : (stop f s).status = s.status ||| f.mask := rfl
@[simp] theorem stop_faulted (f : Flag) (s : State) : (stop f s).faulted = s.faulted := rfl
@[simp] theorem stop_fcause (f : Flag) (s : State) : (stop f s).fcause = s.fcause := rfl
@[simp] theorem stop_faddr (f : Flag) (s : State) : (stop f s).faddr = s.faddr := rfl
@[simp] theorem stop_mtf (f : Flag) (s : State) : (stop f s).mtf = s.mtf := rfl
@[simp] theorem stop_cache (f : Flag) (s : State) : (stop f s).cache = s.cache := rfl
@[simp] theorem stop_cacheValid (f : Flag) (s : State) : (stop f s).cacheValid = s.cacheValid := rfl
@[simp] theorem stop_pos (f : Flag) (s : State) : (stop f s).pos = s.pos := rfl
@[simp] theorem stop_bestLen (f : Flag) (s : State) : (stop f s).bestLen = s.bestLen := rfl
@[simp] theorem stop_bestOff (f : Flag) (s : State) : (stop f s).bestOff = s.bestOff := rfl
@[simp] theorem stop_wb (f : Flag) (s : State) : (stop f s).wb = s.wb := rfl
@[simp] theorem stop_cfg (f : Flag) (s : State) : (stop f s).cfg = s.cfg := rfl
@[simp] theorem stop_port (f : Flag) (s : State) : (stop f s).port = s.port := rfl
@[simp] theorem stop_results (f : Flag) (s : State) : (stop f s).results = s.results := rfl
@[simp] theorem stop_stage (f : Flag) (s : State) : (stop f s).stage = s.stage.stopped := rfl
@[simp] theorem stop_freeCtr (f : Flag) (s : State) : (stop f s).freeCtr = s.freeCtr := rfl

/-! ### respond: returning a result -/

@[simp] theorem respond_rom (r : Result) (s : State) : (respond r s).rom = s.rom := rfl
@[simp] theorem respond_label (r : Result) (s : State) : (respond r s).label = s.label := rfl
@[simp] theorem respond_ip (r : Result) (s : State) : (respond r s).ip = s.ip := rfl
@[simp] theorem respond_bitpos (r : Result) (s : State) : (respond r s).bitpos = s.bitpos := rfl
@[simp] theorem respond_inbuf (r : Result) (s : State) : (respond r s).inbuf = s.inbuf := rfl
@[simp] theorem respond_inlen (r : Result) (s : State) : (respond r s).inlen = s.inlen := rfl
@[simp] theorem respond_declen (r : Result) (s : State) : (respond r s).declen = s.declen := rfl
@[simp] theorem respond_out (r : Result) (s : State) : (respond r s).out = s.out := rfl
@[simp] theorem respond_outlen (r : Result) (s : State) : (respond r s).outlen = s.outlen := rfl
@[simp] theorem respond_mode (r : Result) (s : State) : (respond r s).mode = s.mode := rfl
@[simp] theorem respond_status (r : Result) (s : State) : (respond r s).status = s.status := rfl
@[simp] theorem respond_faulted (r : Result) (s : State) : (respond r s).faulted = s.faulted := rfl
@[simp] theorem respond_fcause (r : Result) (s : State) : (respond r s).fcause = s.fcause := rfl
@[simp] theorem respond_faddr (r : Result) (s : State) : (respond r s).faddr = s.faddr := rfl
@[simp] theorem respond_mtf (r : Result) (s : State) : (respond r s).mtf = s.mtf := rfl
@[simp] theorem respond_cache (r : Result) (s : State) : (respond r s).cache = s.cache := rfl
@[simp] theorem respond_cacheValid (r : Result) (s : State) : (respond r s).cacheValid = s.cacheValid := rfl
@[simp] theorem respond_pos (r : Result) (s : State) : (respond r s).pos = s.pos := rfl
@[simp] theorem respond_bestLen (r : Result) (s : State) : (respond r s).bestLen = s.bestLen := rfl
@[simp] theorem respond_bestOff (r : Result) (s : State) : (respond r s).bestOff = s.bestOff := rfl
@[simp] theorem respond_wb (r : Result) (s : State) : (respond r s).wb = s.wb := rfl
@[simp] theorem respond_cfg (r : Result) (s : State) : (respond r s).cfg = s.cfg := rfl
@[simp] theorem respond_port (r : Result) (s : State) : (respond r s).port = s.port := rfl
@[simp] theorem respond_results (r : Result) (s : State) : (respond r s).results = s.results ++ [r] := rfl
@[simp] theorem respond_stage (r : Result) (s : State) : (respond r s).stage = s.stage := rfl
@[simp] theorem respond_freeCtr (r : Result) (s : State) : (respond r s).freeCtr = s.freeCtr := rfl

/-! ### append: `Append` (10 R26) -/

@[simp] theorem append_rom (v : Byte) (s : State) : (append v s).rom = s.rom := rfl
@[simp] theorem append_label (v : Byte) (s : State) : (append v s).label = s.label := rfl
@[simp] theorem append_ip (v : Byte) (s : State) : (append v s).ip = s.ip := rfl
@[simp] theorem append_bitpos (v : Byte) (s : State) : (append v s).bitpos = s.bitpos := rfl
@[simp] theorem append_inbuf (v : Byte) (s : State) : (append v s).inbuf = s.inbuf := rfl
@[simp] theorem append_inlen (v : Byte) (s : State) : (append v s).inlen = s.inlen := rfl
@[simp] theorem append_declen (v : Byte) (s : State) : (append v s).declen = s.declen := rfl
@[simp] theorem append_out (v : Byte) (s : State) : (append v s).out = s.out ++ [v] := rfl
@[simp] theorem append_outlen (v : Byte) (s : State) : (append v s).outlen = s.outlen + 1#16 := rfl
@[simp] theorem append_mode (v : Byte) (s : State) : (append v s).mode = s.mode := rfl
@[simp] theorem append_status (v : Byte) (s : State) : (append v s).status = s.status := rfl
@[simp] theorem append_faulted (v : Byte) (s : State) : (append v s).faulted = s.faulted := rfl
@[simp] theorem append_fcause (v : Byte) (s : State) : (append v s).fcause = s.fcause := rfl
@[simp] theorem append_faddr (v : Byte) (s : State) : (append v s).faddr = s.faddr := rfl
@[simp] theorem append_mtf (v : Byte) (s : State) : (append v s).mtf = s.mtf := rfl
@[simp] theorem append_cache (v : Byte) (s : State) : (append v s).cache = s.cache := rfl
@[simp] theorem append_cacheValid (v : Byte) (s : State) : (append v s).cacheValid = s.cacheValid := rfl
@[simp] theorem append_pos (v : Byte) (s : State) : (append v s).pos = s.pos := rfl
@[simp] theorem append_bestLen (v : Byte) (s : State) : (append v s).bestLen = s.bestLen := rfl
@[simp] theorem append_bestOff (v : Byte) (s : State) : (append v s).bestOff = s.bestOff := rfl
@[simp] theorem append_wb (v : Byte) (s : State) : (append v s).wb = s.wb := rfl
@[simp] theorem append_cfg (v : Byte) (s : State) : (append v s).cfg = s.cfg := rfl
@[simp] theorem append_port (v : Byte) (s : State) : (append v s).port = s.port := rfl
@[simp] theorem append_results (v : Byte) (s : State) : (append v s).results = s.results := rfl
@[simp] theorem append_stage (v : Byte) (s : State) : (append v s).stage = s.stage := rfl
@[simp] theorem append_freeCtr (v : Byte) (s : State) : (append v s).freeCtr = s.freeCtr := rfl

/-! ### advanceIp: advancing `IP` (10 R22) -/

@[simp] theorem advanceIp_rom (n : Nat) (s : State) : (advanceIp n s).rom = s.rom := rfl
@[simp] theorem advanceIp_label (n : Nat) (s : State) : (advanceIp n s).label = s.label := rfl
@[simp] theorem advanceIp_ip (n : Nat) (s : State) : (advanceIp n s).ip = s.ip + word16Of n := rfl
@[simp] theorem advanceIp_bitpos (n : Nat) (s : State) : (advanceIp n s).bitpos = s.bitpos := rfl
@[simp] theorem advanceIp_inbuf (n : Nat) (s : State) : (advanceIp n s).inbuf = s.inbuf := rfl
@[simp] theorem advanceIp_inlen (n : Nat) (s : State) : (advanceIp n s).inlen = s.inlen := rfl
@[simp] theorem advanceIp_declen (n : Nat) (s : State) : (advanceIp n s).declen = s.declen := rfl
@[simp] theorem advanceIp_out (n : Nat) (s : State) : (advanceIp n s).out = s.out := rfl
@[simp] theorem advanceIp_outlen (n : Nat) (s : State) : (advanceIp n s).outlen = s.outlen := rfl
@[simp] theorem advanceIp_mode (n : Nat) (s : State) : (advanceIp n s).mode = s.mode := rfl
@[simp] theorem advanceIp_status (n : Nat) (s : State) : (advanceIp n s).status = s.status := rfl
@[simp] theorem advanceIp_faulted (n : Nat) (s : State) : (advanceIp n s).faulted = s.faulted := rfl
@[simp] theorem advanceIp_fcause (n : Nat) (s : State) : (advanceIp n s).fcause = s.fcause := rfl
@[simp] theorem advanceIp_faddr (n : Nat) (s : State) : (advanceIp n s).faddr = s.faddr := rfl
@[simp] theorem advanceIp_mtf (n : Nat) (s : State) : (advanceIp n s).mtf = s.mtf := rfl
@[simp] theorem advanceIp_cache (n : Nat) (s : State) : (advanceIp n s).cache = s.cache := rfl
@[simp] theorem advanceIp_cacheValid (n : Nat) (s : State) : (advanceIp n s).cacheValid = s.cacheValid := rfl
@[simp] theorem advanceIp_pos (n : Nat) (s : State) : (advanceIp n s).pos = s.pos := rfl
@[simp] theorem advanceIp_bestLen (n : Nat) (s : State) : (advanceIp n s).bestLen = s.bestLen := rfl
@[simp] theorem advanceIp_bestOff (n : Nat) (s : State) : (advanceIp n s).bestOff = s.bestOff := rfl
@[simp] theorem advanceIp_wb (n : Nat) (s : State) : (advanceIp n s).wb = s.wb := rfl
@[simp] theorem advanceIp_cfg (n : Nat) (s : State) : (advanceIp n s).cfg = s.cfg := rfl
@[simp] theorem advanceIp_port (n : Nat) (s : State) : (advanceIp n s).port = s.port := rfl
@[simp] theorem advanceIp_results (n : Nat) (s : State) : (advanceIp n s).results = s.results := rfl
@[simp] theorem advanceIp_stage (n : Nat) (s : State) : (advanceIp n s).stage = s.stage := rfl
@[simp] theorem advanceIp_freeCtr (n : Nat) (s : State) : (advanceIp n s).freeCtr = s.freeCtr := rfl

/-! ### mtfInit: `MtfInit()` (41 R136) -/

@[simp] theorem mtfInit_rom (s : State) : (mtfInit s).rom = s.rom := rfl
@[simp] theorem mtfInit_label (s : State) : (mtfInit s).label = s.label := rfl
@[simp] theorem mtfInit_ip (s : State) : (mtfInit s).ip = s.ip := rfl
@[simp] theorem mtfInit_bitpos (s : State) : (mtfInit s).bitpos = s.bitpos := rfl
@[simp] theorem mtfInit_inbuf (s : State) : (mtfInit s).inbuf = s.inbuf := rfl
@[simp] theorem mtfInit_inlen (s : State) : (mtfInit s).inlen = s.inlen := rfl
@[simp] theorem mtfInit_declen (s : State) : (mtfInit s).declen = s.declen := rfl
@[simp] theorem mtfInit_out (s : State) : (mtfInit s).out = s.out := rfl
@[simp] theorem mtfInit_outlen (s : State) : (mtfInit s).outlen = s.outlen := rfl
@[simp] theorem mtfInit_mode (s : State) : (mtfInit s).mode = s.mode := rfl
@[simp] theorem mtfInit_status (s : State) : (mtfInit s).status = s.status := rfl
@[simp] theorem mtfInit_faulted (s : State) : (mtfInit s).faulted = s.faulted := rfl
@[simp] theorem mtfInit_fcause (s : State) : (mtfInit s).fcause = s.fcause := rfl
@[simp] theorem mtfInit_faddr (s : State) : (mtfInit s).faddr = s.faddr := rfl
@[simp] theorem mtfInit_mtf (s : State) : (mtfInit s).mtf = identityMtf := rfl
@[simp] theorem mtfInit_cache (s : State) : (mtfInit s).cache = s.cache := rfl
@[simp] theorem mtfInit_cacheValid (s : State) : (mtfInit s).cacheValid = s.cacheValid := rfl
@[simp] theorem mtfInit_pos (s : State) : (mtfInit s).pos = s.pos := rfl
@[simp] theorem mtfInit_bestLen (s : State) : (mtfInit s).bestLen = s.bestLen := rfl
@[simp] theorem mtfInit_bestOff (s : State) : (mtfInit s).bestOff = s.bestOff := rfl
@[simp] theorem mtfInit_wb (s : State) : (mtfInit s).wb = s.wb := rfl
@[simp] theorem mtfInit_cfg (s : State) : (mtfInit s).cfg = s.cfg := rfl
@[simp] theorem mtfInit_port (s : State) : (mtfInit s).port = s.port := rfl
@[simp] theorem mtfInit_results (s : State) : (mtfInit s).results = s.results := rfl
@[simp] theorem mtfInit_stage (s : State) : (mtfInit s).stage = s.stage := rfl
@[simp] theorem mtfInit_freeCtr (s : State) : (mtfInit s).freeCtr = s.freeCtr := rfl

/-! ### raiseFault: taking the fault (60 R265) -/

@[simp] theorem raiseFault_rom (c : Cause) (a : Nat) (s : State) : (raiseFault c a s).rom = s.rom := rfl
@[simp] theorem raiseFault_label (c : Cause) (a : Nat) (s : State) : (raiseFault c a s).label = s.label := rfl
@[simp] theorem raiseFault_ip (c : Cause) (a : Nat) (s : State) : (raiseFault c a s).ip = s.ip := rfl
@[simp] theorem raiseFault_bitpos (c : Cause) (a : Nat) (s : State) : (raiseFault c a s).bitpos = s.bitpos := rfl
@[simp] theorem raiseFault_inbuf (c : Cause) (a : Nat) (s : State) : (raiseFault c a s).inbuf = s.inbuf := rfl
@[simp] theorem raiseFault_inlen (c : Cause) (a : Nat) (s : State) : (raiseFault c a s).inlen = s.inlen := rfl
@[simp] theorem raiseFault_declen (c : Cause) (a : Nat) (s : State) : (raiseFault c a s).declen = s.declen := rfl
@[simp] theorem raiseFault_out (c : Cause) (a : Nat) (s : State) : (raiseFault c a s).out = s.out := rfl
@[simp] theorem raiseFault_outlen (c : Cause) (a : Nat) (s : State) : (raiseFault c a s).outlen = s.outlen := rfl
@[simp] theorem raiseFault_mode (c : Cause) (a : Nat) (s : State) : (raiseFault c a s).mode = s.mode := rfl
@[simp] theorem raiseFault_status (c : Cause) (a : Nat) (s : State) : (raiseFault c a s).status = s.status := rfl
@[simp] theorem raiseFault_faulted (c : Cause) (a : Nat) (s : State) : (raiseFault c a s).faulted = true := rfl
@[simp] theorem raiseFault_fcause (c : Cause) (a : Nat) (s : State) : (raiseFault c a s).fcause = c.code := rfl
@[simp] theorem raiseFault_faddr (c : Cause) (a : Nat) (s : State) : (raiseFault c a s).faddr = word16Of a := rfl
@[simp] theorem raiseFault_mtf (c : Cause) (a : Nat) (s : State) : (raiseFault c a s).mtf = s.mtf := rfl
@[simp] theorem raiseFault_cache (c : Cause) (a : Nat) (s : State) : (raiseFault c a s).cache = s.cache := rfl
@[simp] theorem raiseFault_cacheValid (c : Cause) (a : Nat) (s : State) : (raiseFault c a s).cacheValid = s.cacheValid := rfl
@[simp] theorem raiseFault_pos (c : Cause) (a : Nat) (s : State) : (raiseFault c a s).pos = s.pos := rfl
@[simp] theorem raiseFault_bestLen (c : Cause) (a : Nat) (s : State) : (raiseFault c a s).bestLen = s.bestLen := rfl
@[simp] theorem raiseFault_bestOff (c : Cause) (a : Nat) (s : State) : (raiseFault c a s).bestOff = s.bestOff := rfl
@[simp] theorem raiseFault_wb (c : Cause) (a : Nat) (s : State) : (raiseFault c a s).wb = s.wb := rfl
@[simp] theorem raiseFault_cfg (c : Cause) (a : Nat) (s : State) : (raiseFault c a s).cfg = s.cfg := rfl
@[simp] theorem raiseFault_port (c : Cause) (a : Nat) (s : State) : (raiseFault c a s).port = s.port := rfl
@[simp] theorem raiseFault_results (c : Cause) (a : Nat) (s : State) : (raiseFault c a s).results = s.results := rfl
@[simp] theorem raiseFault_stage (c : Cause) (a : Nat) (s : State) : (raiseFault c a s).stage = s.stage := rfl
@[simp] theorem raiseFault_freeCtr (c : Cause) (a : Nat) (s : State) : (raiseFault c a s).freeCtr = s.freeCtr := rfl

/-! ### scrambleEncoder: the encoder registers after a compress (10 R33) -/

@[simp] theorem scrambleEncoder_rom (s : State) : (scrambleEncoder s).rom = s.rom := rfl
@[simp] theorem scrambleEncoder_label (s : State) : (scrambleEncoder s).label = s.label := rfl
@[simp] theorem scrambleEncoder_ip (s : State) : (scrambleEncoder s).ip = s.ip := rfl
@[simp] theorem scrambleEncoder_bitpos (s : State) : (scrambleEncoder s).bitpos = s.bitpos := rfl
@[simp] theorem scrambleEncoder_inbuf (s : State) : (scrambleEncoder s).inbuf = s.inbuf := rfl
@[simp] theorem scrambleEncoder_inlen (s : State) : (scrambleEncoder s).inlen = s.inlen := rfl
@[simp] theorem scrambleEncoder_declen (s : State) : (scrambleEncoder s).declen = s.declen := rfl
@[simp] theorem scrambleEncoder_out (s : State) : (scrambleEncoder s).out = s.out := rfl
@[simp] theorem scrambleEncoder_outlen (s : State) : (scrambleEncoder s).outlen = s.outlen := rfl
@[simp] theorem scrambleEncoder_mode (s : State) : (scrambleEncoder s).mode = s.mode := rfl
@[simp] theorem scrambleEncoder_status (s : State) : (scrambleEncoder s).status = s.status := rfl
@[simp] theorem scrambleEncoder_faulted (s : State) : (scrambleEncoder s).faulted = s.faulted := rfl
@[simp] theorem scrambleEncoder_fcause (s : State) : (scrambleEncoder s).fcause = s.fcause := rfl
@[simp] theorem scrambleEncoder_faddr (s : State) : (scrambleEncoder s).faddr = s.faddr := rfl
@[simp] theorem scrambleEncoder_mtf (s : State) : (scrambleEncoder s).mtf = s.mtf := rfl
@[simp] theorem scrambleEncoder_cache (s : State) : (scrambleEncoder s).cache = s.cache := rfl
@[simp] theorem scrambleEncoder_cacheValid (s : State) : (scrambleEncoder s).cacheValid = s.cacheValid := rfl
@[simp] theorem scrambleEncoder_pos (s : State) : (scrambleEncoder s).pos = Config.freeWord s.freeCtr := rfl
@[simp] theorem scrambleEncoder_bestLen (s : State) : (scrambleEncoder s).bestLen = Config.freeWord (s.freeCtr + 1) := rfl
@[simp] theorem scrambleEncoder_bestOff (s : State) : (scrambleEncoder s).bestOff = Config.freeWord (s.freeCtr + 2) := rfl
@[simp] theorem scrambleEncoder_wb (s : State) : (scrambleEncoder s).wb = Config.freeBits (s.freeCtr + 3) := rfl
@[simp] theorem scrambleEncoder_cfg (s : State) : (scrambleEncoder s).cfg = s.cfg := rfl
@[simp] theorem scrambleEncoder_port (s : State) : (scrambleEncoder s).port = s.port := rfl
@[simp] theorem scrambleEncoder_results (s : State) : (scrambleEncoder s).results = s.results := rfl
@[simp] theorem scrambleEncoder_stage (s : State) : (scrambleEncoder s).stage = s.stage := rfl
@[simp] theorem scrambleEncoder_freeCtr (s : State) : (scrambleEncoder s).freeCtr = s.freeCtr + 4 := rfl

/-! ### romPut: a ROM byte written (20 R51, R58) -/

@[simp] theorem romPut_rom (a : Nat) (v : Byte) (s : State) : (romPut a v s).rom = s.rom.write a v := rfl
@[simp] theorem romPut_label (a : Nat) (v : Byte) (s : State) : (romPut a v s).label = s.label := rfl
@[simp] theorem romPut_ip (a : Nat) (v : Byte) (s : State) : (romPut a v s).ip = s.ip := rfl
@[simp] theorem romPut_bitpos (a : Nat) (v : Byte) (s : State) : (romPut a v s).bitpos = s.bitpos := rfl
@[simp] theorem romPut_inbuf (a : Nat) (v : Byte) (s : State) : (romPut a v s).inbuf = s.inbuf := rfl
@[simp] theorem romPut_inlen (a : Nat) (v : Byte) (s : State) : (romPut a v s).inlen = s.inlen := rfl
@[simp] theorem romPut_declen (a : Nat) (v : Byte) (s : State) : (romPut a v s).declen = s.declen := rfl
@[simp] theorem romPut_out (a : Nat) (v : Byte) (s : State) : (romPut a v s).out = s.out := rfl
@[simp] theorem romPut_outlen (a : Nat) (v : Byte) (s : State) : (romPut a v s).outlen = s.outlen := rfl
@[simp] theorem romPut_mode (a : Nat) (v : Byte) (s : State) : (romPut a v s).mode = s.mode := rfl
@[simp] theorem romPut_status (a : Nat) (v : Byte) (s : State) : (romPut a v s).status = s.status := rfl
@[simp] theorem romPut_faulted (a : Nat) (v : Byte) (s : State) : (romPut a v s).faulted = s.faulted := rfl
@[simp] theorem romPut_fcause (a : Nat) (v : Byte) (s : State) : (romPut a v s).fcause = s.fcause := rfl
@[simp] theorem romPut_faddr (a : Nat) (v : Byte) (s : State) : (romPut a v s).faddr = s.faddr := rfl
@[simp] theorem romPut_mtf (a : Nat) (v : Byte) (s : State) : (romPut a v s).mtf = s.mtf := rfl
@[simp] theorem romPut_cache (a : Nat) (v : Byte) (s : State) : (romPut a v s).cache = s.cache := rfl
@[simp] theorem romPut_cacheValid (a : Nat) (v : Byte) (s : State) : (romPut a v s).cacheValid = if codeBase ≤ a then false else s.cacheValid := rfl
@[simp] theorem romPut_pos (a : Nat) (v : Byte) (s : State) : (romPut a v s).pos = s.pos := rfl
@[simp] theorem romPut_bestLen (a : Nat) (v : Byte) (s : State) : (romPut a v s).bestLen = s.bestLen := rfl
@[simp] theorem romPut_bestOff (a : Nat) (v : Byte) (s : State) : (romPut a v s).bestOff = s.bestOff := rfl
@[simp] theorem romPut_wb (a : Nat) (v : Byte) (s : State) : (romPut a v s).wb = s.wb := rfl
@[simp] theorem romPut_cfg (a : Nat) (v : Byte) (s : State) : (romPut a v s).cfg = s.cfg := rfl
@[simp] theorem romPut_port (a : Nat) (v : Byte) (s : State) : (romPut a v s).port = s.port := rfl
@[simp] theorem romPut_results (a : Nat) (v : Byte) (s : State) : (romPut a v s).results = s.results := rfl
@[simp] theorem romPut_stage (a : Nat) (v : Byte) (s : State) : (romPut a v s).stage = s.stage := rfl
@[simp] theorem romPut_freeCtr (a : Nat) (v : Byte) (s : State) : (romPut a v s).freeCtr = s.freeCtr := rfl

/-! ### labelPut: a label byte written (43 R203) -/

@[simp] theorem labelPut_rom (a : Nat) (v : Byte) (s : State) : (labelPut a v s).rom = s.rom := rfl
@[simp] theorem labelPut_label (a : Nat) (v : Byte) (s : State) : (labelPut a v s).label = s.label.write a v := rfl
@[simp] theorem labelPut_ip (a : Nat) (v : Byte) (s : State) : (labelPut a v s).ip = s.ip := rfl
@[simp] theorem labelPut_bitpos (a : Nat) (v : Byte) (s : State) : (labelPut a v s).bitpos = s.bitpos := rfl
@[simp] theorem labelPut_inbuf (a : Nat) (v : Byte) (s : State) : (labelPut a v s).inbuf = s.inbuf := rfl
@[simp] theorem labelPut_inlen (a : Nat) (v : Byte) (s : State) : (labelPut a v s).inlen = s.inlen := rfl
@[simp] theorem labelPut_declen (a : Nat) (v : Byte) (s : State) : (labelPut a v s).declen = s.declen := rfl
@[simp] theorem labelPut_out (a : Nat) (v : Byte) (s : State) : (labelPut a v s).out = s.out := rfl
@[simp] theorem labelPut_outlen (a : Nat) (v : Byte) (s : State) : (labelPut a v s).outlen = s.outlen := rfl
@[simp] theorem labelPut_mode (a : Nat) (v : Byte) (s : State) : (labelPut a v s).mode = s.mode := rfl
@[simp] theorem labelPut_status (a : Nat) (v : Byte) (s : State) : (labelPut a v s).status = s.status := rfl
@[simp] theorem labelPut_faulted (a : Nat) (v : Byte) (s : State) : (labelPut a v s).faulted = s.faulted := rfl
@[simp] theorem labelPut_fcause (a : Nat) (v : Byte) (s : State) : (labelPut a v s).fcause = s.fcause := rfl
@[simp] theorem labelPut_faddr (a : Nat) (v : Byte) (s : State) : (labelPut a v s).faddr = s.faddr := rfl
@[simp] theorem labelPut_mtf (a : Nat) (v : Byte) (s : State) : (labelPut a v s).mtf = s.mtf := rfl
@[simp] theorem labelPut_cache (a : Nat) (v : Byte) (s : State) : (labelPut a v s).cache = s.cache := rfl
@[simp] theorem labelPut_cacheValid (a : Nat) (v : Byte) (s : State) : (labelPut a v s).cacheValid = s.cacheValid := rfl
@[simp] theorem labelPut_pos (a : Nat) (v : Byte) (s : State) : (labelPut a v s).pos = s.pos := rfl
@[simp] theorem labelPut_bestLen (a : Nat) (v : Byte) (s : State) : (labelPut a v s).bestLen = s.bestLen := rfl
@[simp] theorem labelPut_bestOff (a : Nat) (v : Byte) (s : State) : (labelPut a v s).bestOff = s.bestOff := rfl
@[simp] theorem labelPut_wb (a : Nat) (v : Byte) (s : State) : (labelPut a v s).wb = s.wb := rfl
@[simp] theorem labelPut_cfg (a : Nat) (v : Byte) (s : State) : (labelPut a v s).cfg = s.cfg := rfl
@[simp] theorem labelPut_port (a : Nat) (v : Byte) (s : State) : (labelPut a v s).port = s.port := rfl
@[simp] theorem labelPut_results (a : Nat) (v : Byte) (s : State) : (labelPut a v s).results = s.results := rfl
@[simp] theorem labelPut_stage (a : Nat) (v : Byte) (s : State) : (labelPut a v s).stage = s.stage := rfl
@[simp] theorem labelPut_freeCtr (a : Nat) (v : Byte) (s : State) : (labelPut a v s).freeCtr = s.freeCtr := rfl

/-! ### zeroMemories: both memories zeroed (43 R204) -/

@[simp] theorem zeroMemories_rom (s : State) : (zeroMemories s).rom = [] := rfl
@[simp] theorem zeroMemories_label (s : State) : (zeroMemories s).label = [] := rfl
@[simp] theorem zeroMemories_ip (s : State) : (zeroMemories s).ip = s.ip := rfl
@[simp] theorem zeroMemories_bitpos (s : State) : (zeroMemories s).bitpos = s.bitpos := rfl
@[simp] theorem zeroMemories_inbuf (s : State) : (zeroMemories s).inbuf = s.inbuf := rfl
@[simp] theorem zeroMemories_inlen (s : State) : (zeroMemories s).inlen = s.inlen := rfl
@[simp] theorem zeroMemories_declen (s : State) : (zeroMemories s).declen = s.declen := rfl
@[simp] theorem zeroMemories_out (s : State) : (zeroMemories s).out = s.out := rfl
@[simp] theorem zeroMemories_outlen (s : State) : (zeroMemories s).outlen = s.outlen := rfl
@[simp] theorem zeroMemories_mode (s : State) : (zeroMemories s).mode = s.mode := rfl
@[simp] theorem zeroMemories_status (s : State) : (zeroMemories s).status = s.status := rfl
@[simp] theorem zeroMemories_faulted (s : State) : (zeroMemories s).faulted = s.faulted := rfl
@[simp] theorem zeroMemories_fcause (s : State) : (zeroMemories s).fcause = s.fcause := rfl
@[simp] theorem zeroMemories_faddr (s : State) : (zeroMemories s).faddr = s.faddr := rfl
@[simp] theorem zeroMemories_mtf (s : State) : (zeroMemories s).mtf = s.mtf := rfl
@[simp] theorem zeroMemories_cache (s : State) : (zeroMemories s).cache = s.cache := rfl
@[simp] theorem zeroMemories_cacheValid (s : State) : (zeroMemories s).cacheValid = s.cacheValid := rfl
@[simp] theorem zeroMemories_pos (s : State) : (zeroMemories s).pos = s.pos := rfl
@[simp] theorem zeroMemories_bestLen (s : State) : (zeroMemories s).bestLen = s.bestLen := rfl
@[simp] theorem zeroMemories_bestOff (s : State) : (zeroMemories s).bestOff = s.bestOff := rfl
@[simp] theorem zeroMemories_wb (s : State) : (zeroMemories s).wb = s.wb := rfl
@[simp] theorem zeroMemories_cfg (s : State) : (zeroMemories s).cfg = s.cfg := rfl
@[simp] theorem zeroMemories_port (s : State) : (zeroMemories s).port = s.port := rfl
@[simp] theorem zeroMemories_results (s : State) : (zeroMemories s).results = s.results := rfl
@[simp] theorem zeroMemories_stage (s : State) : (zeroMemories s).stage = s.stage := rfl
@[simp] theorem zeroMemories_freeCtr (s : State) : (zeroMemories s).freeCtr = s.freeCtr := rfl

/-! ### keepSource: the cache filled (42 R174) -/

@[simp] theorem keepSource_rom (b : ByteString) (s : State) : (keepSource b s).rom = s.rom := rfl
@[simp] theorem keepSource_label (b : ByteString) (s : State) : (keepSource b s).label = s.label := rfl
@[simp] theorem keepSource_ip (b : ByteString) (s : State) : (keepSource b s).ip = s.ip := rfl
@[simp] theorem keepSource_bitpos (b : ByteString) (s : State) : (keepSource b s).bitpos = s.bitpos := rfl
@[simp] theorem keepSource_inbuf (b : ByteString) (s : State) : (keepSource b s).inbuf = s.inbuf := rfl
@[simp] theorem keepSource_inlen (b : ByteString) (s : State) : (keepSource b s).inlen = s.inlen := rfl
@[simp] theorem keepSource_declen (b : ByteString) (s : State) : (keepSource b s).declen = s.declen := rfl
@[simp] theorem keepSource_out (b : ByteString) (s : State) : (keepSource b s).out = s.out := rfl
@[simp] theorem keepSource_outlen (b : ByteString) (s : State) : (keepSource b s).outlen = s.outlen := rfl
@[simp] theorem keepSource_mode (b : ByteString) (s : State) : (keepSource b s).mode = s.mode := rfl
@[simp] theorem keepSource_status (b : ByteString) (s : State) : (keepSource b s).status = s.status := rfl
@[simp] theorem keepSource_faulted (b : ByteString) (s : State) : (keepSource b s).faulted = s.faulted := rfl
@[simp] theorem keepSource_fcause (b : ByteString) (s : State) : (keepSource b s).fcause = s.fcause := rfl
@[simp] theorem keepSource_faddr (b : ByteString) (s : State) : (keepSource b s).faddr = s.faddr := rfl
@[simp] theorem keepSource_mtf (b : ByteString) (s : State) : (keepSource b s).mtf = s.mtf := rfl
@[simp] theorem keepSource_cache (b : ByteString) (s : State) : (keepSource b s).cache = b := rfl
@[simp] theorem keepSource_cacheValid (b : ByteString) (s : State) : (keepSource b s).cacheValid = true := rfl
@[simp] theorem keepSource_pos (b : ByteString) (s : State) : (keepSource b s).pos = s.pos := rfl
@[simp] theorem keepSource_bestLen (b : ByteString) (s : State) : (keepSource b s).bestLen = s.bestLen := rfl
@[simp] theorem keepSource_bestOff (b : ByteString) (s : State) : (keepSource b s).bestOff = s.bestOff := rfl
@[simp] theorem keepSource_wb (b : ByteString) (s : State) : (keepSource b s).wb = s.wb := rfl
@[simp] theorem keepSource_cfg (b : ByteString) (s : State) : (keepSource b s).cfg = s.cfg := rfl
@[simp] theorem keepSource_port (b : ByteString) (s : State) : (keepSource b s).port = s.port := rfl
@[simp] theorem keepSource_results (b : ByteString) (s : State) : (keepSource b s).results = s.results := rfl
@[simp] theorem keepSource_stage (b : ByteString) (s : State) : (keepSource b s).stage = s.stage := rfl
@[simp] theorem keepSource_freeCtr (b : ByteString) (s : State) : (keepSource b s).freeCtr = s.freeCtr := rfl

/-! ### State.cleared: the preamble's clearing of `STATUS` (60 R266) -/

@[simp] theorem cleared_rom (s : State) : (State.cleared s).rom = s.rom := rfl
@[simp] theorem cleared_label (s : State) : (State.cleared s).label = s.label := rfl
@[simp] theorem cleared_ip (s : State) : (State.cleared s).ip = s.ip := rfl
@[simp] theorem cleared_bitpos (s : State) : (State.cleared s).bitpos = s.bitpos := rfl
@[simp] theorem cleared_inbuf (s : State) : (State.cleared s).inbuf = s.inbuf := rfl
@[simp] theorem cleared_inlen (s : State) : (State.cleared s).inlen = s.inlen := rfl
@[simp] theorem cleared_declen (s : State) : (State.cleared s).declen = s.declen := rfl
@[simp] theorem cleared_out (s : State) : (State.cleared s).out = s.out := rfl
@[simp] theorem cleared_outlen (s : State) : (State.cleared s).outlen = s.outlen := rfl
@[simp] theorem cleared_mode (s : State) : (State.cleared s).mode = s.mode := rfl
@[simp] theorem cleared_status (s : State) : (State.cleared s).status = 0#8 := rfl
@[simp] theorem cleared_faulted (s : State) : (State.cleared s).faulted = s.faulted := rfl
@[simp] theorem cleared_fcause (s : State) : (State.cleared s).fcause = s.fcause := rfl
@[simp] theorem cleared_faddr (s : State) : (State.cleared s).faddr = s.faddr := rfl
@[simp] theorem cleared_mtf (s : State) : (State.cleared s).mtf = s.mtf := rfl
@[simp] theorem cleared_cache (s : State) : (State.cleared s).cache = s.cache := rfl
@[simp] theorem cleared_cacheValid (s : State) : (State.cleared s).cacheValid = s.cacheValid := rfl
@[simp] theorem cleared_pos (s : State) : (State.cleared s).pos = s.pos := rfl
@[simp] theorem cleared_bestLen (s : State) : (State.cleared s).bestLen = s.bestLen := rfl
@[simp] theorem cleared_bestOff (s : State) : (State.cleared s).bestOff = s.bestOff := rfl
@[simp] theorem cleared_wb (s : State) : (State.cleared s).wb = s.wb := rfl
@[simp] theorem cleared_cfg (s : State) : (State.cleared s).cfg = s.cfg := rfl
@[simp] theorem cleared_port (s : State) : (State.cleared s).port = s.port := rfl
@[simp] theorem cleared_results (s : State) : (State.cleared s).results = s.results := rfl
@[simp] theorem cleared_stage (s : State) : (State.cleared s).stage = s.stage := rfl
@[simp] theorem cleared_freeCtr (s : State) : (State.cleared s).freeCtr = s.freeCtr := rfl

end Sys2Proof.Machine
end

