-- ==== Sys2Proof/Laws/Memory.lean ====
section
/-! SUPPORT. The laws of memory: a read after a write, and the canonical form kept by every operation (20_memory.md R53). -/

namespace Sys2Proof.Machine

open Sys2Proof

/-- Every listed address is above a bound. -/
def Memory.above (k : Nat) (m : Memory) : Bool := m.all (fun c => k < c.1)

theorem Memory.above_cons (k j : Nat) (v : Byte) (m : Memory) :
    Memory.above k ((j, v) :: m) = true ↔ k < j ∧ Memory.above k m = true := by
  simp [Memory.above]

theorem Memory.above_trans {j k : Nat} (h : j ≤ k) {m : Memory} (hm : Memory.above k m = true) :
    Memory.above j m = true := by
  simp only [Memory.above, List.all_eq_true, decide_eq_true_eq] at *
  exact fun c hc => lt_of_le_of_lt h (hm c hc)

theorem Memory.wf_cons (k : Nat) (v : Byte) (m : Memory) :
    Memory.wf ((k, v) :: m) = true ↔ v ≠ 0#8 ∧ Memory.above k m = true ∧ m.wf = true := by
  simp [Memory.wf, Memory.above, and_assoc]

theorem Memory.below_cons (n k : Nat) (v : Byte) (m : Memory) :
    Memory.below ((k, v) :: m) n = true ↔ k < n ∧ Memory.below m n = true := by
  simp [Memory.below]

@[simp] theorem Memory.read_nil (a : Nat) : Memory.read [] a = 0#8 := rfl

theorem Memory.read_above {a k : Nat} {m : Memory} (h : Memory.above k m = true) (ha : a ≤ k) :
    m.read a = 0#8 := by
  induction m with
  | nil => rfl
  | cons c m ih =>
    obtain ⟨j, v⟩ := c
    obtain ⟨hj, hm⟩ := (Memory.above_cons k j v m).1 h
    rw [Memory.read, if_neg (by omega), ih hm]

theorem Memory.above_write {k a : Nat} {v : Byte} {m : Memory} (h : Memory.above k m = true) (ha : k < a) :
    Memory.above k (m.write a v) = true := by
  induction m with
  | nil => by_cases hv : v = 0#8 <;> simp [Memory.write, Memory.above, hv, ha]
  | cons c m ih =>
    obtain ⟨j, x⟩ := c
    obtain ⟨hj, hm⟩ := (Memory.above_cons k j x m).1 h
    unfold Memory.write
    split
    · split
      · exact h
      · exact (Memory.above_cons ..).2 ⟨ha, h⟩
    · split
      · split
        · exact hm
        · exact (Memory.above_cons ..).2 ⟨hj, hm⟩
      · exact (Memory.above_cons ..).2 ⟨hj, ih hm⟩

/-- A write keeps the canonical form. -/
theorem Memory.wf_write {a : Nat} {v : Byte} {m : Memory} (h : m.wf = true) : (m.write a v).wf = true := by
  induction m with
  | nil => by_cases hv : v = 0#8 <;> simp [Memory.write, Memory.wf, hv]
  | cons c m ih =>
    obtain ⟨k, x⟩ := c
    obtain ⟨hx, hab, hm⟩ := (Memory.wf_cons k x m).1 h
    unfold Memory.write
    split
    · next hlt =>
      split
      · exact h
      · next hv =>
        exact (Memory.wf_cons ..).2 ⟨hv, (Memory.above_cons ..).2 ⟨hlt, Memory.above_trans hlt.le hab⟩, h⟩
    · split
      · split
        · exact hm
        · next hv => exact (Memory.wf_cons ..).2 ⟨hv, hab, hm⟩
      · exact (Memory.wf_cons ..).2 ⟨hx, Memory.above_write hab (by omega), ih hm⟩

/-- A write below a size keeps the memory below it. -/
theorem Memory.below_write {a n : Nat} {v : Byte} {m : Memory} (h : m.below n = true) (ha : a < n) :
    (m.write a v).below n = true := by
  induction m with
  | nil => by_cases hv : v = 0#8 <;> simp [Memory.write, Memory.below, hv, ha]
  | cons c m ih =>
    obtain ⟨k, x⟩ := c
    obtain ⟨hk, hm⟩ := (Memory.below_cons n k x m).1 h
    unfold Memory.write
    split
    · split
      · exact h
      · exact (Memory.below_cons ..).2 ⟨ha, h⟩
    · split
      · split
        · exact hm
        · exact (Memory.below_cons ..).2 ⟨hk, hm⟩
      · exact (Memory.below_cons ..).2 ⟨hk, ih hm⟩

/-- A read after a write: the written byte at its address, the old byte elsewhere (20 R53). -/
theorem Memory.read_write {a b : Nat} {v : Byte} {m : Memory} (h : m.wf = true) :
    (m.write a v).read b = if b = a then v else m.read b := by
  induction m with
  | nil =>
    by_cases hv : v = 0#8
    · simp [Memory.write, hv]
    · simp only [Memory.write, hv, if_false, Memory.read]
      split <;> split <;> first | rfl | omega
  | cons c m ih =>
    obtain ⟨k, x⟩ := c
    obtain ⟨hx, hab, hm⟩ := (Memory.wf_cons k x m).1 h
    have habove : ∀ {c : Nat}, c ≤ k → Memory.read m c = 0#8 := fun hc => Memory.read_above hab hc
    unfold Memory.write
    split
    · next hlt =>
      split
      · next hv =>
        split
        · next hb => subst hb; rw [Memory.read, if_neg (by omega), habove (by omega), hv]
        · rfl
      · rw [Memory.read]
        by_cases hb : b = a
        · simp [hb]
        · rw [if_neg (fun h => hb h.symm), if_neg hb]
    · split
      · next hak =>
        subst hak
        split
        · next hv =>
          rw [Memory.read]
          by_cases hb : b = a
          · subst hb; rw [if_pos rfl, habove le_rfl, hv]
          · rw [if_neg hb, if_neg (fun h => hb h.symm)]
        · rw [Memory.read, Memory.read]
          by_cases hb : b = a
          · simp [hb]
          · simp [hb, Ne.symm hb]
      · next hlt hne =>
        rw [Memory.read, Memory.read, ih hm]
        by_cases hb : b = a
        · subst hb; rw [if_neg (by omega), if_pos rfl, if_pos rfl]
        · rw [if_neg hb, if_neg hb]

theorem Memory.wf_writeList {m : Memory} {base : Nat} {bs : ByteString} (h : m.wf = true) :
    (m.writeList base bs).wf = true := by
  induction bs generalizing m base with
  | nil => exact h
  | cons b bs ih => exact ih (Memory.wf_write h)

theorem Memory.wf_orList {m : Memory} {base : Nat} {bs : ByteString} (h : m.wf = true) :
    (m.orList base bs).wf = true := by
  induction bs generalizing m base with
  | nil => exact h
  | cons b bs ih => exact ih (Memory.wf_write h)

theorem Memory.below_writeList {m : Memory} {base n : Nat} {bs : ByteString} (h : m.below n = true)
    (hb : base + bs.length ≤ n) : (m.writeList base bs).below n = true := by
  induction bs generalizing m base with
  | nil => exact h
  | cons b bs ih =>
    simp only [List.length_cons] at hb
    exact ih (Memory.below_write h (by omega)) (by omega)

theorem Memory.below_orList {m : Memory} {base n : Nat} {bs : ByteString} (h : m.below n = true)
    (hb : base + bs.length ≤ n) : (m.orList base bs).below n = true := by
  induction bs generalizing m base with
  | nil => exact h
  | cons b bs ih =>
    simp only [List.length_cons] at hb
    exact ih (Memory.below_write h (by omega)) (by omega)

/-- What a run of writes leaves at every address. -/
theorem Memory.read_writeList {m : Memory} {base a : Nat} {bs : ByteString} (h : m.wf = true) :
    (m.writeList base bs).read a =
      if base ≤ a ∧ a < base + bs.length then bs.getD (a - base) 0#8 else m.read a := by
  induction bs generalizing m base with
  | nil => simp [Memory.writeList]
  | cons b bs ih =>
    rw [Memory.writeList, ih (Memory.wf_write h), Memory.read_write h]
    simp only [List.length_cons]
    rcases Nat.lt_trichotomy a base with hlt | heq | hgt
    · rw [if_neg (by omega), if_neg (by omega), if_neg (by omega)]
    · subst heq
      rw [if_neg (by omega), if_pos rfl, if_pos (by omega)]
      simp
    · by_cases hin : a < base + 1 + bs.length
      · rw [if_pos (by omega), if_pos (by omega)]
        obtain ⟨d, rfl⟩ : ∃ d, a = base + 1 + d := ⟨a - base - 1, by omega⟩
        rw [show base + 1 + d - (base + 1) = d by omega, show base + 1 + d - base = d + 1 by omega]
        rfl
      · rw [if_neg (by omega), if_neg (by omega), if_neg (by omega)]

/-- What a run of OR writes leaves at every address (44 R237). -/
theorem Memory.read_orList {m : Memory} {base a : Nat} {bs : ByteString} (h : m.wf = true) :
    (m.orList base bs).read a =
      if base ≤ a ∧ a < base + bs.length then m.read a ||| bs.getD (a - base) 0#8 else m.read a := by
  induction bs generalizing m base with
  | nil => simp [Memory.orList]
  | cons b bs ih =>
    rw [Memory.orList, ih (Memory.wf_write h), Memory.read_write h]
    simp only [List.length_cons]
    rcases Nat.lt_trichotomy a base with hlt | heq | hgt
    · rw [if_neg (by omega), if_neg (by omega), if_neg (by omega)]
    · subst heq
      rw [if_neg (by omega), if_pos rfl, if_pos (by omega)]
      simp
    · by_cases hin : a < base + 1 + bs.length
      · rw [if_pos (by omega), if_neg (by omega), if_pos (by omega)]
        obtain ⟨d, rfl⟩ : ∃ d, a = base + 1 + d := ⟨a - base - 1, by omega⟩
        rw [show base + 1 + d - (base + 1) = d by omega, show base + 1 + d - base = d + 1 by omega]
        rfl
      · rw [if_neg (by omega), if_neg (by omega), if_neg (by omega)]

theorem Memory.above_ofBytes {k base : Nat} {bs : ByteString} (h : k < base) :
    Memory.above k (Memory.ofBytes base bs) = true := by
  induction bs generalizing base with
  | nil => rfl
  | cons b bs ih =>
    unfold Memory.ofBytes
    split
    · exact ih (by omega)
    · exact (Memory.above_cons ..).2 ⟨h, ih (by omega)⟩

theorem Memory.wf_ofBytes {base : Nat} {bs : ByteString} : (Memory.ofBytes base bs).wf = true := by
  induction bs generalizing base with
  | nil => rfl
  | cons b bs ih =>
    unfold Memory.ofBytes
    split
    · exact ih
    · next hb => exact (Memory.wf_cons ..).2 ⟨hb, Memory.above_ofBytes (by omega), ih⟩

theorem Memory.below_ofBytes {base n : Nat} {bs : ByteString} (h : base + bs.length ≤ n) :
    (Memory.ofBytes base bs).below n = true := by
  induction bs generalizing base with
  | nil => rfl
  | cons b bs ih =>
    simp only [List.length_cons] at h
    unfold Memory.ofBytes
    split
    · exact ih (by omega)
    · exact (Memory.below_cons ..).2 ⟨by omega, ih (by omega)⟩

/-- What a memory made of bytes holds at every address. -/
theorem Memory.read_ofBytes {base a : Nat} {bs : ByteString} :
    (Memory.ofBytes base bs).read a =
      if base ≤ a ∧ a < base + bs.length then bs.getD (a - base) 0#8 else 0#8 := by
  induction bs generalizing base with
  | nil => simp [Memory.ofBytes]
  | cons b bs ih =>
    have key : ∀ m : Memory, m.read a = (if a = base then b else (Memory.ofBytes (base + 1) bs).read a) →
        m.read a = if base ≤ a ∧ a < base + (b :: bs).length then (b :: bs).getD (a - base) 0#8 else 0#8 := by
      intro m hm
      rw [hm, ih]
      simp only [List.length_cons]
      rcases Nat.lt_trichotomy a base with hlt | heq | hgt
      · rw [if_neg (by omega), if_neg (by omega), if_neg (by omega)]
      · subst heq; rw [if_pos rfl, if_pos (by omega)]; simp
      · by_cases hin : a < base + 1 + bs.length
        · rw [if_neg (by omega), if_pos (by omega), if_pos (by omega)]
          obtain ⟨d, rfl⟩ : ∃ d, a = base + 1 + d := ⟨a - base - 1, by omega⟩
          rw [show base + 1 + d - (base + 1) = d by omega, show base + 1 + d - base = d + 1 by omega]
          rfl
        · rw [if_neg (by omega), if_neg (by omega), if_neg (by omega)]
    apply key
    rw [Memory.ofBytes]
    split
    · next hb =>
      by_cases ha : a = base
      · subst ha; rw [if_pos rfl, Memory.read_above (Memory.above_ofBytes (Nat.lt_succ_self a)) le_rfl, hb]
      · rw [if_neg ha]
    · rw [Memory.read]
      by_cases ha : a = base
      · simp [ha]
      · rw [if_neg ha, if_neg (fun h => ha h.symm)]

/-- Two memories in canonical form that read alike are equal. -/
theorem Memory.ext_read {m n : Memory} (hm : m.wf = true) (hn : n.wf = true) (h : ∀ a, m.read a = n.read a) :
    m = n := by
  induction m generalizing n with
  | nil =>
    cases n with
    | nil => rfl
    | cons c n =>
      obtain ⟨k, v⟩ := c
      have := h k
      simp only [Memory.read, if_true] at this
      exact absurd this.symm ((Memory.wf_cons k v n).1 hn).1
  | cons c m ih =>
    obtain ⟨k, v⟩ := c
    obtain ⟨hv, hab, hmw⟩ := (Memory.wf_cons k v m).1 hm
    cases n with
    | nil =>
      have := h k
      simp only [Memory.read, if_true] at this
      exact absurd this hv
    | cons d n =>
      obtain ⟨j, x⟩ := d
      obtain ⟨hx, hab', hnw⟩ := (Memory.wf_cons j x n).1 hn
      have hkj : k = j := by
        rcases Nat.lt_trichotomy k j with hlt | heq | hgt
        · have := h k
          rw [Memory.read, if_pos rfl, Memory.read, if_neg (by omega), Memory.read_above hab' hlt.le] at this
          exact absurd this hv
        · exact heq
        · have := h j
          rw [Memory.read, if_neg (by omega), Memory.read, if_pos rfl, Memory.read_above hab hgt.le] at this
          exact absurd this.symm hx
      subst hkj
      have hvx : v = x := by
        have := h k
        simpa only [Memory.read, if_true] using this
      subst hvx
      congr 1
      refine ih hmw hnw fun a => ?_
      by_cases ha : k = a
      · subst ha; rw [Memory.read_above hab le_rfl, Memory.read_above hab' le_rfl]
      · have := h a
        simpa only [Memory.read, if_neg ha] using this

end Sys2Proof.Machine
end

