-- ==== Sys2Proof/Laws/Ops.lean ====
section
/-! SUPPORT. One spec lemma per shared operation: what it does when its conditions hold, and everything it can have done when
it answers a next state. -/

namespace Sys2Proof.Machine

open Sys2Proof

/-! ### Sequencing, the preamble, the token guard -/

@[simp] theorem andThen_of_next (t : State) (k : State → Step) : andThen (.next t) k = k t := rfl

/-- A sequence goes on exactly through a next state. -/
theorem andThen_next_iff {o : Step} {k : State → Step} {t : State} :
    andThen o k = .next t ↔ ∃ u, o = .next u ∧ k u = .next t := by
  cases o <;> simp [andThen]

/-- A command that passes its preamble runs its body with `STATUS` cleared (60 R266). -/
theorem preamble_of_ready {i : Instr} {s : State} {k : State → Step} (h : Ready i s) :
    preamble i s k = k s.cleared := by
  simp [preamble, h.1, h.2, State.cleared]

/-- A command that answers a next state has passed its preamble (60 R266). -/
theorem preamble_next {i : Instr} {s t : State} {k : State → Step} (h : preamble i s k = .next t) :
    Ready i s ∧ k s.cleared = .next t := by
  unfold preamble at h
  split at h
  · cases h
  · next hf =>
    split at h
    · cases h
    · next hw => exact ⟨⟨by simpa using hf, by simpa using hw⟩, h⟩

/-- A token in its decode runs its body (40 R101, 41 R139). -/
theorem inDecode_of_inToken {form : Form} {i : Instr} {s : State} {k : State → Step} (h : InToken form s)
    (hw : i.wf = true) : inDecode form i s k = k s := by
  obtain ⟨⟨o, ho⟩, hlt⟩ := h
  simp [inDecode, ho, hlt, hw]

/-- A token that answers a next state was in its decode and well formed. -/
theorem inDecode_next {form : Form} {i : Instr} {s t : State} {k : State → Step}
    (h : inDecode form i s k = .next t) : InToken form s ∧ i.wf = true ∧ k s = .next t := by
  unfold inDecode at h
  split at h
  · next f o ho =>
    split at h
    · next hc =>
      split at h
      · next hw => exact ⟨⟨⟨o, hc.1 ▸ ho⟩, hc.2⟩, hw, h⟩
      · cases h
    · cases h
  · cases h
  · cases h

/-! ### Bits -/

/-- A Modern token within the input budget: `BITPOS` stands after it (41 R131). -/
theorem takeBits_of_fits {n : Nat} {s : State} {k : State → Step} (h : s.bitpos.toNat + n ≤ 8 * s.inlen.toNat) :
    takeBits n s k = k { s with bitpos := bitIndexOf (s.bitpos.toNat + n) } := by
  rw [takeBits, if_pos h]

/-- A Modern token cut short: every bit of the budget read, `TRUNC` set, the loop ended (41 R131). -/
theorem takeBits_of_short {n : Nat} {s : State} {k : State → Step} (h : 8 * s.inlen.toNat < s.bitpos.toNat + n) :
    takeBits n s k = .next (stop .trunc { s with bitpos := bitIndexOf (max s.bitpos.toNat (8 * s.inlen.toNat)) }) := by
  rw [takeBits, if_neg (by omega)]

/-! ### Output -/

/-- A copy changes `OUT` and `OUTLEN` and nothing else (40 R105). -/
theorem copy_frame (n offset : Nat) (s : State) :
    copy n offset s = { s with out := (copy n offset s).out, outlen := (copy n offset s).outlen } := by
  induction n generalizing s with
  | zero => rfl
  | succ n ih =>
    rw [copy]
    split
    · rfl
    · rw [ih]; rfl

/-- Appending below the budget keeps `OUTLEN = |OUT|` and `OUTLEN ≤ DECLEN` (10 R25, R26). -/
theorem append_inStep {v : Byte} {s : State} (hs : OutInStep s) (hlt : s.outlen.toNat < s.declen.toNat) :
    OutInStep (append v s) ∧ (append v s).outlen.toNat ≤ (append v s).declen.toNat := by
  have hd := s.declen.isLt
  have hn : (s.outlen + 1#16).toNat = s.outlen.toNat + 1 := by
    rw [BitVec.toNat_add]; simp; omega
  simp only [OutInStep, append_outlen, append_out, append_declen, hn, List.length_append, List.length_singleton] at *
  omega

/-- A copy keeps `OUTLEN = |OUT|` and `OUTLEN ≤ DECLEN` (10 R25, R26). -/
theorem copy_inStep {n offset : Nat} {s : State} (hs : OutInStep s) (hle : s.outlen.toNat ≤ s.declen.toNat) :
    OutInStep (copy n offset s) ∧ (copy n offset s).outlen.toNat ≤ (copy n offset s).declen.toNat := by
  induction n generalizing s with
  | zero => exact ⟨hs, hle⟩
  | succ n ih =>
    rw [copy]
    split
    · exact ⟨hs, hle⟩
    · next hne =>
      have hlt : s.outlen.toNat < s.declen.toNat := by
        refine lt_of_le_of_ne hle fun h => hne (BitVec.eq_of_toNat_eq h)
      have h := append_inStep (v := outAt s (s.outlen.toNat - offset)) hs hlt
      exact ih h.1 h.2

/-- A back-reference changes `OUT`, `OUTLEN` and `STATUS` and nothing else (40 R104, 41 R143 to R145). -/
theorem reference_frame (offset len : Nat) (s : State) :
    reference offset len s =
      { s with
        out := (reference offset len s).out
        outlen := (reference offset len s).outlen
        status := (reference offset len s).status } := by
  unfold reference
  split
  · rfl
  · rw [copy_frame]

/-- A literal code changes `MTF`, `OUT`, `OUTLEN`, `STATUS` and the stage and nothing else (41 R141). -/
theorem literal_frame (k v : Nat) (s : State) :
    literal k v s =
      { s with
        mtf := (literal k v s).mtf
        out := (literal k v s).out
        outlen := (literal k v s).outlen
        status := (literal k v s).status
        stage := (literal k v s).stage } := by
  unfold literal
  split
  · rfl
  · dsimp only
    split <;> rfl

/-! ### Move-to-front -/

/-- Promoting an entry permutes the list (41 R137; 10 R30). -/
theorem mtfPromote_perm {l : ByteString} {rank : Nat} (h : rank < l.length) : (mtfPromote l rank).Perm l := by
  have hb : mtfByte l rank = l[rank] := by simp [mtfByte, h]
  rw [mtfPromote, hb]
  calc l[rank] :: (l.take rank ++ l.drop (rank + 1))
      |>.Perm (l.take rank ++ l[rank] :: l.drop (rank + 1)) := List.perm_middle.symm
    _ = l := by rw [List.getElem_cons_drop, List.take_append_drop]

/-! ### The loop runs what a step runs -/

/-- A token inside the loop has the meaning `exec` gives it. -/
theorem runToken_eq_exec {i : Instr} (h : i.stream ≠ .command) (s : State) : runToken i s = exec i s := by
  cases i <;> first | rfl | exact absurd rfl h

end Sys2Proof.Machine
end

