-- ==== Sys2Proof/Laws/Decoder.lean ====
section
/-! SUPPORT. Laws of the decode loop: one iteration at a time, and the run of a Raw decode over bytes that are not zero. -/

namespace Sys2Proof.Machine

open Sys2Proof

theorem decodeLoop_of_decoding {n : Nat} {s : State} {form : Form} {o : Origin} (h : s.stage = .decoding form o) :
    decodeLoop (n + 1) s = andThen (decodeStep form s) (decodeLoop n) := by
  show (match s.stage with
    | .decoding form _ => andThen (decodeStep form s) (decodeLoop n)
    | .idle => .next s
    | .ended _ _ => .next s) = _
  rw [h]

theorem decodeLoop_of_ended {n : Nat} {s : State} {form : Form} {o : Origin} (h : s.stage = .ended form o) :
    decodeLoop n s = .next s := by
  cases n with
  | zero => rfl
  | succ n =>
    show (match s.stage with
      | .decoding form _ => andThen (decodeStep form s) (decodeLoop n)
      | .idle => .next s
      | .ended _ _ => .next s) = _
    rw [h]

/-- One byte of a Raw decode that is not zero. -/
theorem rawStep_of_byte {s : State} {b : Byte} (h : s.ip.toNat < s.inlen.toNat) (hb : s.inbuf[s.ip.toNat]? = some b)
    (h0 : b ≠ 0#8) : rawStep s = advanceIp 1 (append b s) := by
  unfold rawStep
  rw [if_pos h, hb]
  exact if_neg h0

/-- A Raw decode over `k` bytes that are not zero: the loop goes on with `k` bytes more in `OUT`. -/
theorem decodeLoop_raw (m : Nat) {o : Origin} : ∀ (k : Nat) (s : State), s.stage = .decoding .raw o →
    s.ip.toNat + k ≤ s.inlen.toNat → (∀ j, j < s.inlen.toNat → ∃ b, s.inbuf[j]? = some b ∧ b ≠ 0#8) →
    ∃ t, decodeLoop (k + m) s = decodeLoop m t ∧
      t = { s with ip := t.ip, out := t.out, outlen := t.outlen } ∧
      t.ip.toNat = s.ip.toNat + k ∧ t.out.length = s.out.length + k
  | 0, s, _, _, _ => ⟨s, by rw [Nat.zero_add], rfl, rfl, rfl⟩
  | k + 1, s, hst, hle, hnz => by
    have hlt : s.ip.toNat < s.inlen.toNat := by omega
    obtain ⟨b, hb, h0⟩ := hnz _ hlt
    have hip : (s.ip + 1#16).toNat = s.ip.toNat + 1 := by
      have := s.inlen.isLt
      rw [BitVec.toNat_add]
      exact Nat.mod_eq_of_lt (by show s.ip.toNat + 1 < _; omega)
    have hone : decodeLoop (k + 1 + m) s = decodeLoop (k + m) (advanceIp 1 (append b s)) := by
      rw [show k + 1 + m = (k + m) + 1 by omega, decodeLoop_of_decoding hst]
      show decodeLoop (k + m) (rawStep s) = _
      rw [rawStep_of_byte hlt hb h0]
    obtain ⟨t, ht, hfr, htip, hout⟩ := decodeLoop_raw m k (advanceIp 1 (append b s)) hst
      (by show (s.ip + 1#16).toNat + k ≤ s.inlen.toNat; omega) hnz
    refine ⟨t, hone.trans ht, hfr, ?_, ?_⟩
    · rw [htip]; show (s.ip + 1#16).toNat + k = _; omega
    · rw [hout]
      show (s.out ++ [b]).length + k = _
      rw [List.length_append]
      show s.out.length + 1 + k = _
      omega

/-- A Raw decode whose bytes are spent ends its loop. -/
theorem decodeLoop_raw_end {n : Nat} {s : State} {o : Origin} (hst : s.stage = .decoding .raw o)
    (hend : s.inlen.toNat ≤ s.ip.toNat) : decodeLoop (n + 1) s = .next { s with stage := .ended .raw o } := by
  have hstep : decodeStep .raw s = .next { s with stage := .ended .raw o } := by
    show Host.Outcome.next (rawStep s) = _
    unfold rawStep endLoop
    rw [if_neg (by omega), hst]
    rfl
  rw [decodeLoop_of_decoding hst, hstep]
  exact decodeLoop_of_ended rfl

/-- A `DECOMPRESS` that passes its preamble: its set-up, its loop, its end. -/
theorem exec_decompress {src : Source} {s : State} (h : Ready (.decompress src) s) :
    exec (.decompress src) s =
      andThen (decodeLoop (loopBound (beginDecompress src s.cleared)) (beginDecompress src s.cleared))
        fun t => .next (closeDecode t) := by
  show execDecompress src s = _
  unfold execDecompress
  rw [preamble_of_ready h]

/-! ### What a token, a loop and a set-up can change -/

/-- `t` differs from `s` in the registers a token may write and in the stage, and in nothing else. -/
def TokenFrame (s t : State) : Prop :=
  t = { s with
    ip := t.ip, bitpos := t.bitpos, out := t.out, outlen := t.outlen, status := t.status, mtf := t.mtf, stage := t.stage }

theorem TokenFrame.refl (s : State) : TokenFrame s s := rfl

theorem TokenFrame.trans {s t u : State} (h : TokenFrame s t) (k : TokenFrame t u) : TokenFrame s u := by
  unfold TokenFrame at *
  rw [k, h]

/-- Everything a token that completes can have changed (40 R102 to R104, 41 R141 to R145). -/
theorem runToken_frame {i : Instr} {s t : State} (h : runToken i s = .next t) : TokenFrame s t := by
  have hbits : ∀ {n : Nat} {u : State} {k : State → State}, (∀ v, TokenFrame v (k v)) →
      takeBits n u (fun v => .next (k v)) = .next t → TokenFrame u t := by
    intro n u k hk hu
    unfold takeBits at hu
    split at hu <;> cases hu
    · exact TokenFrame.trans (by exact rfl) (hk _)
    · rfl
  have href : ∀ (o l : Nat) (v : State), TokenFrame v (reference o l v) := fun o l v => by
    unfold TokenFrame; rw [reference_frame]
  have hlit : ∀ (k f : Nat) (v : State), TokenFrame v (literal k f v) := fun k f v => by
    unfold TokenFrame; rw [literal_frame]
  cases i with
  | lit code => simp only [runToken, execLit] at h; obtain ⟨-, -, h⟩ := inDecode_next h; cases h; rfl
  | esc raw =>
    simp only [runToken, execEsc] at h
    obtain ⟨-, -, h⟩ := inDecode_next h
    split at h <;> cases h <;> rfl
  | bref offset len =>
    simp only [runToken, execBref] at h
    obtain ⟨-, -, h⟩ := inDecode_next h
    split at h <;> cases h
    · rfl
    · exact TokenFrame.trans (t := advanceIp 2 s) rfl (href ..)
  | mlit k v => simp only [runToken, execMlit] at h; obtain ⟨-, -, h⟩ := inDecode_next h; exact hbits (hlit k v) h
  | mbrefS offset len =>
    simp only [runToken, execMbrefS] at h
    obtain ⟨-, -, h⟩ := inDecode_next h
    exact hbits (href offset len) h
  | mbrefM offset len =>
    simp only [runToken, execMbrefM] at h
    obtain ⟨-, -, h⟩ := inDecode_next h
    split at h
    · cases h
    · exact hbits (href offset len) h
  | mbrefL offset len =>
    simp only [runToken, execMbrefL] at h
    obtain ⟨-, -, h⟩ := inDecode_next h
    exact hbits (href offset len) h
  | _ => cases h

/-- The head of the loop hands a token the state it stands in. -/
theorem fetchToken_run {form : Form} {s u : State} {i : Instr} (h : fetchToken form s = .run i u) : u = s := by
  cases form with
  | raw => cases h
  | legacy =>
    unfold fetchToken at h
    dsimp only at h
    split at h
    · unfold fetchLegacy at h; split at h <;> cases h; rfl
    · cases h
  | modern =>
    unfold fetchToken at h
    dsimp only at h
    split at h
    · unfold fetchModern at h
      split at h
      · cases h
      · split at h <;> cases h; rfl
    · cases h

/-- What the head of the loop does itself: the end of the loop, a stop, or a raw byte. -/
theorem fetchToken_act {form : Form} {s u : State} (h : fetchToken form s = .act u) : TokenFrame s u := by
  cases form with
  | raw =>
    cases h
    unfold rawStep
    split
    · split
      · rfl
      · split <;> rfl
    · rfl
  | legacy =>
    unfold fetchToken at h
    dsimp only at h
    split at h
    · unfold fetchLegacy at h; split at h <;> cases h; rfl
    · cases h; rfl
  | modern =>
    unfold fetchToken at h
    dsimp only at h
    split at h
    · unfold fetchModern at h
      split at h
      · cases h
      · split at h <;> cases h; rfl
    · cases h; rfl

/-- Everything one iteration of the loop can have changed. -/
theorem decodeStep_frame {form : Form} {s t : State} (h : decodeStep form s = .next t) : TokenFrame s t := by
  unfold decodeStep at h
  split at h
  · next i u hf => rw [fetchToken_run hf] at h; exact runToken_frame h
  · next u hf => cases h; exact fetchToken_act hf
  · cases h

/-- Everything the whole loop can have changed. -/
theorem decodeLoop_frame {n : Nat} {s t : State} (h : decodeLoop n s = .next t) : TokenFrame s t := by
  induction n generalizing s with
  | zero => cases h; rfl
  | succ n ih =>
    unfold decodeLoop at h
    split at h
    · obtain ⟨u, hu, ht⟩ := andThen_next_iff.1 h
      exact (decodeStep_frame hu).trans (ih ht)
    · cases h; rfl
    · cases h; rfl

/-- Everything a set-up can change (40 R100, 41 R130, 42 R172). -/
theorem openDecode_frame (form : Form) (o : Origin) (buf : ByteString) (s : State) :
    openDecode form o buf s =
      { s with
        inbuf := buf, out := [], outlen := 0#16
        ip := (openDecode form o buf s).ip, bitpos := (openDecode form o buf s).bitpos
        inlen := (openDecode form o buf s).inlen, declen := (openDecode form o buf s).declen
        status := (openDecode form o buf s).status, mtf := (openDecode form o buf s).mtf
        stage := (openDecode form o buf s).stage } := by
  cases form with
  | raw => rfl
  | legacy =>
    show openLegacy o buf s = _
    unfold openDecode openLegacy
    dsimp only
    split <;> rfl
  | modern =>
    show openModern o buf s = _
    unfold openDecode openModern
    dsimp only
    split <;> rfl

/-- Post-processing changes `OUT` and `OUTLEN` only (40 R106). -/
theorem postProcess_frame (form : Form) (s : State) :
    postProcess form s = { s with out := (postProcess form s).out, outlen := (postProcess form s).outlen } := by
  cases form with
  | legacy =>
    show dropSnippet s = _
    unfold postProcess dropSnippet
    dsimp only
    split <;> rfl
  | modern => rfl
  | raw => rfl

/-- Everything the region decode inside another command can have changed (43 R207, 44 R244; log 15). -/
theorem decodeRegion_next {s t : State} (h : decodeRegion s = .next t) :
    t = { s with
      ip := t.ip, bitpos := t.bitpos, inbuf := codeRegion s, inlen := t.inlen, declen := t.declen, out := t.out
      outlen := t.outlen, status := t.status, mtf := t.mtf } := by
  obtain ⟨u, hu, ht⟩ := andThen_next_iff.1 h
  cases ht
  have hl := decodeLoop_frame hu
  unfold TokenFrame at hl
  rw [postProcess_frame]
  rw [hl]
  rw [openDecode_frame]

/-! ### What a step is -/

/-- Every step that answers a next state: an instruction's meaning, the engine's own act, in the stage and at the event that
`fetch` reads. -/
theorem step_next {s t : State} (h : step s = .next t) :
    (∃ form o, s.stage = .decoding form o ∧ decodeStep form s = .next t) ∨
    (∃ form o, s.stage = .ended form o ∧ t = finishDecode form o s) ∨
    (s.stage = .idle ∧ s.port = [] ∧ t = s) ∨
    (∃ rest, s.stage = .idle ∧ s.port = .reset :: rest ∧ t = hostReset { s with port := rest }) ∨
    ∃ msg rest i, s.stage = .idle ∧ s.port = .command msg :: rest ∧ s.faulted = false ∧ decodeCommand msg = .ok i ∧
      exec i { s with port := rest } = .next t := by
  unfold step fetch at h
  cases hst : s.stage with
  | decoding form o =>
    refine .inl ⟨form, o, rfl, ?_⟩
    simp only [hst] at h
    unfold decodeStep
    cases hf : fetchToken form s with
    | run i u =>
      simp only [hf] at h ⊢
      by_cases hc : i.stream = .command
      · exfalso
        cases form with
        | raw => cases hf
        | legacy =>
          unfold fetchToken fetchLegacy at hf
          dsimp only at hf
          split at hf
          · split at hf
            · next j _ hd =>
              cases hf
              unfold decodeLegacy at hd
              repeat' split at hd
              all_goals first | (cases hd; done) | (cases hd; cases hc)
            · cases hf
          · cases hf
        | modern =>
          unfold fetchToken fetchModern at hf
          dsimp only at hf
          split at hf
          · split at hf
            · cases hf
            · split at hf
              · next j _ hd =>
                cases hf
                unfold decodeModern decodeLiteral at hd
                repeat' split at hd
                all_goals first | (cases hd; done) | (cases hd; cases hc)
              · cases hf
          · cases hf
      · rw [runToken_eq_exec hc]; exact h
    | act u => simp only [hf] at h ⊢; exact h
    | refuse r => simp only [hf] at h; cases h
  | ended form o =>
    simp only [hst] at h
    cases h
    exact .inr (.inl ⟨form, o, rfl, rfl⟩)
  | idle =>
    simp only [hst] at h
    cases hp : s.port with
    | nil => simp only [hp] at h; cases h; exact .inr (.inr (.inl ⟨rfl, rfl, rfl⟩))
    | cons e rest =>
      cases e with
      | reset => simp only [hp] at h; cases h; exact .inr (.inr (.inr (.inl ⟨rest, rfl, rfl, rfl⟩)))
      | command msg =>
        simp only [hp] at h
        unfold fetchCommand at h
        split at h
        · next i u hf =>
          split at hf
          · cases hf
          · next hfa =>
            split at hf
            · next j hd =>
              cases hf
              exact .inr (.inr (.inr (.inr ⟨msg, rest, i, rfl, rfl, by simpa using hfa, hd, h⟩)))
            · cases hf
        · next u hf =>
          split at hf
          · cases hf
          · split at hf <;> cases hf
        · cases h

end Sys2Proof.Machine
end

