-- ==== Sys2Proof/Laws/PerInstr.lean ====
section
/-! SUPPORT. A law of every instruction as syntax, one lemma per constructor: the form of its encoding in its own stream
(30_encoding.md R70 to R72, R76, R78, R84). -/

namespace Sys2Proof.Laws.EncodingForm

open Sys2Proof

/-- The encoding of a well-formed instruction has the form of its stream: a command message begins with a listed code (R84), a
Legacy token is one or two bytes (R73), a Modern token at least six bits, the first its kind bit (R75, R76, R78). -/
def Statement (i : Instr) : Prop :=
  i.wf = true →
    match i.stream with
    | .command => ∃ code ops, encodeCommand i = code :: ops ∧ (cmdOfCode code).isSome = true
    | .legacy => (encodeLegacy i).length = 1 ∨ (encodeLegacy i).length = 2
    | .modern => ∃ kind rest, encodeModern i = kind :: rest ∧ 5 ≤ rest.length

theorem bitsOfNat_length (n v : Nat) : (bitsOfNat n v).length = n := by
  induction n generalizing v with
  | zero => rfl
  | succ n ih => simp [bitsOfNat, ih]

theorem lit (code : Nat) : Statement (.lit code) := fun _ => Or.inl rfl

theorem esc (raw : Byte) : Statement (.esc raw) := fun _ => Or.inr rfl

theorem bref (offset len : Nat) : Statement (.bref offset len) := fun _ => Or.inr rfl

theorem mlit (k v : Nat) : Statement (.mlit k v) := by
  intro _
  by_cases h : k = 5
  · exact ⟨true, List.replicate 5 true, by simp [encodeModern, h], by simp⟩
  · exact ⟨true, List.replicate k true ++ false :: bitsOfNat (4 + k) v, by simp [encodeModern, h],
      by simp [bitsOfNat_length]; omega⟩

theorem mbrefS (offset len : Nat) : Statement (.mbrefS offset len) :=
  fun _ => ⟨false, _, rfl, by simp [bitsOfNat_length]; omega⟩

theorem mbrefM (offset len : Nat) : Statement (.mbrefM offset len) :=
  fun _ => ⟨false, _, rfl, by simp [bitsOfNat_length]; omega⟩

theorem mbrefL (offset len : Nat) : Statement (.mbrefL offset len) :=
  fun _ => ⟨false, _, rfl, by simp [bitsOfNat_length]; omega⟩

theorem decompress (src : Source) : Statement (.decompress src) := by
  intro _
  cases src <;> exact ⟨_, _, rfl, rfl⟩

theorem compressLegacy (src : ByteString) : Statement (.compressLegacy src) := fun _ => ⟨_, _, rfl, rfl⟩

theorem compressModern (src : ByteString) : Statement (.compressModern src) := fun _ => ⟨_, _, rfl, rfl⟩

theorem compressBest (src : ByteString) : Statement (.compressBest src) := fun _ => ⟨_, _, rfl, rfl⟩

theorem romRead (a : Nat) : Statement (.romRead a) := fun _ => ⟨_, _, rfl, rfl⟩

theorem romWrite (a v : Nat) : Statement (.romWrite a v) := fun _ => ⟨_, _, rfl, rfl⟩

theorem labelRead (a : Nat) : Statement (.labelRead a) := fun _ => ⟨_, _, rfl, rfl⟩

theorem labelWrite (a v : Nat) : Statement (.labelWrite a v) := fun _ => ⟨_, _, rfl, rfl⟩

theorem romClear : Statement .romClear := fun _ => ⟨_, _, rfl, rfl⟩

theorem binAssemble (ver : Nat) : Statement (.binAssemble ver) := fun _ => ⟨_, _, rfl, rfl⟩

theorem pngUnpack (w h : Nat) (p : ByteString) : Statement (.pngUnpack w h p) := fun _ => ⟨_, _, rfl, rfl⟩

theorem pngPack (w h : Nat) (p : ByteString) (ver : Nat) : Statement (.pngPack w h p ver) := fun _ => ⟨_, _, rfl, rfl⟩

theorem textParse (t : ByteString) : Statement (.textParse t) := fun _ => ⟨_, _, rfl, rfl⟩

theorem textSerialize (ver : Nat) : Statement (.textSerialize ver) := fun _ => ⟨_, _, rfl, rfl⟩

end Sys2Proof.Laws.EncodingForm
end

