-- ==== Sys2Proof/Laws/Text.lean ====
section
/-! SUPPORT. Laws of the text sections: what applying one, and all, can change (44 R230 to R243). -/

namespace Sys2Proof.Machine

open Sys2Proof

/-- `t` differs from `s` in the memories, the cache and `STATUS` at most. -/
def TextFrame (s t : State) : Prop :=
  t = { s with
    rom := t.rom, label := t.label, cache := t.cache, cacheValid := t.cacheValid, status := t.status }

theorem TextFrame.refl (s : State) : TextFrame s s := rfl

theorem TextFrame.trans {s t u : State} (h : TextFrame s t) (k : TextFrame t u) : TextFrame s u := by
  unfold TextFrame at *
  rw [k, h]

/-- The capacity check changes `STATUS` alone (44 R243). -/
theorem flagTooLarge_frame (c : Nat) (bytes : ByteString) (s : State) :
    flagTooLarge c bytes s = { s with status := (flagTooLarge c bytes s).status } := by
  unfold flagTooLarge setFlagIf
  split <;> rfl

/-- The capacity check is within the frame, after a change that is. -/
theorem TextFrame.tooLarge {s t : State} (h : TextFrame s t) (c : Nat) (bytes : ByteString) :
    TextFrame s (flagTooLarge c bytes t) :=
  h.trans (by unfold TextFrame; rw [flagTooLarge_frame])

/-- A section changes nothing else. -/
theorem applySection_frame (k : SectionKind) (content : ByteString) (s : State) :
    TextFrame s (applySection k content s) := by
  cases k with
  | code => rfl
  | graphics => exact TextFrame.tooLarge (by exact rfl) 0x2000 (hexBytes true content)
  | flags => exact TextFrame.tooLarge (by exact rfl) 0x100 (hexBytes false content)
  | map => exact TextFrame.tooLarge (by exact rfl) 0x2000 (hexBytes false content)
  | sound => exact TextFrame.tooLarge (by exact rfl) 5376 (hexBytes false content)
  | music => exact TextFrame.tooLarge (by exact rfl) 320 (hexBytes false content)
  | label => exact TextFrame.tooLarge (by exact rfl) 0x2000 (hexBytes true content)

/-- All the sections together (44 R230). -/
theorem applySections_frame (secs : List (SectionKind × ByteString)) (s : State) :
    TextFrame s (applySections secs s) := by
  induction secs generalizing s with
  | nil => rfl
  | cons sec secs ih => exact (applySection_frame ..).trans (ih _)

/-- A code section becomes the cache verbatim (44 R241). -/
theorem applySection_code (content : ByteString) (s : State) :
    applySection .code content s = { s with cache := content, cacheValid := true } := rfl

/-- Only a code section touches the cache. -/
theorem applySection_cache {k : SectionKind} (hk : k ≠ .code) (content : ByteString) (s : State) :
    (applySection k content s).cache = s.cache ∧ (applySection k content s).cacheValid = s.cacheValid := by
  cases k with
  | code => exact absurd rfl hk
  | graphics | flags | map | sound | music | label =>
    constructor <;>
      simp only [applySection, applyGraphics, applyFlags, applyMap, applySound, applyMusic, applyLabel] <;>
      rw [flagTooLarge_frame] <;> rfl

end Sys2Proof.Machine
end

