-- ==== Sys2Proof/Tests/Slice0.lean ====
section
/-! SUPPORT. The model's own tests: the ill-formed terms WellFormed refuses, the decoding of words written out from the spec's
formats, small steps with the spec's worked examples (their expected values are the rules' examples and 95_test_vectors.md), and
a witness for the hypotheses of every statement. -/

set_option Elab.async false

namespace Sys2Proof.Tests

open Sys2Proof Sys2Proof.Machine

/-! ## Helpers -/

/-- A field of the next state, when there is one. -/
def nextOf {α : Type} (f : State → α) (o : Step) : Option α :=
  match o with
  | .next t => some (f t)
  | .fault _ => none
  | .refused _ => none

/-- A field read off a step gives the state it was read from. -/
theorem of_nextOf {α : Type} {f : State → α} {o : Step} {v : α} (h : nextOf f o = some v) :
    ∃ t, o = .next t ∧ f t = v := by
  cases o with
  | next t => exact ⟨t, rfl, Option.some.inj h⟩
  | fault _ => cases h
  | refused _ => cases h

/-- Why a step was refused, when it was. -/
def refusal (o : Step) : Option Refusal :=
  match o with
  | .next _ => none
  | .fault _ => none
  | .refused r => some r

/-- The last result of the next state. -/
def lastOf (o : Step) : Option (Option Result) := nextOf (fun t => t.results.getLast?) o

/-- A Legacy decode under way: the stream ahead, `OUT` so far, the declared length. -/
def leg (body out : ByteString) (declen : Nat) : State :=
  { State.reset with
    inbuf := legacyHeader defaultConfig declen ++ body, inlen := word16Of (8 + body.length), declen := word16Of declen
    ip := 8#16, out := out, outlen := word16Of out.length, mode := .legacy, stage := .decoding .legacy .host }

/-- A Modern decode under way: the body's bits, `OUT` so far, the declared length. -/
def mod (bits : List Bool) (out : ByteString) (declen : Nat) : State :=
  { State.reset with
    inbuf := modernBuffer defaultConfig declen bits, inlen := word16Of ((bits.length + 7) / 8), declen := word16Of declen
    bitpos := 0#19, out := out, outlen := word16Of out.length, mode := .modern, stage := .decoding .modern .host }

/-- An idle state with a valid cache. -/
def cached (src : ByteString) : State := { State.reset with cache := src, cacheValid := true }

/-- A faulted state. -/
def broken : State := { State.reset with faulted := true, fcause := 1#4, faddr := 0x9000#16 }

/-- `n` ones or zeros. -/
def zeros (n : Nat) : List Bool := List.replicate n false

/-! ## WellFormed refuses the ill-formed -/

theorem test_wf_lit : (Instr.lit 0).wf = false ∧ (Instr.lit 60).wf = false := by decide
theorem test_wf_bref : (Instr.bref 3136 2).wf = false ∧ (Instr.bref 1 1).wf = false ∧ (Instr.bref 1 18).wf = false := by decide
theorem test_wf_mlit : (Instr.mlit 0 16).wf = false ∧ (Instr.mlit 5 1).wf = false ∧ (Instr.mlit 6 0).wf = false := by decide
theorem test_wf_mbrefS : (Instr.mbrefS 0 3).wf = false ∧ (Instr.mbrefS 33 3).wf = false ∧ (Instr.mbrefS 1 2).wf = false := by
  decide
theorem test_wf_mbrefM : (Instr.mbrefM 0 3).wf = false ∧ (Instr.mbrefM 1025 3).wf = false ∧ (Instr.mbrefM 1 2).wf = false := by
  decide
theorem test_wf_mbrefL : (Instr.mbrefL 0 3).wf = false ∧ (Instr.mbrefL 32769 3).wf = false ∧ (Instr.mbrefL 1 2).wf = false := by
  decide
theorem test_wf_decompress : (Instr.decompress (.host (List.replicate 65536 0#8))).wf = false := by
  show decide ((List.replicate 65536 0#8).length ≤ bufferMax) = false
  rw [List.length_replicate]
  decide
theorem test_wf_accessors : (Instr.romRead 65536).wf = false ∧ (Instr.romWrite 65536 0).wf = false ∧
    (Instr.romWrite 0 256).wf = false ∧ (Instr.labelRead 65536).wf = false ∧ (Instr.labelWrite 65536 0).wf = false ∧
    (Instr.labelWrite 0 256).wf = false := by decide
theorem test_wf_versions : (Instr.binAssemble 256).wf = false ∧ (Instr.textSerialize 256).wf = false ∧
    (Instr.pngPack 0 0 [] 256).wf = false := by decide
theorem test_wf_sizes : (Instr.pngUnpack 65536 0 []).wf = false ∧ (Instr.pngUnpack 0 65536 []).wf = false ∧
    (Instr.pngPack 65536 0 [] 0).wf = false ∧ (Instr.pngPack 0 65536 [] 0).wf = false := by decide
theorem test_config_wf : defaultConfig.wf = true := by decide +kernel
theorem test_config_wf_magic : Config.wf { defaultConfig with modernMagic := defaultConfig.legacyMagic } = false ∧
    Config.wf { defaultConfig with legacyMagic := [] } = false ∧
    Config.wf { defaultConfig with modernMagic := [0#8] } = false := by decide +kernel
theorem test_config_wf_alphabet : Config.wf { defaultConfig with alphabet := [0x61#8] } = false ∧
    Config.wf { defaultConfig with alphabet := List.replicate 59 0x61#8 } = false := by decide +kernel
theorem test_config_wf_palette : Config.wf { defaultConfig with palette := [] } = false := by decide +kernel
theorem test_config_wf_markers : Config.wf { defaultConfig with markLua := defaultConfig.markGfx } = false ∧
    Config.wf { defaultConfig with markLua := gffMarker } = false ∧
    Config.wf { defaultConfig with markLua := [0x0a#8] } = false ∧
    Config.wf { defaultConfig with headerPhrase := [0x0d#8] } = false := by decide +kernel

/-! ## Words of the formats -/

/-- R70: `0d` is code 13. -/
theorem test_decode_lit : decode (.legacy [0x0d#8]) = .ok (.lit 0x0d) := rfl
/-- R71: a zero byte, then the raw byte. -/
theorem test_decode_esc : decode (.legacy [0x00#8, 0x41#8]) = .ok (.esc 0x41#8) := rfl
/-- R72: `3c 62` is offset 2, length 8; `ff ff` is offset 3135, length 17; `3c 00` is offset 0, length 2. -/
theorem test_decode_bref : decode (.legacy [0x3c#8, 0x62#8]) = .ok (.bref 2 8) ∧
    decode (.legacy [0xff#8, 0xff#8]) = .ok (.bref 3135 17) ∧ decode (.legacy [0x3c#8, 0x00#8]) = .ok (.bref 0 2) :=
  ⟨rfl, rfl, rfl⟩
/-- R76: `1 110 100011` is k = 2, v = 49; `1 0 0000` is rank 0; R82: five ones end the code. -/
theorem test_decode_mlit :
    decode (.modern [true, true, true, false, true, false, false, false, true, true]) = .ok (.mlit 2 49) ∧
    decode (.modern [true, false, false, false, false, false]) = .ok (.mlit 0 0) ∧
    decode (.modern [true, true, true, true, true, true]) = .ok (.mlit 5 0) := ⟨rfl, rfl, rfl⟩
/-- R78, R79: kind 0, prefix 11, five offset bits, groups; 41 R155's example `0 11 00000 001` is length 7. -/
theorem test_decode_mbrefS :
    decode (.modern ([false, true, true] ++ zeros 5 ++ [false, false, true])) = .ok (.mbrefS 1 7) ∧
    decode (.modern ([false, true, true] ++ [true, true, true, true, true] ++ [true, true, true] ++ zeros 3)) =
      .ok (.mbrefS 32 10) := ⟨rfl, rfl⟩
/-- R78: kind 0, prefix 10, ten offset bits, least significant first. -/
theorem test_decode_mbrefM :
    decode (.modern ([false, true, false] ++ true :: zeros 9 ++ zeros 3)) = .ok (.mbrefM 2 3) := rfl
/-- R78: kind 0, prefix 0, fifteen offset bits, least significant first. -/
theorem test_decode_mbrefL :
    decode (.modern ([false, false] ++ zeros 14 ++ [true] ++ zeros 3)) = .ok (.mbrefL 16385 3) := rfl
/-- R84: the codes and operand widths of the commands (operand bytes in the model's order, log 5). -/
theorem test_decode_codec_commands : decode (.command [0x01#8, 0x00#8]) = .ok (.decompress .region) ∧
    decode (.command [0x01#8, 0x01#8, 0x68#8]) = .ok (.decompress (.host [0x68#8])) ∧
    decode (.command [0x02#8, 0x61#8]) = .ok (.compressLegacy [0x61#8]) ∧
    decode (.command [0x03#8, 0x61#8]) = .ok (.compressModern [0x61#8]) ∧
    decode (.command [0x04#8, 0x61#8]) = .ok (.compressBest [0x61#8]) := ⟨rfl, rfl, rfl, rfl, rfl⟩
theorem test_decode_accessors : decode (.command [0x10#8, 0x43#8, 0x00#8]) = .ok (.romRead 0x4300) ∧
    decode (.command [0x11#8, 0x90#8, 0x00#8, 0x01#8]) = .ok (.romWrite 0x9000 1) ∧
    decode (.command [0x12#8, 0x20#8, 0x00#8]) = .ok (.labelRead 0x2000) ∧
    decode (.command [0x13#8, 0x00#8, 0x00#8, 0x21#8]) = .ok (.labelWrite 0 0x21) ∧
    decode (.command [0x14#8]) = .ok .romClear := ⟨rfl, rfl, rfl, rfl, rfl⟩
theorem test_decode_serializers : decode (.command [0x20#8, 0x29#8]) = .ok (.binAssemble 0x29) ∧
    decode (.command [0x30#8, 0x00#8, 0xa0#8, 0x00#8, 0xcd#8, 0x07#8]) = .ok (.pngUnpack 160 205 [0x07#8]) ∧
    decode (.command [0x31#8, 0x00#8, 0xa0#8, 0x00#8, 0xcd#8, 0x29#8, 0x07#8]) = .ok (.pngPack 160 205 [0x07#8] 0x29) ∧
    decode (.command [0x40#8, 0x0a#8]) = .ok (.textParse [0x0a#8]) ∧
    decode (.command [0x41#8, 0x29#8]) = .ok (.textSerialize 41) := ⟨rfl, rfl, rfl, rfl, rfl⟩
/-- R84: a code not listed, and a source other than 0 and 1. -/
theorem test_decode_reserved : decode (.command [0x05#8]) = .error (.reservedCode 0x05#8) ∧
    decode (.command [0x01#8, 0x02#8]) = .error (.badSource 0x02#8) := ⟨rfl, rfl⟩

/-! ## Steps: tokens -/

/-- R102's example: `0d` appends `a`; `0e 0f` after it are not read. -/
theorem test_lit : nextOf (fun t => (t.out, t.outlen, t.ip)) (step (leg [0x0d#8, 0x0e#8, 0x0f#8] [] 1)) =
    some ([0x61#8], 1#16, 9#16) := by decide +kernel
/-- R103's example: `00 41` appends `A`. -/
theorem test_esc : nextOf (fun t => (t.out, t.outlen, t.ip)) (step (leg [0x00#8, 0x41#8] [] 1)) =
    some ([0x41#8], 1#16, 10#16) := by decide +kernel
/-- R103: a cut-short escape appends nothing and sets `TRUNC` (bit 4). -/
theorem test_esc_cut : nextOf (fun t => (t.out, t.ip, t.status)) (step (leg [0x00#8] [] 1)) = some ([], 8#16, 0x10#8) := by
  decide +kernel
/-- R104's example: after `ab`, `3c 62` with `DECLEN = 8` appends `ababab`. -/
theorem test_bref : nextOf (fun t => (t.out, t.status)) (step (leg [0x3c#8, 0x62#8] [0x61#8, 0x62#8] 8)) =
    some ([0x61#8, 0x62#8, 0x61#8, 0x62#8, 0x61#8, 0x62#8, 0x61#8, 0x62#8], 0#8) := by decide +kernel
/-- R104: an offset beyond `OUTLEN` is consumed, copies nothing, sets `CBR` (bit 2). -/
theorem test_bref_corrupt : nextOf (fun t => (t.out, t.ip, t.status)) (step (leg [0x3c#8, 0x62#8] [0x61#8] 8)) =
    some ([0x61#8], 10#16, 0x04#8) := by decide +kernel
/-- R141's and R137's examples: rank 97 from the identity appends `a` and moves it to the front. -/
theorem test_mlit : nextOf (fun t => (t.out, t.mtf.take 3, t.mtf.drop 97 |>.take 2, t.bitpos))
    (step (mod [true, true, true, false, true, false, false, false, true, true] [] 1)) =
    some ([0x61#8], [0x61#8, 0x00#8, 0x01#8], [0x60#8, 0x62#8], 10#19) := by decide +kernel
/-- R142's example: `MLIT #0` from the identity is the end marker (bit 6). -/
theorem test_mlit_end : nextOf (fun t => (t.out, t.status)) (step (mod [true, false, false, false, false, false] [] 1)) =
    some ([], 0x40#8) := by decide +kernel
/-- R143's example: after `a`, offset 1 and length 3 append `aaa`. -/
theorem test_mbrefS : nextOf (fun t => (t.out, t.bitpos)) (step (mod ([false, true, true] ++ zeros 8) [0x61#8] 9)) =
    some ([0x61#8, 0x61#8, 0x61#8, 0x61#8], 11#19) := by decide +kernel
/-- R144's example. -/
theorem test_mbrefM : nextOf (fun t => (t.out, t.bitpos)) (step (mod ([false, true, false] ++ zeros 13) [0x61#8] 9)) =
    some ([0x61#8, 0x61#8, 0x61#8, 0x61#8], 16#19) := by decide +kernel
/-- R147: the same form is refused under `MODERN_RAW_ESCAPE`. -/
theorem test_mbrefM_escape : refusal (step { mod ([false, true, false] ++ zeros 13) [0x61#8] 9 with
    cfg := { defaultConfig with modernRawEscape := true } }) = some .rawEscape := by decide +kernel
/-- R145's example. -/
theorem test_mbrefL : nextOf (fun t => (t.out, t.bitpos)) (step (mod (zeros 20) [0x61#8] 9)) =
    some ([0x61#8, 0x61#8, 0x61#8, 0x61#8], 20#19) := by decide +kernel
/-- R145: an offset beyond `OUTLEN` sets `CBR` and copies nothing. -/
theorem test_mbrefL_corrupt : nextOf (fun t => (t.out, t.status)) (step (mod (zeros 20) [] 9)) = some ([], 0x04#8) := by
  decide +kernel
/-- 40 R101: with `OUTLEN = DECLEN` the loop ends and nothing is read. -/
theorem test_loop_end : nextOf (fun t => (t.ip, t.stage)) (step (leg [0x0d#8] [0x61#8] 1)) =
    some (8#16, .ended .legacy .host) := by decide +kernel

/-! ## Steps: commands -/

/-- R170's example. -/
theorem test_decompress_modern : lastOf (exec (.decompress (.host
    [0x00#8, 0x70#8, 0x78#8, 0x61#8, 0x00#8, 0x01#8, 0x00#8, 0x0a#8, 0x17#8, 0x03#8])) State.reset) =
    some (some (.decoded [0x61#8] .modern 0#8)) := by decide +kernel
/-- R172's example. -/
theorem test_decompress_raw : lastOf (exec (.decompress (.host [0x68#8, 0x69#8, 0x00#8, 0x41#8])) State.reset) =
    some (some (.decoded [0x68#8, 0x69#8] .raw 0#8)) := by decide +kernel
/-- R175's example. -/
theorem test_compressLegacy : lastOf (exec (.compressLegacy
    [0x61#8, 0x62#8, 0x63#8, 0x64#8, 0x61#8, 0x62#8, 0x63#8, 0x64#8]) State.reset) =
    some (some (.compressed [0x3a#8, 0x63#8, 0x3a#8, 0x00#8, 0x00#8, 0x08#8, 0x00#8, 0x00#8, 0x0d#8, 0x0e#8, 0x0f#8, 0x10#8,
      0x3c#8, 0x24#8] 0#8)) := by decide +kernel
/-- R176's example. -/
theorem test_compressModern : lastOf (exec (.compressModern [0x61#8, 0x61#8, 0x61#8, 0x61#8]) State.reset) =
    some (some (.compressed [0x00#8, 0x70#8, 0x78#8, 0x61#8, 0x00#8, 0x04#8, 0x00#8, 0x0b#8, 0x17#8, 0x1b#8, 0x00#8] 0#8)) := by
  decide +kernel
/-- R26, R45: the encode's output is in `OUT` (R156's example). -/
theorem test_compressModern_out : nextOf (fun t => t.out) (exec (.compressModern [0x61#8]) State.reset) =
    some [0x00#8, 0x70#8, 0x78#8, 0x61#8, 0x00#8, 0x01#8, 0x00#8, 0x0a#8, 0x17#8, 0x03#8] := by decide +kernel
/-- R177's example: the Modern buffer is shorter. -/
theorem test_compressBest : nextOf (fun t => t.mode) (exec (.compressBest [0x61#8, 0x61#8, 0x61#8, 0x61#8]) State.reset) =
    some .modern := by decide +kernel
/-- R177: a tie keeps Legacy. -/
theorem test_compressBest_tie : lastOf (exec (.compressBest []) State.reset) =
    some (some (.best [0x3a#8, 0x63#8, 0x3a#8, 0x00#8, 0x00#8, 0x00#8, 0x00#8, 0x00#8] .legacy 0#8)) := by decide +kernel
/-- R200's examples. -/
theorem test_romRead : lastOf (exec (.romRead 0x4300) State.reset) = some (some (.byte 0#8)) := by decide +kernel
theorem test_romRead_fault : nextOf (fun t => (t.faulted, t.fcause, t.faddr, t.results)) (exec (.romRead 0x8000) State.reset) =
    some (true, 1#4, 0x8000#16, []) := by decide +kernel
/-- R201's example: the byte is gfx pixels (0, 64), (1, 64) and map tile (0, 32). -/
theorem test_romWrite : nextOf (fun t => (t.rom, gfxPixel t 0 64, gfxPixel t 1 64, mapTile t 0 32))
    (exec (.romWrite 0x1000 0x5a) State.reset) = some ([(0x1000, 0x5a#8)], 0xa#4, 0x5#4, 0x5a#8) := by decide +kernel
/-- R201: a write to the code region invalidates the cache even with the old byte. -/
theorem test_romWrite_cache : nextOf (fun t => (t.rom, t.cacheValid)) (exec (.romWrite 0x4300 0) (cached [])) =
    some ([], false) := by decide +kernel
/-- R202's example. -/
theorem test_labelRead_fault : nextOf (fun t => (t.faulted, t.fcause, t.faddr)) (exec (.labelRead 0x2000) State.reset) =
    some (true, 2#4, 0x2000#16) := by decide +kernel
/-- R203's example: label pixels (0, 0) = 1 and (1, 0) = 2. -/
theorem test_labelWrite : nextOf (fun t => (labelPixel t.label 0 0, labelPixel t.label 1 0))
    (exec (.labelWrite 0 0x21) State.reset) = some (1#4, 2#4) := by decide +kernel
/-- R204. -/
theorem test_romClear : nextOf (fun t => (t.rom, t.label, t.cacheValid))
    (exec .romClear { cached [] with rom := [(5, 1#8)], label := [(6, 2#8)] }) = some ([], [], false) := by decide +kernel
/-- R207's example, from the valid empty cache: ROM to the code region, the empty Legacy buffer, the version. -/
theorem test_binAssemble : ∃ t, exec (.binAssemble 0x29) (cached []) = .next t ∧
    t.results = [.image (State.reset.rom.slice 0 0x4300 ++ [0x3a#8, 0x63#8, 0x3a#8, 0x00#8, 0x00#8, 0x00#8, 0x00#8, 0x00#8] ++
      [0x29#8]) 0#8] := ⟨_, rfl, rfl⟩
/-- R209: a small buffer fails with `FNR`. -/
theorem test_pngUnpack_small : lastOf (exec (.pngUnpack 1 1 [0#8, 0#8, 0#8, 0#8]) State.reset) =
    some (some (.failed 0x01#8)) := by decide +kernel
/-- R210's example. -/
theorem test_pixByte : pixByte ⟨0x01#8, 0x02#8, 0x03#8, 0xfe#8⟩ = 0x9b#8 := by decide +kernel
/-- R213: a malformed buffer is refused. -/
theorem test_pngPack_malformed : refusal (exec (.pngPack 1 1 [] 0) State.reset) = some .pixelBufferLength := by decide +kernel
/-- R217's example. -/
theorem test_embedByte : embedByte 0x9b#8 ⟨0xff#8, 0xff#8, 0xff#8, 0xff#8⟩ = ⟨0xfd#8, 0xfe#8, 0xff#8, 0xfe#8⟩ := by
  decide +kernel
/-- R216's example. -/
theorem test_nearest : nearest defaultPalette 250#8 5#8 80#8 = 8 := by decide +kernel

/-- R230's example: the header line, the version line, `__gff__`, `01`. -/
def gffText : ByteString :=
  defaultConfig.headerPhrase ++ [0x0a#8] ++ versionWord ++ [0x34#8, 0x31#8, 0x0a#8] ++ gffMarker ++
    [0x0a#8, 0x30#8, 0x31#8, 0x0a#8]

theorem test_textParse : nextOf (fun t => (t.rom, t.label, t.cache, t.cacheValid, t.status))
    (exec (.textParse gffText) { State.reset with rom := [(7, 1#8)] }) = some ([(0x3000, 0x01#8)], [], [], true, 0#8) := by
  decide +kernel
/-- R237's example: graphics byte 0x1000 = 0x0f and map byte 0x1000 = 0x30 give 0x3f. -/
theorem test_orMerge : (Memory.orList [(0x1000, 0x0f#8)] 0x1000 [0x30#8]) = [(0x1000, 0x3f#8)] := by decide +kernel
/-- R244's example: an empty cartridge is the two header lines. -/
theorem test_textSerialize : lastOf (exec (.textSerialize 41) (cached [])) =
    some (some (.text (defaultConfig.headerPhrase ++ [0x0a#8] ++ versionWord ++ [0x34#8, 0x31#8, 0x0a#8]) 0#8)) := by
  decide +kernel
/-- R253's example: entry bytes `81 82 03 84` give `0b 01020304`, and R239's the way back. -/
theorem test_musicLine : (musicLine { State.reset with
      rom := [(0x3100, 0x81#8), (0x3101, 0x82#8), (0x3102, 0x03#8), (0x3103, 0x84#8)] } 0).text =
      [0x30#8, 0x62#8, 0x20#8, 0x30#8, 0x31#8, 0x30#8, 0x32#8, 0x30#8, 0x33#8, 0x30#8, 0x34#8] ∧
    songBytes [0x0b#8, 0x01#8, 0x02#8, 0x03#8, 0x04#8] = [0x81#8, 0x82#8, 0x03#8, 0x84#8] := by decide +kernel
/-- R240's and R221's example: a note written `18351` is 0x1ad8, bytes `d8 1a`. -/
theorem test_note : noteBytes [1, 8, 3, 5, 1] = [0xd8#8, 0x1a#8] ∧
    noteDigits 0x1ad8#16 = [0x31#8, 0x38#8, 0x33#8, 0x35#8, 0x31#8] := by decide +kernel

/-! ## Steps: the machine -/

/-- 60 R265's example: `ROM_WRITE(0x9000, 1)` as a host message. -/
theorem test_message : nextOf (fun t => (t.faulted, t.fcause, t.faddr, t.port))
    (step { State.reset with port := [.command [0x11#8, 0x90#8, 0x00#8, 0x01#8]] }) =
    some (true, 1#4, 0x9000#16, []) := by decide +kernel
/-- 60 R266: refused while faulted. -/
theorem test_refused_faulted : refusal (exec .romClear broken) = some .faulted := by decide +kernel
/-- 70 R291: reset clears the fault. -/
theorem test_reset_event : nextOf (fun t => (t.faulted, t.fcause, t.faddr)) (step { broken with port := [.reset] }) =
    some (false, 0#4, 0#16) := by decide +kernel
/-- A table word of each stream runs as the next step. -/
theorem test_fetchWord : nextOf (fun t => t.out) (step (State.reset.withFetchWord 8 0x0d)) = some [0x61#8] ∧
    nextOf (fun t => t.out) (step (State.reset.withFetchWord 16 0x4100)) = some [0x41#8] ∧
    nextOf (fun t => t.status) (step (State.reset.withFetchWord 16 0x0001)) = some 0x40#8 ∧
    nextOf (fun t => t.results) (step (State.reset.withFetchWord 8 0x14)) = some [.done] := by decide +kernel

/-! ## Witnesses: a state and operands that meet the hypotheses of each statement, clause by clause -/

theorem witness_LegacyEncodingIsOneToOne :
    ((Instr.bref 3135 17).stream = .legacy ∧ (Instr.bref 3135 17).wf = true) ∧
    ((Instr.lit 59).stream = .legacy ∧ (Instr.lit 59).wf = true) ∧
    decodeLegacy [0x3c#8, 0x00#8, 0x07#8] = .ok (.bref 0 2, [0x07#8]) := ⟨⟨rfl, rfl⟩, ⟨rfl, rfl⟩, rfl⟩
/-- An ordinary token, the illegal prefix of five ones (R82 (a), log 22), and bits that decode. -/
theorem witness_ModernEncodingIsOneToOne :
    ((Instr.mbrefL 32768 1000).stream = .modern ∧ (Instr.mbrefL 32768 1000).wf = true) ∧
    ((Instr.mlit 5 0).stream = .modern ∧ (Instr.mlit 5 0).wf = true) ∧
    decodeModern (zeros 20 ++ [true]) = .ok (.mbrefL 1 3, [true]) :=
  ⟨⟨rfl, by decide⟩, ⟨rfl, by decide⟩, rfl⟩
theorem witness_CommandEncodingIsOneToOne :
    ((Instr.romWrite 65535 255).stream = .command ∧ (Instr.romWrite 65535 255).wf = true) ∧
    decodeCommand [0x14#8] = .ok .romClear := ⟨⟨rfl, by decide⟩, rfl⟩
theorem witness_LitAppendsAlphabetByte :
    (InToken .legacy (leg [0x01#8] [] 1) ∧ 1 ≤ 1 ∧ 1 ≤ 59 ∧ (leg [0x01#8] [] 1).cfg.alphabet[1 - 1]? = some 0x0a#8) ∧
    (InToken .legacy (leg [0x3b#8] [] 1) ∧ 1 ≤ 59 ∧ 59 ≤ 59 ∧ (leg [0x3b#8] [] 1).cfg.alphabet[59 - 1]? = some 0x5f#8) :=
  ⟨⟨⟨⟨_, rfl⟩, by decide⟩, by decide, by decide, rfl⟩, ⟨⟨_, rfl⟩, by decide⟩, by decide, by decide, rfl⟩
theorem witness_EscAppendsRawByte :
    (leg [0x00#8, 0x41#8] [] 1).stage = .decoding .legacy .host ∧
    (leg [0x00#8, 0x41#8] [] 1).outlen.toNat < (leg [0x00#8, 0x41#8] [] 1).declen.toNat := ⟨rfl, by decide⟩
theorem witness_BrefCopiesOrFlags :
    let cut := leg [0x3c#8] [0x61#8] 8
    let s := leg [0x3c#8, 0x62#8] [0x61#8] 8
    (cut.stage = .decoding .legacy .host ∧ cut.outlen.toNat < cut.declen.toNat ∧ OutInStep cut ∧
      cut.inlen.toNat ≤ cut.ip.toNat + 1) ∧
    (s.stage = .decoding .legacy .host ∧ s.outlen.toNat < s.declen.toNat ∧ OutInStep s ∧
      s.ip.toNat + 1 < s.inlen.toNat ∧ s.out.length < 2 ∧ 1 ≤ s.out.length) := by
  refine ⟨⟨rfl, by decide, rfl, by decide⟩, rfl, by decide, rfl, by decide, by decide, by decide⟩
theorem witness_MlitAppendsRankedByte :
    let s := mod (zeros 16) [] 1
    s.stage = .decoding .modern .host ∧ s.outlen.toNat < s.declen.toNat ∧
    (15 + 2 ^ (4 + 4) - 16 ≤ 255 ∧ s.bitpos.toNat + (2 * (4 + 4) - 2) ≤ 8 * s.inlen.toNat ∧
      s.mtf[15 + 2 ^ (4 + 4) - 16]? = some 0xff#8) ∧
    (0 + 2 ^ (4 + 0) - 16 ≤ 255 ∧ s.bitpos.toNat + (2 * (4 + 0) - 2) ≤ 8 * s.inlen.toNat ∧
      s.mtf[0 + 2 ^ (4 + 0) - 16]? = some 0x00#8) := by
  refine ⟨rfl, ?_, ⟨?_, ?_, ?_⟩, ?_, ?_, ?_⟩ <;> decide +kernel
theorem witness_IllegalLiteralStopsWithClit :
    let s := mod (zeros 16) [] 1
    s.stage = .decoding .modern .host ∧ s.outlen.toNat < s.declen.toNat ∧
    s.bitpos.toNat + 6 ≤ 8 * s.inlen.toNat ∧ s.bitpos.toNat + 14 ≤ 8 * s.inlen.toNat := by
  refine ⟨rfl, ?_, ?_, ?_⟩ <;> decide +kernel
theorem witness_ModernReferencesCopyOrFlag :
    let s := mod (zeros 24) [0x61#8] 8
    s.stage = .decoding .modern .host ∧ s.outlen.toNat < s.declen.toNat ∧ OutInStep s ∧ s.cfg.modernRawEscape = false ∧
    s.bitpos.toNat + (3 + 5 + 3 * ((3 - 3) / 7 + 1)) ≤ 8 * s.inlen.toNat ∧
    s.bitpos.toNat + (3 + 10 + 3 * ((3 - 3) / 7 + 1)) ≤ 8 * s.inlen.toNat ∧
    s.bitpos.toNat + (2 + 15 + 3 * ((3 - 3) / 7 + 1)) ≤ 8 * s.inlen.toNat ∧ s.out.length < 32 ∧ 1 ≤ s.out.length := by
  refine ⟨rfl, ?_, rfl, rfl, ?_, ?_, ?_, ?_, ?_⟩ <;> decide +kernel
theorem witness_ModernTokenCutShortStops :
    let s := mod (zeros 8) [] 1
    s.stage = .decoding .modern .host ∧ s.outlen.toNat < s.declen.toNat ∧ (Instr.mlit 2 49).stream = .modern ∧
    (Instr.mlit 2 49).wf = true ∧ s.cfg.modernRawEscape = false ∧ s.bitpos.toNat ≤ 8 * s.inlen.toNat ∧
    8 * s.inlen.toNat < s.bitpos.toNat + (encodeModern (.mlit 2 49)).length := by
  refine ⟨rfl, ?_, rfl, ?_, rfl, ?_, ?_⟩ <;> decide +kernel
theorem witness_RawEscapeFormIsRefused :
    let s := { mod (zeros 16) [0x61#8] 8 with cfg := { defaultConfig with modernRawEscape := true } }
    InToken .modern s ∧ s.cfg.modernRawEscape = true ∧ s.bitpos.toNat + 13 ≤ 8 * s.inlen.toNat := by
  refine ⟨⟨⟨_, rfl⟩, ?_⟩, rfl, ?_⟩ <;> decide +kernel
theorem witness_MtfRankIsTheOnlyRank : identityMtf.Perm identityMtf := List.Perm.refl _
theorem witness_PreambleRunsFirst :
    broken.faulted = true ∧ State.reset.faulted = false ∧ (Instr.romRead 65536).stream = .command ∧
    (Instr.romRead 65536).wf = false := ⟨rfl, rfl, rfl, by decide⟩
theorem witness_ReservedCommandCodesRefused :
    let s := { State.reset with port := [.command [0x05#8]] }
    s.stage = .idle ∧ s.faulted = false ∧ s.port = .command (0x05#8 :: []) :: [] ∧
    0x05#8 ∉ [0x01#8, 0x02#8, 0x03#8, 0x04#8, 0x10#8, 0x11#8, 0x12#8, 0x13#8, 0x14#8, 0x20#8, 0x30#8, 0x31#8, 0x40#8, 0x41#8] :=
  ⟨rfl, rfl, rfl, by decide⟩
theorem witness_ReadsReturnTheByte : State.reset.faulted = false ∧ 0x7fff < 0x8000 ∧ 0x1fff < 0x2000 :=
  ⟨rfl, by decide, by decide⟩
theorem witness_RomWriteChangesOneByte :
    (cached []).faulted = false ∧ (cached []).rom.wf = true ∧ (0x42ff < 0x8000 ∧ ¬ 0x4300 ≤ 0x42ff) ∧ 0x7fff < 0x8000 ∧
    255 < 256 := ⟨rfl, rfl, ⟨by decide, by decide⟩, by decide, by decide⟩
theorem witness_LabelWriteChangesOneByte :
    State.reset.faulted = false ∧ State.reset.label.wf = true ∧ 0x1fff < 0x2000 ∧ 255 < 256 :=
  ⟨rfl, rfl, by decide, by decide⟩
theorem witness_OutOfRangeTakesTheFault :
    State.reset.faulted = false ∧ (0x8000 < 0x10000 ∧ 0x8000 ≤ 0x8000) ∧ (0x2000 < 0x10000 ∧ 0x2000 ≤ 0x2000) ∧
    0xffff < 0x10000 := ⟨rfl, ⟨by decide, by decide⟩, ⟨by decide, by decide⟩, by decide⟩
theorem witness_RomClearZeroesBothMemories : State.reset.faulted = false := rfl
theorem witness_Map2TilesAreGfxPixels : 127 < 128 ∧ 32 ≤ 32 ∧ 32 ≤ 63 ∧ 63 < 64 := by decide
theorem witness_WidthTableSpellsEveryRank : 0 < 256 ∧ 255 < 256 := by decide
/-- A snippet of one byte `a`, and a Legacy buffer whose decoded text is `baa`. -/
def snipping : State := { State.reset with cfg := { defaultConfig with compatSnippet := [0x61#8] } }

/-- See `snipping`. -/
def snipped : ByteString := legacyHeader defaultConfig 3 ++ [0x0e#8, 0x0d#8, 0x0d#8]

/-- R106: the first occurrence is deleted, once, and `OUTLEN` is reduced. -/
theorem test_dropSnippet : nextOf (fun t => (t.out, t.outlen)) (exec (.decompress (.host snipped)) snipping) =
    some ([0x62#8, 0x61#8], 2#16) := by decide +kernel

/-- Each clause of the snippet's rule is met: an occurrence in a Legacy text, and a text with none. -/
theorem witness_DecompressCompletes :
    (State.reset.faulted = false ∧ Source.region.wf = true ∧ (Source.host []).wf = true ∧
      State.reset.cfg.modernRawEscape = false ∧ detect State.reset.cfg (sourceBuffer (.host []) State.reset).2 ≠ .modern) ∧
    (snipping.faulted = false ∧ (Source.host snipped).wf = true ∧
      detect snipping.cfg (sourceBuffer (.host snipped) snipping).2 = .legacy ∧ snipping.cfg.compatSnippet ≠ [] ∧
      ∃ u, decodeLoop (loopBound (beginDecompress (.host snipped) snipping.cleared))
          (beginDecompress (.host snipped) snipping.cleared) = .next u ∧
        u.out = [0x62#8] ++ snipping.cfg.compatSnippet ++ [0x61#8] ∧
        ∀ pre' post', u.out = pre' ++ snipping.cfg.compatSnippet ++ post' → [0x62#8].length ≤ pre'.length) ∧
    (State.reset.cfg.compatSnippet = [] ∧
      ∃ u, decodeLoop (loopBound (beginDecompress .region State.reset.cleared))
        (beginDecompress .region State.reset.cleared) = .next u) := by
  have hreg : nextOf (fun u => u.out) (decodeLoop (loopBound (beginDecompress .region State.reset.cleared))
      (beginDecompress .region State.reset.cleared)) = some [] := by decide +kernel
  refine ⟨⟨rfl, rfl, rfl, rfl, by decide +kernel⟩, ⟨rfl, rfl, by decide +kernel, by decide +kernel, ?_⟩, rfl,
    (of_nextOf hreg).imp fun _ h => h.1⟩
  have h : nextOf (fun u => u.out) (decodeLoop (loopBound (beginDecompress (.host snipped) snipping.cleared))
      (beginDecompress (.host snipped) snipping.cleared)) = some [0x62#8, 0x61#8, 0x61#8] := by decide +kernel
  obtain ⟨u, hu, hout⟩ := of_nextOf h
  refine ⟨u, hu, hout, fun pre' post' hpre => ?_⟩
  cases pre' with
  | nil => rw [hout] at hpre; exact absurd (List.cons.inj hpre).1 (by decide)
  | cons _ _ => exact Nat.le_add_left ..
theorem witness_DetectReadsTheFirstFourBytes :
    let l := defaultConfig.legacyMagic ++ [0#8]
    let m := defaultConfig.modernMagic
    (4 ≤ l.length ∧ l.length < 8 ∧ l.take 4 = defaultConfig.legacyMagic) ∧
    (4 ≤ m.length ∧ m.length < 8 ∧ m.take 4 = defaultConfig.modernMagic ∧ m.take 4 ≠ defaultConfig.legacyMagic) ∧
    ([] : ByteString).length < 4 ∧ State.reset.faulted = false ∧ State.reset.cfg = defaultConfig := by
  refine ⟨?_, ?_, ?_, rfl, rfl⟩ <;> decide +kernel
theorem witness_RawTextStopsAtZero :
    State.reset.faulted = false ∧ [0x68#8, 0x69#8, 0x00#8, 0x41#8].length ≤ 65535 ∧
    detect State.reset.cfg [0x68#8, 0x69#8, 0x00#8, 0x41#8] = .raw := ⟨rfl, by decide, by decide +kernel⟩
/-- A source one byte over the limit. -/
theorem long_source : 15608 < (List.replicate 15609 0x61#8).length := by rw [List.length_replicate]; decide
theorem witness_CompressLegacyReturnsItsBuffer :
    State.reset.faulted = false ∧ 15608 < (List.replicate 15609 0x61#8).length ∧
    (List.replicate 15608 0x61#8).length ≤ 15608 := ⟨rfl, long_source, by rw [List.length_replicate]⟩
theorem witness_CompressModernReturnsItsBuffer :
    State.reset.faulted = false ∧ 15608 < (List.replicate 15609 0x61#8).length ∧
    ([0#8].length ≤ 15608 ∧ 0#8 ∈ [0#8]) ∧ ([1#8].length ≤ 15608 ∧ 0#8 ∉ [1#8]) :=
  ⟨rfl, long_source, by decide, by decide⟩
theorem witness_CompressBestReturnsTheShorter :
    State.reset.faulted = false ∧ 15608 < (List.replicate 15609 0x61#8).length ∧
    ([0#8].length ≤ 15608 ∧ 0#8 ∈ [0#8]) ∧
    (0#8 ∉ [0x61#8, 0x61#8, 0x61#8, 0x61#8] ∧
      (modernEncode defaultConfig [0x61#8, 0x61#8, 0x61#8, 0x61#8]).1.length <
        (legacyEncode defaultConfig [0x61#8, 0x61#8, 0x61#8, 0x61#8]).length) ∧
    (legacyEncode defaultConfig []).length ≤ (modernEncode defaultConfig []).1.length := by
  refine ⟨rfl, long_source, by decide, ⟨by decide, ?_⟩, ?_⟩ <;> decide +kernel
theorem witness_LegacyRoundTrip :
    State.reset.faulted = false ∧ State.reset.cfg.wf = true ∧ (List.replicate 15608 0x61#8).length ≤ 15608 ∧
    State.reset.cfg.compatSnippet = [] ∧
    (Config.wf { defaultConfig with compatSnippet := [0x62#8] } = true ∧ ¬ [0x62#8] <:+: [0x61#8]) :=
  ⟨rfl, by decide +kernel, by rw [List.length_replicate], rfl, by decide +kernel, by decide⟩
theorem witness_ModernRoundTrip :
    State.reset.faulted = false ∧ State.reset.cfg.wf = true ∧ [0x61#8].length ≤ 15608 ∧ 0#8 ∉ [0x61#8] :=
  ⟨rfl, by decide +kernel, by decide, by decide⟩
theorem witness_LegacyBufferSize : defaultConfig.wf = true ∧ [0x61#8][0]? = some 0x61#8 := ⟨by decide +kernel, rfl⟩
theorem witness_ModernBufferSize : defaultConfig.wf = true ∧ (List.replicate 15608 0x61#8).length ≤ 15608 :=
  ⟨by decide +kernel, by rw [List.length_replicate]⟩
theorem witness_ChooserIsNeverLonger : ∃ t code m b,
    exec (.compressBest []) State.reset = .next t ∧ t.results.getLast? = some (.best code m b) := ⟨_, _, _, _, rfl, rfl⟩
theorem witness_LegacySearchFindsNearestLongest :
    (1 < [0x61#8, 0x62#8].length ∧ legacySearch [0x61#8, 0x62#8] 1 = (0, 0)) ∧
    (1 < [0x61#8, 0x61#8].length ∧ legacySearch [0x61#8, 0x61#8] 1 = (1, 1) ∧ 1 ≤ min 1 3135 ∧
      [0x61#8, 0x61#8][1 - 1 + 0]? = [0x61#8, 0x61#8][1 + 0]?) := by decide +kernel
theorem witness_ModernSearchFindsNearestLongest :
    (1 < [0x61#8, 0x62#8].length ∧ modernSearch [0x61#8, 0x62#8] 1 = (0, 0)) ∧
    (1 < [0x61#8, 0x61#8, 0x61#8].length ∧ modernSearch [0x61#8, 0x61#8, 0x61#8] 1 = (2, 1) ∧ 1 ≤ min 1 32768 ∧
      [0x61#8, 0x61#8, 0x61#8][1 - 1 + 1]? = [0x61#8, 0x61#8, 0x61#8][1 + 1]?) := by decide +kernel
theorem witness_BinAssembleFromCache :
    ((cached (List.replicate 15609 0x61#8)).faulted = false ∧ (cached (List.replicate 15609 0x61#8)).cacheValid = true ∧
      15608 < (cached (List.replicate 15609 0x61#8)).cache.length) ∧
    ((cached [0#8]).cache.length ≤ 15608 ∧ 0#8 ∈ (cached [0#8]).cache) ∧
    ((cached []).cache.length ≤ 15608 ∧ 0#8 ∉ (cached []).cache) ∧ 255 < 256 :=
  ⟨⟨rfl, rfl, long_source⟩, by decide, by decide, by decide⟩
/-- A region with a Legacy header of length 1 and the token `00 00`, an escaped zero byte. -/
def escRom : Memory := [(0x4300, 0x3a#8), (0x4301, 0x63#8), (0x4302, 0x3a#8), (0x4305, 0x01#8)]
/-- A region full of raw text. -/
def fullState : State := { State.reset with rom := Memory.ofBytes 0x4300 (List.replicate 0x3d00 0x61#8) }
theorem fullState_byte {j : Nat} (h : j < 0x3d00) : (codeRegion fullState)[j]? = some 0x61#8 := by
  show ((List.range' 0x4300 0x3d00).map (Memory.ofBytes 0x4300 (List.replicate 0x3d00 0x61#8)).read)[j]? = _
  rw [List.getElem?_map, List.getElem?_range' h]
  show some ((Memory.ofBytes 0x4300 (List.replicate 0x3d00 0x61#8)).read (0x4300 + 1 * j)) = _
  rw [Memory.read_ofBytes, List.length_replicate, if_pos (by omega), List.getD_eq_getElem?_getD, List.getElem?_replicate,
    if_pos (by omega)]
  rfl
theorem codeRegion_length (s : State) : (codeRegion s).length = 0x3d00 := by
  show ((List.range' 0x4300 0x3d00).map s.rom.read).length = _
  rw [List.length_map, List.length_range']
theorem fullState_raw : detect fullState.cfg (codeRegion fullState) = .raw := by
  have hmagic : ∀ m : ByteString, m.head? ≠ some 0x61#8 → hasMagic m (codeRegion fullState) = false := by
    intro m hm
    have hne : (codeRegion fullState).take 4 ≠ m := by
      intro he
      apply hm
      rw [← he, List.head?_take, if_neg (by decide), List.head?_eq_getElem?, fullState_byte (by decide)]
    show (_ && ((codeRegion fullState).take 4 == m)) = false
    rw [beq_eq_false_iff_ne.2 hne, Bool.and_false]
  unfold detect
  rw [hmagic fullState.cfg.legacyMagic (by decide), hmagic fullState.cfg.modernMagic (by decide)]
  rfl
/-- The region full of raw text decodes to its 15616 bytes. -/
theorem fullState_decodes : ∃ u, exec (.decompress .region) fullState = .next u ∧ 15608 < u.out.length := by
  have hlen := codeRegion_length fullState
  let s0 := openRaw .region (codeRegion fullState) { fullState with status := 0#8, mode := .raw }
  have hinlen : s0.inlen.toNat = 0x3d00 := by
    show (word16Of (codeRegion fullState).length).toNat = _
    rw [hlen]; rfl
  obtain ⟨t, ht, hfr, hip, hout⟩ := decodeLoop_raw (8 * 0x3d00 + 2 - 0x3d00) 0x3d00 s0 rfl
    (by rw [hinlen]; decide) (fun j hj => ⟨_, fullState_byte (by rw [hinlen] at hj; exact hj), by decide⟩)
  have hst : t.stage = .decoding .raw .region := by rw [hfr]; rfl
  have hend := decodeLoop_raw_end (n := 8 * 0x3d00 + 1 - 0x3d00) hst (by
    have : t.inlen = s0.inlen := by rw [hfr]
    rw [this, hinlen, hip]; exact Nat.le_add_left _ _)
  refine ⟨finishDecode .raw .region { t with stage := .ended .raw .region }, ?_, ?_⟩
  · have hb : beginDecompress .region fullState.cleared = s0 := by
      show openDecode (detect fullState.cfg (codeRegion fullState)) .region (codeRegion fullState)
        { fullState with status := 0#8, mode := (detect fullState.cfg (codeRegion fullState)).mode } = _
      rw [fullState_raw]
      rfl
    rw [exec_decompress ⟨rfl, rfl⟩, hb, show loopBound s0 = 0x3d00 + (8 * 0x3d00 + 2 - 0x3d00) by
      unfold loopBound; rw [hinlen], ht, show 8 * 0x3d00 + 2 - 0x3d00 = (8 * 0x3d00 + 1 - 0x3d00) + 1 by decide, hend]
    rfl
  · show 15608 < t.out.length
    rw [hout]
    exact Nat.lt_of_lt_of_le (by decide) (Nat.le_add_left _ _)
/-- The region holding too much text, a zero byte, and nothing. -/
theorem witness_BinAssembleDecodesTheRegion :
    (∃ u, exec (.decompress .region) fullState = .next u ∧ 15608 < u.out.length) ∧
    (∃ u, exec (.decompress .region) { State.reset with rom := escRom } = .next u ∧ u.out.length ≤ 15608 ∧ 0#8 ∈ u.out) ∧
    (∃ u, exec (.decompress .region) State.reset = .next u ∧ u.out.length ≤ 15608 ∧ 0#8 ∉ u.out) ∧
    (fullState.faulted = false ∧ fullState.cacheValid = false ∧ fullState.stage = .idle ∧ 255 < 256) := by
  have h1 : nextOf (fun u => u.out) (exec (.decompress .region) { State.reset with rom := escRom }) = some [0#8] := by
    decide +kernel
  have h2 : nextOf (fun u => u.out) (exec (.decompress .region) State.reset) = some [] := by decide +kernel
  obtain ⟨u, hu, hout⟩ := of_nextOf h1
  obtain ⟨v, hv, hvout⟩ := of_nextOf h2
  exact ⟨fullState_decodes, ⟨u, hu, by rw [hout]; decide, by rw [hout]; decide⟩,
    ⟨v, hv, by rw [hvout]; decide, by rw [hvout]; decide⟩, rfl, rfl, rfl, by decide⟩
theorem witness_BinAssembleTwiceIsTheSame : ∃ t, exec (.binAssemble 255) (cached []) = .next t := ⟨_, rfl⟩
theorem witness_SmallOrMalformedImagesAreRejected :
    State.reset.faulted = false ∧ ([] : ByteString).length ≠ 4 * 1 * 1 ∧
    ((List.replicate (4 * 1 * 0x8000) 0#8).length = 4 * 1 * 0x8000 ∧ 1 * 0x8000 < 0x8001 ∧ 0x8000 < 65536) :=
  ⟨rfl, by decide, List.length_replicate, by decide, by decide⟩
/-- Templates: the smallest size, one pixel wide, and 160 × 205 pixels, in which the label rectangle fits. -/
def narrow : ByteString := List.replicate (4 * 1 * 0x8001) 0#8
def wide : ByteString := List.replicate (4 * 160 * 205) 0#8
theorem narrow_meets : narrow.length = 4 * 1 * 0x8001 ∧ 0x8001 ≤ 1 * 0x8001 ∧ 1 < 65536 ∧ 0x8001 < 65536 ∧
    ¬ (State.reset.cfg.labelX + 128 ≤ 1 ∧ State.reset.cfg.labelY + 128 ≤ 0x8001) :=
  ⟨List.length_replicate, by decide, by decide, by decide, by decide⟩
theorem wide_meets : wide.length = 4 * 160 * 205 ∧ 0x8001 ≤ 160 * 205 ∧ 160 < 65536 ∧ 205 < 65536 ∧
    State.reset.cfg.labelX + 128 ≤ 160 ∧ State.reset.cfg.labelY + 128 ≤ 205 :=
  ⟨List.length_replicate, by decide, by decide, by decide, by decide, by decide⟩
theorem wide_byte {i : Nat} (h : i < 4 * 160 * 205) : wide[i]? = some 0#8 := by
  show (List.replicate (4 * 160 * 205) 0#8)[i]? = _
  rw [List.getElem?_replicate, if_pos h]
theorem wide_pixel (n : Nat) : toPixels (List.replicate (4 * n) 0#8) = List.replicate n ⟨0#8, 0#8, 0#8, 0#8⟩ := by
  induction n with
  | zero => rfl
  | succ n ih =>
    rw [show 4 * (n + 1) = 4 * n + 1 + 1 + 1 + 1 by omega]
    show (⟨0#8, 0#8, 0#8, 0#8⟩ : Pixel) :: toPixels (List.replicate (4 * n) 0#8) = _
    rw [ih]
    rfl
theorem witness_PngUnpackReadsThePayload :
    (State.reset.faulted = false ∧ State.reset.cfg.wf = true) ∧
    (wide.length = 4 * 160 * 205 ∧ 0x8001 ≤ 160 * 205 ∧ 160 < 65536 ∧ 205 < 65536 ∧
      State.reset.cfg.labelX + 128 ≤ 160 ∧ State.reset.cfg.labelY + 128 ≤ 205) ∧
    wide[4 * 0x8000 + 3]? = some 0#8 ∧
    wide[4 * ((State.reset.cfg.labelY + 127) * 160 + State.reset.cfg.labelX + 127) + 2]? = some 0#8 ∧
    (narrow.length = 4 * 1 * 0x8001 ∧ 0x8001 ≤ 1 * 0x8001 ∧ 1 < 65536 ∧ 0x8001 < 65536 ∧
      ¬ (State.reset.cfg.labelX + 128 ≤ 1 ∧ State.reset.cfg.labelY + 128 ≤ 0x8001)) :=
  ⟨⟨rfl, test_config_wf⟩, wide_meets, wide_byte (by decide), wide_byte (by decide), narrow_meets⟩
theorem witness_NearestIsLowestClosest : defaultPalette[15]? = some ⟨255#8, 204#8, 170#8⟩ := rfl
theorem witness_PngPackEmbedsThePayload :
    (State.reset.faulted = false ∧ State.reset.cfg.wf = true ∧ 255 < 256) ∧
    (wide.length = 4 * 160 * 205 ∧ 0x8001 ≤ 160 * 205 ∧ 160 < 65536 ∧ 205 < 65536 ∧
      State.reset.cfg.labelX + 128 ≤ 160 ∧ State.reset.cfg.labelY + 128 ≤ 205) ∧
    (toPixels wide)[(State.reset.cfg.labelY + 127) * 160 + State.reset.cfg.labelX + 127]? = some ⟨0#8, 0#8, 0#8, 0#8⟩ ∧
    State.reset.cfg.palette[(labelPixel State.reset.label 127 127).toNat]? = some ⟨0#8, 0#8, 0#8⟩ ∧
    (narrow.length = 4 * 1 * 0x8001 ∧ 0x8001 ≤ 1 * 0x8001 ∧ 1 < 65536 ∧ 0x8001 < 65536 ∧
      ¬ (State.reset.cfg.labelX + 128 ≤ 1 ∧ State.reset.cfg.labelY + 128 ≤ 0x8001)) := by
  refine ⟨⟨rfl, test_config_wf, by decide⟩, wide_meets, ?_, rfl, narrow_meets⟩
  show (toPixels (List.replicate (4 * (160 * 205)) 0#8))[_]? = _
  rw [wide_pixel, List.getElem?_replicate]
  exact if_pos (by decide)
/-- Two states with the same parameters, the first with an all-zero ROM; version 0 and 255. -/
theorem witness_PngRoundTrip :
    (State.reset.faulted = false ∧ (cached [1#8]).faulted = false ∧ (cached [1#8]).cfg = State.reset.cfg ∧
      State.reset.cfg.palette = defaultPalette ∧ 0 < 256 ∧ 255 < 256) ∧
    (wide.length = 4 * 160 * 205 ∧ 0x8001 ≤ 160 * 205 ∧ 160 < 65536 ∧ 205 < 65536 ∧
      State.reset.cfg.labelX + 128 ≤ 160 ∧ State.reset.cfg.labelY + 128 ≤ 205) ∧
    ∀ a, State.reset.rom.read a = 0#8 :=
  ⟨⟨rfl, rfl, rfl, rfl, by decide, by decide⟩, wide_meets, fun _ => rfl⟩
theorem witness_TextWithoutHeaderFails :
    State.reset.faulted = false ∧ ((rawLines [0x0a#8]).head? = some [0x0a#8] ∧
      ¬ State.reset.cfg.headerPhrase <:+: lineText [0x0a#8]) := ⟨rfl, rfl, by decide +kernel⟩
/-- The header line, then a section. -/
def sectionText (marker content : ByteString) : ByteString :=
  defaultConfig.headerPhrase ++ [0x0a#8] ++ marker ++ [0x0a#8] ++ content

/-- R241: the code section is the cache; R243: a flags section of 257 bytes sets `STL`, of 256 bytes does not. -/
theorem test_textParse_sections :
    nextOf (fun t => (t.cache, t.status)) (exec (.textParse (sectionText defaultConfig.markLua [0x61#8])) State.reset) =
      some ([0x61#8], 0#8) ∧
    nextOf (fun t => t.status) (exec (.textParse (sectionText gffMarker (List.replicate 514 0x30#8))) State.reset) =
      some 0x02#8 ∧
    nextOf (fun t => t.status) (exec (.textParse (sectionText gffMarker (List.replicate 512 0x30#8))) State.reset) =
      some 0#8 := by
  refine ⟨?_, ?_, ?_⟩ <;> decide +kernel

/-- A text with only the header line; one with a code section; one whose flags section is one byte too large. -/
theorem witness_TextParseCompletes :
    (State.reset.faulted = false ∧ (rawLines defaultConfig.headerPhrase).head? = some defaultConfig.headerPhrase ∧
      State.reset.cfg.headerPhrase <:+: lineText defaultConfig.headerPhrase ∧
      (splitSections State.reset.cfg (rawLines defaultConfig.headerPhrase)).2 = []) ∧
    ((rawLines (sectionText defaultConfig.markLua [0x61#8])).head? = some (defaultConfig.headerPhrase ++ [0x0a#8]) ∧
      State.reset.cfg.headerPhrase <:+: lineText (defaultConfig.headerPhrase ++ [0x0a#8]) ∧
      (splitSections State.reset.cfg (rawLines (sectionText defaultConfig.markLua [0x61#8]))).2 =
        [] ++ (.code, [0x61#8]) :: []) ∧
    ((rawLines (sectionText gffMarker (List.replicate 514 0x30#8))).head? = some (defaultConfig.headerPhrase ++ [0x0a#8]) ∧
      (splitSections State.reset.cfg (rawLines (sectionText gffMarker (List.replicate 514 0x30#8)))).2 =
        [(.flags, List.replicate 514 0x30#8)] ∧
      0x100 < (hexBytes false (List.replicate 514 0x30#8)).length) := by
  refine ⟨⟨rfl, ?_, ?_, ?_⟩, ⟨?_, ?_, ?_⟩, ?_, ?_, ?_⟩ <;> decide +kernel
theorem witness_GraphicsAndMapOrderIsImmaterial : State.reset.rom.wf = true := rfl
theorem witness_MusicAndSoundLinesParseBack : 63 < 64 := by decide
theorem witness_TextSerializeFromCache :
    (cached []).faulted = false ∧ 255 < 256 ∧ (cached []).cacheValid = true ∧ (cached []).cache = [] ∧
    ∀ a, (cached []).rom.read a = 0#8 ∧ (cached []).label.read a = 0#8 :=
  ⟨rfl, by decide, rfl, rfl, fun _ => ⟨rfl, rfl⟩⟩
theorem witness_TextSerializeDecodesTheRegion :
    State.reset.faulted = false ∧ State.reset.cacheValid = false ∧ State.reset.stage = .idle ∧
    State.reset.cfg.modernRawEscape = false ∧ detect State.reset.cfg (codeRegion State.reset) ≠ .modern := by
  refine ⟨rfl, rfl, rfl, rfl, ?_⟩
  decide +kernel
theorem witness_TextRoundTrip :
    let s := cached [0x61#8]
    s.faulted = false ∧ s.cacheValid = true ∧ s.cfg.headerPhrase = defaultConfig.headerPhrase ∧
    s.cfg.markers = defaultConfig.markers ∧ ∀ l ∈ rawLines s.cache, markerOf s.cfg l = none := by
  refine ⟨rfl, rfl, rfl, rfl, ?_⟩
  decide +kernel
theorem witness_StepRunsTheDecodedInstruction :
    (let s := { State.reset with port := [.command [0x14#8]] }
     s.stage = .idle ∧ s.port = .command [0x14#8] :: [] ∧ s.faulted = false ∧ decodeCommand [0x14#8] = .ok .romClear) ∧
    (InToken .legacy (leg [0x0d#8] [] 1) ∧ decodeLegacy (legacyAhead (leg [0x0d#8] [] 1)) = .ok (.lit 13, [])) ∧
    (InToken .modern (mod (zeros 20) [] 1) ∧
      decodeModern (modernAhead (mod (zeros 20) [] 1)) = .ok (.mbrefL 1 3, zeros 4)) := by
  refine ⟨⟨rfl, rfl, rfl, rfl⟩, ⟨⟨⟨_, rfl⟩, ?_⟩, ?_⟩, ⟨⟨_, rfl⟩, ?_⟩, ?_⟩ <;> decide +kernel
theorem witness_LoopEndsAtItsBudgets :
    ((leg [] [] 0).stage = .decoding .legacy .host ∧ (leg [] [] 0).declen.toNat ≤ (leg [] [] 0).outlen.toNat) ∧
    ((leg [] [] 1).outlen.toNat < (leg [] [] 1).declen.toNat ∧ (leg [] [] 1).inlen.toNat ≤ (leg [] [] 1).ip.toNat) ∧
    ((leg [0x3c#8] [] 1).inlen.toNat = (leg [0x3c#8] [] 1).ip.toNat + 1 ∧
      (leg [0x3c#8] [] 1).inbuf[(leg [0x3c#8] [] 1).ip.toNat]? = some 0x3c#8) ∧
    ((mod (zeros 8) [] 1).stage = .decoding .modern .host ∧ (mod (zeros 8) [] 1).cfg.modernRawEscape = false ∧
      (mod (zeros 8) [] 1).bitpos.toNat ≤ 8 * (mod (zeros 8) [] 1).inlen.toNat ∧
      decodeModern (modernAhead (mod (zeros 8) [] 1)) = .error .truncated) := by
  refine ⟨⟨rfl, ?_⟩, ?_, ?_, ⟨rfl, rfl, ?_, ?_⟩⟩ <;> decide +kernel
theorem witness_ResetStateAndInvariant :
    let s := { broken with port := [.reset] }
    s.stage = .idle ∧ s.port = .reset :: [] := ⟨rfl, rfl⟩
/-- A Legacy decode under way meets the invariant, and its next token runs. -/
theorem witness_StepKeepsTheInvariant :
    (leg [0x0d#8] [] 1).Inv ∧ (leg [0x0d#8] [] 1).cache.length ≤ 65535 ∧ ∃ t, step (leg [0x0d#8] [] 1) = .next t := by
  refine ⟨⟨rfl, rfl, rfl, rfl, List.Perm.refl _, rfl, by decide, by decide, ?_⟩, by decide, _, rfl⟩
  exact ⟨rfl, ⟨rfl, by decide, rfl⟩, by decide, rfl⟩
theorem witness_MtfStaysAPermutation :
    State.reset.mtf.Perm identityMtf ∧ ∃ t, step State.reset = .next t := ⟨List.Perm.refl _, _, rfl⟩
theorem witness_OnlyResetClearsTheFault :
    (broken.faulted = true ∧ broken.port.head? ≠ some .reset ∧ ∃ t, step broken = .next t) ∧
    (broken.stage = .idle ∧ { broken with port := [.reset] }.port = .reset :: []) :=
  ⟨⟨rfl, by decide, _, rfl⟩, rfl, rfl⟩
theorem witness_ModeIsWrittenByTheCodecCommands :
    (∃ t, exec (.decompress (.host [])) State.reset = .next t) ∧ (∃ t, exec (.compressLegacy []) State.reset = .next t) ∧
    (∃ t, exec (.compressModern []) State.reset = .next t) ∧ (∃ t, exec (.compressBest []) State.reset = .next t) ∧
    ∃ t, exec .romClear State.reset = .next t := ⟨⟨_, rfl⟩, ⟨_, rfl⟩, ⟨_, rfl⟩, ⟨_, rfl⟩, _, rfl⟩
theorem witness_DecodeEndsWithOneReason : ∃ t, exec (.decompress (.host [])) State.reset = .next t := ⟨_, rfl⟩
theorem witness_ParametersAreReadOnly : ∃ t, step State.reset = .next t := ⟨_, rfl⟩
theorem witness_DecompressIsItsTokensStepped :
    ∃ t, exec (.decompress (.host [0x68#8, 0x69#8])) State.reset = .next t := ⟨_, rfl⟩

end Sys2Proof.Tests
end

section
/-! SUPPORT. What an instruction that completes leaves: one inversion lemma per command and per token (40_legacy_codec.md R102
to R104, 41_modern_codec.md R141 to R145, 42_detect_and_best.md R170 to R177, 43_rom_serializer.md R200 to R217,
44_text_sections.md R230 to R253). -/

namespace Sys2Proof.Machine

open Sys2Proof

/-! ### The shared operations of the codec commands -/

/-- The size check of a returned buffer changes `STATUS` alone (42 R175 to R177). -/
theorem flagOversize_frame (code : ByteString) (s : State) :
    flagOversize code s = { s with status := (flagOversize code s).status } := by
  unfold flagOversize setFlagIf
  split <;> rfl

@[simp] theorem flagOversize_mode (code : ByteString) (s : State) : (flagOversize code s).mode = s.mode := by
  rw [flagOversize_frame]

@[simp] theorem flagOversize_results (code : ByteString) (s : State) : (flagOversize code s).results = s.results := by
  rw [flagOversize_frame]

@[simp] theorem flagOversize_stage (code : ByteString) (s : State) : (flagOversize code s).stage = s.stage := by
  rw [flagOversize_frame]

@[simp] theorem flagOversize_cache (code : ByteString) (s : State) : (flagOversize code s).cache = s.cache := by
  rw [flagOversize_frame]

/-- The end of a decode changes nothing, or finishes the decode whose loop has ended (42 R170). -/
theorem closeDecode_cases (s : State) :
    closeDecode s = s ∨ ∃ form o, s.stage = .ended form o ∧ closeDecode s = finishDecode form o s := by
  unfold closeDecode
  split
  · next form o hst => exact .inr ⟨form, o, hst, rfl⟩
  · exact .inl rfl
  · exact .inl rfl

theorem finishDecode_mode (form : Form) (o : Origin) (s : State) : (finishDecode form o s).mode = s.mode := by
  have hpost : (postProcess form s).mode = s.mode := by rw [postProcess_frame]
  cases o <;> exact hpost

theorem closeDecode_mode (s : State) : (closeDecode s).mode = s.mode := by
  rcases closeDecode_cases s with h | ⟨form, o, -, h⟩ <;> rw [h]
  exact finishDecode_mode form o s

/-- `src` is the source an exporter works on in `s`, and `u` the state it goes on in (43 R207; 44 R244). -/
def SourceFrom (s : State) (src : ByteString) (u : State) : Prop :=
  (s.cacheValid = true ∧ src = s.cache ∧ u = s) ∨
  (s.cacheValid = false ∧ decodeRegion s = .next u ∧ src = u.out)

/-- An exporter that completes has gone on from its source. -/
theorem withSource_next {s t : State} {k : ByteString → State → Step} (h : withSource s k = .next t) :
    ∃ src u, SourceFrom s src u ∧ k src u = .next t := by
  unfold withSource at h
  split at h
  · next hv => exact ⟨s.cache, s, .inl ⟨hv, rfl, rfl⟩, h⟩
  · next hv =>
    obtain ⟨u, hu, hk⟩ := andThen_next_iff.1 h
    exact ⟨u.out, u, .inr ⟨by simpa using hv, hu, rfl⟩, hk⟩

/-! ### The codec commands -/

theorem execDecompress_next {src : Source} {s t : State} (h : execDecompress src s = .next t) :
    Ready (.decompress src) s ∧
    ∃ u, decodeLoop (loopBound (beginDecompress src s.cleared)) (beginDecompress src s.cleared) = .next u ∧
      t = closeDecode u := by
  obtain ⟨hr, h⟩ := preamble_next h
  obtain ⟨u, hu, ht⟩ := andThen_next_iff.1 h
  cases ht
  exact ⟨hr, u, hu, rfl⟩

theorem execCompressLegacy_next {src : ByteString} {s t : State} (h : execCompressLegacy src s = .next t) :
    Ready (.compressLegacy src) s ∧ src.length ≤ sMax ∧
    ∃ u, u = flagOversize (legacyEncode s.cfg src) { afterLegacyEncode src s.cleared with mode := .legacy } ∧
      t = respond (.compressed (legacyEncode s.cfg src) u.status) u := by
  obtain ⟨hr, h⟩ := preamble_next h
  split at h
  · cases h
  · next hle => cases h; exact ⟨hr, by omega, _, rfl, rfl⟩

theorem execCompressModern_next {src : ByteString} {s t : State} (h : execCompressModern src s = .next t) :
    Ready (.compressModern src) s ∧ src.length ≤ sMax ∧ 0#8 ∉ src ∧
    ∃ u, u = flagOversize (modernEncode s.cfg src).1 { afterModernEncode src s.cleared with mode := .modern } ∧
      t = respond (.compressed (modernEncode s.cfg src).1 u.status) u := by
  obtain ⟨hr, h⟩ := preamble_next h
  split at h
  · cases h
  · next hle =>
    split at h
    · cases h
    · next hz => cases h; exact ⟨hr, by omega, hz, _, rfl, rfl⟩

theorem execCompressBest_next {src : ByteString} {s t : State} (h : execCompressBest src s = .next t) :
    Ready (.compressBest src) s ∧ src.length ≤ sMax ∧ 0#8 ∉ src ∧
    ∃ u, u = flagOversize (chooseBest s.cfg src).2
        { afterBothEncoders src s.cleared with mode := (chooseBest s.cfg src).1.mode } ∧
      t = respond (.best (chooseBest s.cfg src).2 u.mode u.status) u := by
  obtain ⟨hr, h⟩ := preamble_next h
  split at h
  · cases h
  · next hle =>
    split at h
    · cases h
    · next hz => cases h; exact ⟨hr, by omega, hz, _, rfl, rfl⟩

theorem execBinAssemble_next {ver : Nat} {s t : State} (h : execBinAssemble ver s = .next t) :
    Ready (.binAssemble ver) s ∧ ∃ src u, SourceFrom s.cleared src u ∧ src.length ≤ sMax ∧ 0#8 ∉ src ∧
      ∃ v, v = flagOversize (chooseBest u.cfg src).2 (afterBothEncoders src (keepSource src u)) ∧
        t = respond (.image (binImage v (chooseBest u.cfg src).2 ver) v.status) v := by
  obtain ⟨hr, h⟩ := preamble_next h
  obtain ⟨src, u, hsrc, h⟩ := withSource_next h
  unfold assembleBin at h
  split at h
  · cases h
  · next hle =>
    split at h
    · cases h
    · next hz => cases h; exact ⟨hr, src, u, hsrc, by omega, hz, _, rfl, rfl⟩

theorem execTextSerialize_next {ver : Nat} {s t : State} (h : execTextSerialize ver s = .next t) :
    Ready (.textSerialize ver) s ∧ ∃ src u, SourceFrom s.cleared src u ∧
      ∃ v, v = keepSource src u ∧ t = respond (.text (serializeText v src ver) v.status) v := by
  obtain ⟨hr, h⟩ := preamble_next h
  obtain ⟨src, u, hsrc, h⟩ := withSource_next h
  cases h
  exact ⟨hr, src, u, hsrc, _, rfl, rfl⟩

/-! ### The commands on the memories -/

theorem execRomRead_next {a : Nat} {s t : State} (h : execRomRead a s = .next t) :
    Ready (.romRead a) s ∧
      (romSize ≤ a ∧ t = raiseFault .romOor a s.cleared ∨
        a < romSize ∧ t = respond (.byte (s.rom.read a)) s.cleared) := by
  obtain ⟨hr, h⟩ := preamble_next h
  split at h <;> cases h
  · next hge => exact ⟨hr, .inl ⟨hge, rfl⟩⟩
  · next hlt => exact ⟨hr, .inr ⟨by omega, rfl⟩⟩

theorem execRomWrite_next {a v : Nat} {s t : State} (h : execRomWrite a v s = .next t) :
    Ready (.romWrite a v) s ∧
      (romSize ≤ a ∧ t = raiseFault .romOor a s.cleared ∨
        a < romSize ∧ t = respond .done (romPut a (byteOf v) s.cleared)) := by
  obtain ⟨hr, h⟩ := preamble_next h
  split at h <;> cases h
  · next hge => exact ⟨hr, .inl ⟨hge, rfl⟩⟩
  · next hlt => exact ⟨hr, .inr ⟨by omega, rfl⟩⟩

theorem execLabelRead_next {a : Nat} {s t : State} (h : execLabelRead a s = .next t) :
    Ready (.labelRead a) s ∧
      (labelSize ≤ a ∧ t = raiseFault .labelOor a s.cleared ∨
        a < labelSize ∧ t = respond (.byte (s.label.read a)) s.cleared) := by
  obtain ⟨hr, h⟩ := preamble_next h
  split at h <;> cases h
  · next hge => exact ⟨hr, .inl ⟨hge, rfl⟩⟩
  · next hlt => exact ⟨hr, .inr ⟨by omega, rfl⟩⟩

theorem execLabelWrite_next {a v : Nat} {s t : State} (h : execLabelWrite a v s = .next t) :
    Ready (.labelWrite a v) s ∧
      (labelSize ≤ a ∧ t = raiseFault .labelOor a s.cleared ∨
        a < labelSize ∧ t = respond .done (labelPut a (byteOf v) s.cleared)) := by
  obtain ⟨hr, h⟩ := preamble_next h
  split at h <;> cases h
  · next hge => exact ⟨hr, .inl ⟨hge, rfl⟩⟩
  · next hlt => exact ⟨hr, .inr ⟨by omega, rfl⟩⟩

theorem execRomClear_next {s t : State} (h : execRomClear s = .next t) :
    Ready .romClear s ∧ t = respond .done { zeroMemories s.cleared with cacheValid := false } := by
  obtain ⟨hr, h⟩ := preamble_next h
  cases h
  exact ⟨hr, rfl⟩

theorem execPngUnpack_next {w h : Nat} {p : ByteString} {s t : State} (ht : execPngUnpack w h p s = .next t) :
    Ready (.pngUnpack w h p) s ∧ p.length = 4 * w * h ∧
      (w * h < payloadPixels ∧
          t = respond (.failed (setFlag .fnr s.cleared).status) (setFlag .fnr s.cleared) ∨
        payloadPixels ≤ w * h ∧ t = respond (.unpacked (payloadAt (toPixels p) romSize) s.cleared.status) { s.cleared with
          rom := unpackRom (toPixels p), label := unpackLabel s.cfg w h (toPixels p), cacheValid := false }) := by
  obtain ⟨hr, ht⟩ := preamble_next ht
  split at ht
  · cases ht
  · next hlen =>
    split at ht <;> cases ht
    · next hfew => exact ⟨hr, not_not.1 hlen, .inl ⟨hfew, rfl⟩⟩
    · next hmany => exact ⟨hr, not_not.1 hlen, .inr ⟨by omega, rfl⟩⟩

theorem execPngPack_next {w h ver : Nat} {p : ByteString} {s t : State} (ht : execPngPack w h p ver s = .next t) :
    Ready (.pngPack w h p ver) s ∧ p.length = 4 * w * h ∧
      (w * h < payloadPixels ∧
          t = respond (.failed (setFlag .fnr s.cleared).status) (setFlag .fnr s.cleared) ∨
        payloadPixels ≤ w * h ∧
          t = respond (.packed (packPixels s.cleared w h p ver) s.cleared.status) s.cleared) := by
  obtain ⟨hr, ht⟩ := preamble_next ht
  split at ht
  · cases ht
  · next hlen =>
    split at ht <;> cases ht
    · next hfew => exact ⟨hr, not_not.1 hlen, .inl ⟨hfew, rfl⟩⟩
    · next hmany => exact ⟨hr, not_not.1 hlen, .inr ⟨by omega, rfl⟩⟩

theorem execTextParse_next {text : ByteString} {s t : State} (h : execTextParse text s = .next t) :
    Ready (.textParse text) s ∧
      (hasHeader s.cfg (rawLines text) = false ∧
          t = respond (.failed (setFlag .fnr s.cleared).status) (setFlag .fnr s.cleared) ∨
        hasHeader s.cfg (rawLines text) = true ∧
          ∃ u, u = applySections (splitSections s.cfg (rawLines text)).2 (clearForText s.cleared) ∧
            t = respond (.parsed u.status) u) := by
  obtain ⟨hr, h⟩ := preamble_next h
  dsimp only at h
  split at h <;> cases h
  · next hno => exact ⟨hr, .inl ⟨hno, rfl⟩⟩
  · next hyes => exact ⟨hr, .inr ⟨Bool.eq_true_of_not_eq_false hyes, _, rfl, rfl⟩⟩

/-! ### The tokens -/

/-- A Modern token of `n` bits: within the input budget it does `k`, cut short it stops with `TRUNC` (41 R131). -/
def ReadThen (n : Nat) (k : State → State) (s t : State) : Prop :=
  (8 * s.inlen.toNat < s.bitpos.toNat + n ∧
    t = stop .trunc { s with bitpos := bitIndexOf (max s.bitpos.toNat (8 * s.inlen.toNat)) }) ∨
  (s.bitpos.toNat + n ≤ 8 * s.inlen.toNat ∧ t = k { s with bitpos := bitIndexOf (s.bitpos.toNat + n) })

theorem takeBits_next {n : Nat} {s t : State} {k : State → State}
    (h : takeBits n s (fun u => .next (k u)) = .next t) : ReadThen n k s t := by
  unfold takeBits at h
  split at h <;> cases h
  · next hle => exact .inr ⟨hle, rfl⟩
  · next hlt => exact .inl ⟨by omega, rfl⟩

theorem execLit_next {code : Nat} {s t : State} (h : execLit code s = .next t) :
    InToken .legacy s ∧ t = advanceIp 1 (append (alphaOf s.cfg code) s) := by
  obtain ⟨hin, -, h⟩ := inDecode_next h
  cases h
  exact ⟨hin, rfl⟩

theorem execEsc_next {raw : Byte} {s t : State} (h : execEsc raw s = .next t) :
    InToken .legacy s ∧
      (s.inlen.toNat ≤ s.ip.toNat + 1 ∧ t = stop .trunc s ∨
        s.ip.toNat + 1 < s.inlen.toNat ∧ t = advanceIp 2 (append raw s)) := by
  obtain ⟨hin, -, h⟩ := inDecode_next h
  split at h <;> cases h
  · next hle => exact ⟨hin, .inl ⟨hle, rfl⟩⟩
  · next hlt => exact ⟨hin, .inr ⟨by omega, rfl⟩⟩

theorem execBref_next {offset len : Nat} {s t : State} (h : execBref offset len s = .next t) :
    InToken .legacy s ∧
      (s.inlen.toNat ≤ s.ip.toNat + 1 ∧ t = stop .trunc s ∨
        s.ip.toNat + 1 < s.inlen.toNat ∧ t = reference offset len (advanceIp 2 s)) := by
  obtain ⟨hin, -, h⟩ := inDecode_next h
  split at h <;> cases h
  · next hle => exact ⟨hin, .inl ⟨hle, rfl⟩⟩
  · next hlt => exact ⟨hin, .inr ⟨by omega, rfl⟩⟩

theorem execMlit_next {k v : Nat} {s t : State} (h : execMlit k v s = .next t) :
    InToken .modern s ∧ ReadThen (litBits k) (literal k v) s t := by
  obtain ⟨hin, -, h⟩ := inDecode_next h
  exact ⟨hin, takeBits_next h⟩

theorem execMbrefS_next {offset len : Nat} {s t : State} (h : execMbrefS offset len s = .next t) :
    InToken .modern s ∧ ReadThen (8 + lengthBits len) (reference offset len) s t := by
  obtain ⟨hin, -, h⟩ := inDecode_next h
  exact ⟨hin, takeBits_next h⟩

theorem execMbrefM_next {offset len : Nat} {s t : State} (h : execMbrefM offset len s = .next t) :
    InToken .modern s ∧ ReadThen (13 + lengthBits len) (reference offset len) s t := by
  obtain ⟨hin, -, h⟩ := inDecode_next h
  split at h
  · cases h
  · exact ⟨hin, takeBits_next h⟩

theorem execMbrefL_next {offset len : Nat} {s t : State} (h : execMbrefL offset len s = .next t) :
    InToken .modern s ∧ ReadThen (17 + lengthBits len) (reference offset len) s t := by
  obtain ⟨hin, -, h⟩ := inDecode_next h
  exact ⟨hin, takeBits_next h⟩

/-- A token is executed in its own decode, below the output budget (40 R101, 41 R139). -/
theorem runToken_inToken {i : Instr} {s t : State} (h : runToken i s = .next t) :
    ∃ form, InToken form s := by
  cases i with
  | lit _ => exact ⟨_, (execLit_next h).1⟩
  | esc _ => exact ⟨_, (execEsc_next h).1⟩
  | bref _ _ => exact ⟨_, (execBref_next h).1⟩
  | mlit _ _ => exact ⟨_, (execMlit_next h).1⟩
  | mbrefS _ _ => exact ⟨_, (execMbrefS_next h).1⟩
  | mbrefM _ _ => exact ⟨_, (execMbrefM_next h).1⟩
  | mbrefL _ _ => exact ⟨_, (execMbrefL_next h).1⟩
  | _ => cases h

/-- A token that `exec` runs, as the loop runs it. -/
theorem runToken_of_exec {i : Instr} {s t : State} (hi : i.stream ≠ .command) (h : exec i s = .next t) :
    runToken i s = .next t :=
  (runToken_eq_exec hi s).trans h

/-- Everything a token that completes can have changed, as `exec` runs it. -/
theorem exec_token_frame {i : Instr} {s t : State} (hi : i.stream ≠ .command) (h : exec i s = .next t) :
    TokenFrame s t :=
  runToken_frame (runToken_of_exec hi h)

/-! ### The head of the decode loop -/

/-- A step of a Raw decode ends the loop, or appends the byte at `IP`, which is not zero (42 R172). -/
theorem rawStep_cases (s : State) :
    rawStep s = endLoop s ∨
    ∃ b, s.ip.toNat < s.inlen.toNat ∧ s.inbuf[s.ip.toNat]? = some b ∧ b ≠ 0#8 ∧
      rawStep s = advanceIp 1 (append b s) := by
  unfold rawStep
  split
  · next hlt =>
    split
    · exact .inl rfl
    · next b hb =>
      split
      · exact .inl rfl
      · next h0 => exact .inr ⟨b, hlt, hb, h0, rfl⟩
  · exact .inl rfl

/-- What the head of the loop does itself: a raw byte, the end at the output budget, a stop at a token cut short (40 R101,
41 R139, 42 R172). -/
theorem fetchToken_act_cases {form : Form} {s u : State} (h : fetchToken form s = .act u) :
    form = .raw ∧ u = rawStep s ∨
    form ≠ .raw ∧ s.declen.toNat ≤ s.outlen.toNat ∧ u = endLoop s ∨
    form = .legacy ∧ u = stop .trunc s ∨
    form = .modern ∧ u = stop .trunc { s with bitpos := bitIndexOf (max s.bitpos.toNat (8 * s.inlen.toNat)) } := by
  cases form with
  | raw => cases h; exact .inl ⟨rfl, rfl⟩
  | legacy =>
    unfold fetchToken at h
    dsimp only at h
    split at h
    · unfold fetchLegacy at h
      split at h <;> cases h
      exact .inr (.inr (.inl ⟨rfl, rfl⟩))
    · next hle => cases h; exact .inr (.inl ⟨by decide, by omega, rfl⟩)
  | modern =>
    unfold fetchToken at h
    dsimp only at h
    split at h
    · unfold fetchModern at h
      split at h
      · cases h
      · split at h <;> cases h
        exact .inr (.inr (.inr ⟨rfl, rfl⟩))
    · next hle => cases h; exact .inr (.inl ⟨by decide, by omega, rfl⟩)

end Sys2Proof.Machine
end

section
/-! SUPPORT. What the commands write is within the memories: the payload's ROM and label, the bytes of the text sections
(20_memory.md R46, R48; 43_rom_serializer.md R210, R212; 44_text_sections.md R237 to R242). -/

namespace Sys2Proof.Machine

open Sys2Proof

/-- A memory is in canonical form and has no cell at or above a size (10 R35). -/
def MemoryInv (size : Nat) (m : Memory) : Prop := m.wf = true ∧ m.below size = true

theorem memoryInv_nil (size : Nat) : MemoryInv size [] := ⟨rfl, rfl⟩

theorem MemoryInv.write {size a : Nat} {v : Byte} {m : Memory} (h : MemoryInv size m) (ha : a < size) :
    MemoryInv size (m.write a v) :=
  ⟨Memory.wf_write h.1, Memory.below_write h.2 ha⟩

theorem MemoryInv.writeList {size base : Nat} {bs : ByteString} {m : Memory} (h : MemoryInv size m)
    (hb : base + bs.length ≤ size) : MemoryInv size (m.writeList base bs) :=
  ⟨Memory.wf_writeList h.1, Memory.below_writeList h.2 hb⟩

theorem MemoryInv.writeList_take {size base n : Nat} {bs : ByteString} {m : Memory} (h : MemoryInv size m)
    (hb : base + n ≤ size) : MemoryInv size (m.writeList base (bs.take n)) :=
  h.writeList ((Nat.add_le_add_left (List.length_take_le n bs) base).trans hb)

theorem MemoryInv.orList {size base : Nat} {bs : ByteString} {m : Memory} (h : MemoryInv size m)
    (hb : base + bs.length ≤ size) : MemoryInv size (m.orList base bs) :=
  ⟨Memory.wf_orList h.1, Memory.below_orList h.2 hb⟩

theorem memoryInv_ofBytes {size : Nat} {bs : ByteString} (h : bs.length ≤ size) :
    MemoryInv size (Memory.ofBytes 0 bs) :=
  ⟨Memory.wf_ofBytes, Memory.below_ofBytes (by omega)⟩

/-! ### The pixel payload -/

theorem unpackRom_inv (px : List Pixel) : MemoryInv romSize (unpackRom px) :=
  memoryInv_ofBytes (by rw [List.length_map]; exact List.length_take_le _ _)

theorem packNibbles_length : ∀ l : List Nat, (packNibbles l).length = l.length / 2
  | [] => rfl
  | [_] => by simp [packNibbles]
  | _ :: _ :: rest => by
    simp only [packNibbles, List.length_cons, packNibbles_length rest]
    omega

/-- A label row has at most 64 bytes (43 R208). -/
theorem labelRow_length_le (c : Config) (w : Nat) (px : List Pixel) (y : Nat) : (labelRow c w px y).length ≤ 64 := by
  rw [labelRow, packNibbles_length, List.length_map]
  have := List.length_take_le labelSide (px.drop ((c.labelY + y) * w + c.labelX))
  unfold labelSide at *
  omega

/-- The label's rows together have at most 0x2000 bytes (10 R35). -/
theorem labelRows_length_le (c : Config) (w : Nat) (px : List Pixel) :
    ((List.range labelSide).flatMap (labelRow c w px)).length ≤ labelSize := by
  have hrow : ∀ n ∈ (List.range labelSide).map (fun y => (labelRow c w px y).length), n ≤ 64 := fun n hn => by
    obtain ⟨y, -, rfl⟩ := List.mem_map.1 hn
    exact labelRow_length_le c w px y
  have hsum := List.sum_le_card_nsmul _ 64 hrow
  rw [List.length_map, List.length_range] at hsum
  rw [List.length_flatMap]
  exact hsum.trans (by decide)

theorem unpackLabel_inv (c : Config) (w h : Nat) (px : List Pixel) : MemoryInv labelSize (unpackLabel c w h px) := by
  unfold unpackLabel
  split
  · exact memoryInv_ofBytes (labelRows_length_le c w px)
  · exact memoryInv_nil _

/-! ### The bytes of the sections -/

theorem nibbles_length (bs : ByteString) : (nibbles bs).length = 2 * bs.length := by
  induction bs with
  | nil => rfl
  | cons b bs ih => simp only [nibbles, List.length_cons, ih]; omega

theorem noteBytes_length : ∀ l : List Nat, (noteBytes l).length = l.length / 5 * 2
  | [] | [_] | [_, _] | [_, _, _] | [_, _, _, _] => by simp [noteBytes]
  | _ :: _ :: _ :: _ :: _ :: rest => by
    simp only [noteBytes, List.length_cons, noteBytes_length rest]
    omega

/-- An sfx entry has at most 68 bytes (44 R240). -/
theorem sfxFromBlock_length_le (bs : ByteString) : (sfxFromBlock (bs.take 84)).length ≤ 68 := by
  simp only [sfxFromBlock, List.length_append, noteBytes_length, nibbles_length, List.length_drop, List.length_take]
  omega

theorem sfxBytes_length_le (n : Nat) (bs : ByteString) : (sfxBytes n bs).length ≤ 68 * n := by
  induction n generalizing bs with
  | zero => exact Nat.zero_le _
  | succ n ih =>
    unfold sfxBytes
    split
    · exact Nat.zero_le _
    · have hblock := sfxFromBlock_length_le bs
      have hrest := ih (bs.drop 84)
      rw [List.length_append]
      omega

/-- Graphics and map write within ROM, in their own place and in map2 (44 R237). -/
theorem applyAliased_inv {base : Nat} (hbase : base + 0x1000 ≤ romSize) (bytes : ByteString) {s : State}
    (h : MemoryInv romSize s.rom) : MemoryInv romSize (applyAliased base bytes s).rom := by
  have hdirect : (bytes.take 0x1000).length ≤ 0x1000 := List.length_take_le _ _
  have halias : ((bytes.drop 0x1000).take 0x1000).length ≤ 0x1000 := List.length_take_le _ _
  have hmap2 : map2Base + 0x1000 ≤ romSize := by decide
  exact (h.writeList (by omega)).orList (by omega)

end Sys2Proof.Machine
end

section
/-! SUPPORT. The move-to-front list stays a permutation of 0..255 (10_state.md R30; 41_modern_codec.md R136, R137). -/

namespace Sys2Proof.Machine

open Sys2Proof

theorem identityMtf_length : identityMtf.length = 256 := by
  rw [identityMtf, List.length_map, List.length_range]

theorem mem_identityMtf (b : Byte) : b ∈ identityMtf :=
  List.mem_map.2 ⟨b.toNat, List.mem_range.2 b.isLt, BitVec.ofNat_toNat ..⟩

/-- Every byte has a rank in a permutation of 0..255 (41 R138). -/
theorem mtfRank_lt {l : ByteString} (h : l.Perm identityMtf) (c : Byte) : mtfRank l c < l.length :=
  List.idxOf_lt_length_of_mem (h.mem_iff.2 (mem_identityMtf c))

/-- A literal code that completes promotes a rank below 256, one that stops with `CLIT` none (41 R141, R142). -/
theorem literal_mtf_perm {k v : Nat} {s : State} (h : s.mtf.Perm identityMtf) :
    (literal k v s).mtf.Perm identityMtf := by
  unfold literal
  split
  · exact h
  · next hk =>
    have hrank : litRank k v < s.mtf.length := by
      rw [h.length_eq, identityMtf_length]
      omega
    dsimp only
    split <;> exact (mtfPromote_perm hrank).trans h

theorem modernChoice_mtf_perm {src mtf : ByteString} {pos : Nat} {c : Byte} (h : mtf.Perm identityMtf) :
    (modernChoice src pos mtf c).2.2.Perm identityMtf := by
  unfold modernChoice
  dsimp only
  split
  · exact h
  · exact (mtfPromote_perm (mtfRank_lt h c)).trans h

theorem modernTokens_mtf_perm {src mtf : ByteString} {n pos : Nat} (h : mtf.Perm identityMtf) :
    (modernTokens src n pos mtf).2.Perm identityMtf := by
  induction n generalizing pos mtf with
  | zero => exact h
  | succ n ih =>
    unfold modernTokens
    split
    · exact h
    · exact ih (modernChoice_mtf_perm h)

/-- The list the Modern encoder leaves (41 R149, R154). -/
theorem modernEncode_mtf_perm (cfg : Config) (src : ByteString) : (modernEncode cfg src).2.Perm identityMtf :=
  modernTokens_mtf_perm (List.Perm.refl _)

end Sys2Proof.Machine
end

section
/-! SUPPORT. What every step keeps, field by field, whatever the rest of the state holds: the parameters, the memories' form,
`MTF`, the reserved bit of `STATUS`, a legal fault cause (10_state.md R22 to R37; 60_exceptions.md R260). Proved once for each
shared operation; a token's, a command's and a step's follow by composition. -/

namespace Sys2Proof.Machine

open Sys2Proof

/-- `FCAUSE` is a listed cause, and 0 exactly when not faulted (60 R260). -/
def CauseInv (s : State) : Prop := s.fcause.toNat ≤ 2 ∧ (s.fcause = 0#4 ↔ s.faulted = false)

/-- `t` has the parameters of `s` and keeps the parts of `State.Inv` that do not depend on the stage, each by itself. -/
structure Keeps (s t : State) : Prop where
  cfg : t.cfg = s.cfg
  rom : MemoryInv romSize s.rom → MemoryInv romSize t.rom
  label : MemoryInv labelSize s.label → MemoryInv labelSize t.label
  mtf : s.mtf.Perm identityMtf → t.mtf.Perm identityMtf
  status : s.status.getLsbD 7 = false → t.status.getLsbD 7 = false
  cause : CauseInv s → CauseInv t

/-- `Keeps`, and neither `MODE` nor the stage is written. -/
structure Steady (s t : State) : Prop extends Keeps s t where
  mode : t.mode = s.mode
  stage : t.stage = s.stage

theorem Keeps.refl (s : State) : Keeps s s := ⟨rfl, id, id, id, id, id⟩

theorem Keeps.trans {s t u : State} (h : Keeps s t) (k : Keeps t u) : Keeps s u where
  cfg := k.cfg.trans h.cfg
  rom := k.rom ∘ h.rom
  label := k.label ∘ h.label
  mtf := k.mtf ∘ h.mtf
  status := k.status ∘ h.status
  cause := k.cause ∘ h.cause

theorem Steady.refl (s : State) : Steady s s := ⟨Keeps.refl s, rfl, rfl⟩

theorem Steady.trans {s t u : State} (h : Steady s t) (k : Steady t u) : Steady s u :=
  ⟨h.toKeeps.trans k.toKeeps, k.mode.trans h.mode, k.stage.trans h.stage⟩

/-! ### The shared operations -/

theorem steady_cleared (s : State) : Steady s s.cleared := 
  ⟨{ Keeps.refl s with status := fun _ => BitVec.getLsbD_zero }, rfl, rfl⟩

theorem mask_reserved (f : Flag) : f.mask.getLsbD 7 = false := by cases f <;> rfl

theorem steady_setFlag (f : Flag) (s : State) : Steady s (setFlag f s) :=
  ⟨{ Keeps.refl s with
      status := fun h => by rw [setFlag_status, BitVec.getLsbD_or, h, mask_reserved]; rfl }, rfl, rfl⟩

theorem steady_setFlagIf (c : Bool) (f : Flag) (s : State) : Steady s (setFlagIf c f s) := by
  cases c with
  | false => exact Steady.refl s
  | true => exact steady_setFlag f s

theorem keeps_endLoop (s : State) : Keeps s (endLoop s) := ⟨rfl, id, id, id, id, id⟩

theorem keeps_stop (f : Flag) (s : State) : Keeps s (stop f s) :=
  (steady_setFlag f s).toKeeps.trans (keeps_endLoop _)

theorem steady_respond (r : Result) (s : State) : Steady s (respond r s) := ⟨⟨rfl, id, id, id, id, id⟩, rfl, rfl⟩

theorem steady_append (v : Byte) (s : State) : Steady s (append v s) := ⟨⟨rfl, id, id, id, id, id⟩, rfl, rfl⟩

theorem steady_advanceIp (n : Nat) (s : State) : Steady s (advanceIp n s) := ⟨⟨rfl, id, id, id, id, id⟩, rfl, rfl⟩

theorem steady_bitpos (p : BitIndex) (s : State) : Steady s { s with bitpos := p } :=
  ⟨⟨rfl, id, id, id, id, id⟩, rfl, rfl⟩

theorem steady_cache (c : ByteString) (v : Bool) (s : State) : Steady s { s with cache := c, cacheValid := v } :=
  ⟨⟨rfl, id, id, id, id, id⟩, rfl, rfl⟩

theorem steady_keepSource (src : ByteString) (s : State) : Steady s (keepSource src s) := steady_cache src true s

theorem Cause.code_le (c : Cause) : c.code.toNat ≤ 2 := by cases c <;> decide

theorem Cause.code_ne_zero (c : Cause) : c.code ≠ 0#4 := by cases c <;> decide

/-- Taking the fault writes a listed cause (60 R260, R265). -/
theorem steady_raiseFault (c : Cause) (a : Nat) (s : State) : Steady s (raiseFault c a s) :=
  ⟨{ Keeps.refl s with cause := fun _ => ⟨c.code_le, iff_of_false c.code_ne_zero nofun⟩ }, rfl, rfl⟩

theorem steady_romPut {a : Nat} (ha : a < romSize) (v : Byte) (s : State) : Steady s (romPut a v s) :=
  ⟨{ Keeps.refl s with rom := fun h => h.write ha }, rfl, rfl⟩

theorem steady_labelPut {a : Nat} (ha : a < labelSize) (v : Byte) (s : State) : Steady s (labelPut a v s) :=
  ⟨{ Keeps.refl s with label := fun h => h.write ha }, rfl, rfl⟩

theorem steady_zeroMemories (s : State) : Steady s (zeroMemories s) :=
  ⟨{ Keeps.refl s with rom := fun _ => memoryInv_nil _, label := fun _ => memoryInv_nil _ }, rfl, rfl⟩

theorem steady_flagOversize (code : ByteString) (s : State) : Steady s (flagOversize code s) := steady_setFlagIf ..

theorem steady_afterLegacyEncode (src : ByteString) (s : State) : Steady s (afterLegacyEncode src s) :=
  ⟨⟨rfl, id, id, id, id, id⟩, rfl, rfl⟩

theorem steady_afterModernEncode (src : ByteString) (s : State) : Steady s (afterModernEncode src s) :=
  ⟨⟨rfl, id, id, fun _ => modernEncode_mtf_perm s.cfg src, id, id⟩, rfl, rfl⟩

theorem steady_afterBothEncoders (src : ByteString) (s : State) : Steady s (afterBothEncoders src s) :=
  (steady_afterLegacyEncode src s).trans (steady_afterModernEncode src _)

theorem keeps_mode (m : Mode) (s : State) : Keeps s { s with mode := m } := ⟨rfl, id, id, id, id, id⟩

/-! ### Tokens, the loop, the ends of a decode -/

theorem keeps_reference (offset len : Nat) (s : State) : Keeps s (reference offset len s) := by
  unfold reference
  split
  · exact (steady_setFlag .cbr s).toKeeps
  · rw [copy_frame]
    exact ⟨rfl, id, id, id, id, id⟩

theorem keeps_literal (k v : Nat) (s : State) : Keeps s (literal k v s) where
  cfg := by rw [literal_frame]
  rom := by rw [literal_frame]; exact id
  label := by rw [literal_frame]; exact id
  mtf := literal_mtf_perm
  status := by
    have hstop : ∀ f u, u.status = s.status → s.status.getLsbD 7 = false → (stop f u).status.getLsbD 7 = false :=
      fun f u hu h => (keeps_stop f u).status (hu ▸ h)
    unfold literal
    split
    · exact hstop .clit s rfl
    · dsimp only
      split
      · exact hstop .endmark _ rfl
      · exact id
  cause := by unfold CauseInv; rw [literal_frame]; exact id

theorem ReadThen.keeps {n : Nat} {k : State → State} {s t : State} (hk : ∀ u, Keeps u (k u))
    (h : ReadThen n k s t) : Keeps s t := by
  rcases h with ⟨-, rfl⟩ | ⟨-, rfl⟩
  · exact (steady_bitpos _ s).toKeeps.trans (keeps_stop ..)
  · exact (steady_bitpos _ s).toKeeps.trans (hk _)

/-- A token that completes (40 R102 to R104, 41 R141 to R145). -/
theorem runToken_keeps {i : Instr} {s t : State} (h : runToken i s = .next t) : Keeps s t := by
  cases i with
  | lit code =>
    obtain ⟨-, rfl⟩ := execLit_next h
    exact ((steady_append _ s).trans (steady_advanceIp 1 _)).toKeeps
  | esc raw =>
    obtain ⟨-, ⟨-, rfl⟩ | ⟨-, rfl⟩⟩ := execEsc_next h
    · exact keeps_stop .trunc s
    · exact ((steady_append raw s).trans (steady_advanceIp 2 _)).toKeeps
  | bref offset len =>
    obtain ⟨-, ⟨-, rfl⟩ | ⟨-, rfl⟩⟩ := execBref_next h
    · exact keeps_stop .trunc s
    · exact (steady_advanceIp 2 s).toKeeps.trans (keeps_reference ..)
  | mlit k v => exact (execMlit_next h).2.keeps (keeps_literal k v)
  | mbrefS offset len => exact (execMbrefS_next h).2.keeps (keeps_reference offset len)
  | mbrefM offset len => exact (execMbrefM_next h).2.keeps (keeps_reference offset len)
  | mbrefL offset len => exact (execMbrefL_next h).2.keeps (keeps_reference offset len)
  | _ => cases h

theorem rawStep_keeps (s : State) : Keeps s (rawStep s) := by
  rcases rawStep_cases s with h | ⟨b, -, -, -, h⟩ <;> rw [h]
  · exact keeps_endLoop s
  · exact ((steady_append b s).trans (steady_advanceIp 1 _)).toKeeps

/-- What the head of the loop does itself. -/
theorem fetchToken_act_keeps {form : Form} {s u : State} (h : fetchToken form s = .act u) : Keeps s u := by
  rcases fetchToken_act_cases h with ⟨-, rfl⟩ | ⟨-, -, rfl⟩ | ⟨-, rfl⟩ | ⟨-, rfl⟩
  · exact rawStep_keeps s
  · exact keeps_endLoop s
  · exact keeps_stop .trunc s
  · exact (steady_bitpos _ s).toKeeps.trans (keeps_stop ..)

theorem decodeStep_keeps {form : Form} {s t : State} (h : decodeStep form s = .next t) : Keeps s t := by
  unfold decodeStep at h
  split at h
  · next i u hf => rw [fetchToken_run hf] at h; exact runToken_keeps h
  · next u hf => cases h; exact fetchToken_act_keeps hf
  · cases h

theorem decodeLoop_keeps {n : Nat} {s t : State} (h : decodeLoop n s = .next t) : Keeps s t := by
  induction n generalizing s with
  | zero => cases h; exact Keeps.refl _
  | succ n ih =>
    unfold decodeLoop at h
    split at h
    · obtain ⟨u, hu, ht⟩ := andThen_next_iff.1 h
      exact (decodeStep_keeps hu).trans (ih ht)
    · cases h; exact Keeps.refl _
    · cases h; exact Keeps.refl _

/-- A set-up: `MTF` stays or is the identity (41 R130, R136), `STATUS` stays or gets `TRUNC`. -/
theorem keeps_openDecode (form : Form) (o : Origin) (buf : ByteString) (s : State) :
    Keeps s (openDecode form o buf s) := by
  have hstop : ∀ u : State, Keeps s u → Keeps s (stop .trunc u) := fun u hu => hu.trans (keeps_stop .trunc u)
  cases form with
  | raw => exact ⟨rfl, id, id, id, id, id⟩
  | legacy =>
    unfold openDecode openLegacy
    dsimp only
    split
    · exact hstop _ ⟨rfl, id, id, id, id, id⟩
    · exact ⟨rfl, id, id, id, id, id⟩
  | modern =>
    unfold openDecode openModern
    dsimp only
    split
    · exact hstop _ ⟨rfl, id, id, id, id, id⟩
    · exact ⟨rfl, id, id, fun _ => List.Perm.refl _, id, id⟩

theorem keeps_postProcess (form : Form) (s : State) : Keeps s (postProcess form s) := by
  rw [postProcess_frame]
  exact ⟨rfl, id, id, id, id, id⟩

theorem keeps_finishDecode (form : Form) (o : Origin) (s : State) : Keeps s (finishDecode form o s) := by
  have hpost := keeps_postProcess form s
  cases o with
  | region => exact hpost.trans ⟨rfl, id, id, id, id, id⟩
  | host => exact hpost.trans ⟨rfl, id, id, id, id, id⟩

theorem keeps_closeDecode (s : State) : Keeps s (closeDecode s) := by
  rcases closeDecode_cases s with h | ⟨form, o, -, h⟩ <;> rw [h]
  · exact Keeps.refl s
  · exact keeps_finishDecode form o s

/-- The region decode inside another command; it leaves `MODE` alone (43 R207; 44 R244). -/
theorem decodeRegion_steady {s t : State} (h : decodeRegion s = .next t) : Steady s t := by
  have hmode : t.mode = s.mode := by rw [decodeRegion_next h]
  have hstage : t.stage = s.stage := by rw [decodeRegion_next h]
  obtain ⟨u, hu, ht⟩ := andThen_next_iff.1 h
  cases ht
  have hloop := (keeps_openDecode _ _ _ s).trans (decodeLoop_keeps hu)
  have hpost := hloop.trans (keeps_postProcess (detect s.cfg (codeRegion s)) u)
  exact ⟨hpost.trans ⟨rfl, id, id, id, id, id⟩, hmode, hstage⟩

theorem SourceFrom.steady {s u : State} {src : ByteString} (h : SourceFrom s src u) : Steady s u := by
  rcases h with ⟨-, -, rfl⟩ | ⟨-, h, -⟩
  · exact Steady.refl _
  · exact decodeRegion_steady h

/-! ### The text sections -/

/-- A section's write of ROM, with its capacity check (44 R243). -/
theorem steady_romSection {m : Memory} {s : State} (h : MemoryInv romSize s.rom → MemoryInv romSize m)
    (capacity : Nat) (bytes : ByteString) : Steady s (flagTooLarge capacity bytes { s with rom := m }) :=
  Steady.trans (t := { s with rom := m }) ⟨{ Keeps.refl s with rom := h }, rfl, rfl⟩ (steady_setFlagIf ..)

theorem steady_applySection (k : SectionKind) (content : ByteString) (s : State) :
    Steady s (applySection k content s) := by
  cases k with
  | code => exact steady_cache content true s
  | graphics => exact steady_romSection (applyAliased_inv (by decide) _) ..
  | flags => exact steady_romSection (fun h => h.writeList_take (by decide)) ..
  | map => exact steady_romSection (applyAliased_inv (by decide) _) ..
  | sound =>
    have hsize : sfxBase + 68 * 64 ≤ romSize := by decide
    exact steady_romSection (fun h => h.writeList (by have := sfxBytes_length_le 64 (hexBytes false content); omega)) ..
  | music => exact steady_romSection (fun h => h.writeList_take (by decide)) ..
  | label =>
    exact Steady.trans (t := { s with label := s.label.writeList 0 ((hexBytes true content).take 0x2000) })
      ⟨{ Keeps.refl s with label := fun h => h.writeList_take (by decide) }, rfl, rfl⟩ (steady_setFlagIf ..)

theorem steady_applySections (secs : List (SectionKind × ByteString)) (s : State) :
    Steady s (applySections secs s) := by
  induction secs generalizing s with
  | nil => exact Steady.refl s
  | cons sec secs ih => exact (steady_applySection ..).trans (ih _)

/-! ### The instructions -/

/-- The commands that write neither `MODE` nor the decode's stage: all but `DECOMPRESS` and the three compress commands. -/
def quietCommand : Instr → Bool
  | .romRead _ | .romWrite _ _ | .labelRead _ | .labelWrite _ _ | .romClear | .binAssemble _ | .pngUnpack _ _ _
  | .pngPack _ _ _ _ | .textParse _ | .textSerialize _ => true
  | _ => false

theorem exec_steady {i : Instr} {s t : State} (hq : quietCommand i = true) (h : exec i s = .next t) : Steady s t := by
  refine (steady_cleared s).trans ?_
  cases i with
  | romRead a =>
    obtain ⟨-, ⟨-, rfl⟩ | ⟨-, rfl⟩⟩ := execRomRead_next h
    · exact steady_raiseFault ..
    · exact steady_respond ..
  | romWrite a v =>
    obtain ⟨-, ⟨-, rfl⟩ | ⟨ha, rfl⟩⟩ := execRomWrite_next h
    · exact steady_raiseFault ..
    · exact (steady_romPut ha _ _).trans (steady_respond ..)
  | labelRead a =>
    obtain ⟨-, ⟨-, rfl⟩ | ⟨-, rfl⟩⟩ := execLabelRead_next h
    · exact steady_raiseFault ..
    · exact steady_respond ..
  | labelWrite a v =>
    obtain ⟨-, ⟨-, rfl⟩ | ⟨ha, rfl⟩⟩ := execLabelWrite_next h
    · exact steady_raiseFault ..
    · exact (steady_labelPut ha _ _).trans (steady_respond ..)
  | romClear =>
    obtain ⟨-, rfl⟩ := execRomClear_next h
    exact (steady_zeroMemories _).trans ((steady_cache _ false _).trans (steady_respond ..))
  | binAssemble ver =>
    obtain ⟨-, src, u, hsrc, -, -, _, rfl, rfl⟩ := execBinAssemble_next h
    exact hsrc.steady.trans ((steady_keepSource src u).trans ((steady_afterBothEncoders ..).trans
      ((steady_flagOversize ..).trans (steady_respond ..))))
  | pngUnpack w h p =>
    obtain ⟨-, -, ⟨-, rfl⟩ | ⟨-, rfl⟩⟩ := execPngUnpack_next h
    · exact (steady_setFlag ..).trans (steady_respond ..)
    · exact ⟨⟨rfl, fun _ => unpackRom_inv _, fun _ => unpackLabel_inv .., id, id, id⟩, rfl, rfl⟩
  | pngPack w h p ver =>
    obtain ⟨-, -, ⟨-, rfl⟩ | ⟨-, rfl⟩⟩ := execPngPack_next h
    · exact (steady_setFlag ..).trans (steady_respond ..)
    · exact steady_respond ..
  | textParse text =>
    obtain ⟨-, ⟨-, rfl⟩ | ⟨-, _, rfl, rfl⟩⟩ := execTextParse_next h
    · exact (steady_setFlag ..).trans (steady_respond ..)
    · exact (steady_zeroMemories _).trans ((steady_cache [] true _).trans
        ((steady_applySections ..).trans (steady_respond ..)))
  | textSerialize ver =>
    obtain ⟨-, src, u, hsrc, _, rfl, rfl⟩ := execTextSerialize_next h
    exact hsrc.steady.trans ((steady_keepSource src u).trans (steady_respond ..))
  | _ => cases hq

/-- Every instruction that completes. -/
theorem exec_keeps {i : Instr} {s t : State} (h : exec i s = .next t) : Keeps s t := by
  cases i with
  | lit _ | esc _ | bref _ _ | mlit _ _ | mbrefS _ _ | mbrefM _ _ | mbrefL _ _ =>
    exact runToken_keeps (runToken_of_exec (by simp [Instr.stream]) h)
  | decompress src =>
    obtain ⟨-, u, hu, rfl⟩ := execDecompress_next h
    exact (steady_cleared s).toKeeps.trans ((keeps_mode _ _).trans ((keeps_openDecode ..).trans
      ((decodeLoop_keeps hu).trans (keeps_closeDecode u))))
  | compressLegacy src =>
    obtain ⟨-, -, _, rfl, rfl⟩ := execCompressLegacy_next h
    exact ((steady_cleared s).trans (steady_afterLegacyEncode src _)).toKeeps.trans ((keeps_mode _ _).trans
      ((steady_flagOversize ..).trans (steady_respond ..)).toKeeps)
  | compressModern src =>
    obtain ⟨-, -, -, _, rfl, rfl⟩ := execCompressModern_next h
    exact ((steady_cleared s).trans (steady_afterModernEncode src _)).toKeeps.trans ((keeps_mode _ _).trans
      ((steady_flagOversize ..).trans (steady_respond ..)).toKeeps)
  | compressBest src =>
    obtain ⟨-, -, -, _, rfl, rfl⟩ := execCompressBest_next h
    exact ((steady_cleared s).trans (steady_afterBothEncoders src _)).toKeeps.trans ((keeps_mode _ _).trans
      ((steady_flagOversize ..).trans (steady_respond ..)).toKeeps)
  | romRead _ | romWrite _ _ | labelRead _ | labelWrite _ _ | romClear | binAssemble _ | pngUnpack _ _ _
  | pngPack _ _ _ _ | textParse _ | textSerialize _ => exact (exec_steady rfl h).toKeeps

theorem keeps_hostReset (s : State) : Keeps s (hostReset s) :=
  ⟨rfl, fun _ => memoryInv_nil _, fun _ => memoryInv_nil _, fun _ => List.Perm.refl _, fun _ => BitVec.getLsbD_zero,
    fun _ => ⟨Nat.zero_le 2, iff_of_true rfl rfl⟩⟩

/-- Every step. -/
theorem step_keeps {s t : State} (h : step s = .next t) : Keeps s t := by
  have hport : ∀ rest, Keeps s { s with port := rest } := fun _ => ⟨rfl, id, id, id, id, id⟩
  rcases step_next h with ⟨form, o, -, h⟩ | ⟨form, o, -, rfl⟩ | ⟨-, -, rfl⟩ | ⟨rest, -, -, rfl⟩ |
    ⟨msg, rest, i, -, -, -, -, h⟩
  · exact decodeStep_keeps h
  · exact keeps_finishDecode form o s
  · exact Keeps.refl _
  · exact (hport rest).trans (keeps_hostReset _)
  · exact (hport rest).trans (exec_keeps h)

/-- Settles O55: a literal promotes a rank below 256, the Modern encoder starts from the identity and promotes ranks of bytes
it finds, and nothing else writes `MTF` but set-up and reset. -/
theorem mtfStaysAPermutation : Obligations.MtfStaysAPermutation :=
  fun _ _ hs h => (step_keeps h).mtf hs

/-- Settles O59: no operation a step is made of writes the parameters. -/
theorem parametersAreReadOnly : Obligations.ParametersAreReadOnly :=
  fun _ _ h => (step_keeps h).cfg

end Sys2Proof.Machine
end

section
/-! SUPPORT. The decode registers stay in step with their buffers and budgets: one iteration of the loop, the whole loop, the
set-ups (10_state.md R22 to R26; 40_legacy_codec.md R100 to R105; 41_modern_codec.md R130 to R145; 42_detect_and_best.md R172). -/

namespace Sys2Proof.Machine

open Sys2Proof

/-- `DecodeInv` without `MODE`, which a region decode inside another command leaves alone, and `PointerInv` while the loop of
the form is under way. -/
structure LoopInv (form : Form) (s : State) : Prop where
  outInStep : OutInStep s
  withinBudget : s.outlen.toNat ≤ s.declen.toNat
  stage : ∃ o, s.stage = .decoding form o ∧ PointerInv form s ∨ s.stage = .ended form o

theorem LoopInv.form_eq {form f : Form} {s : State} {o : Origin} (hs : LoopInv form s) (hst : s.stage = .decoding f o) :
    f = form ∧ PointerInv form s := by
  obtain ⟨o', ⟨h, hp⟩ | h⟩ := hs.stage <;> rw [hst] at h <;> cases h
  exact ⟨rfl, hp⟩

/-- `OUT` has at most 65535 bytes, since `OUTLEN` counts it (10 R26). -/
theorem LoopInv.out_length_le {form : Form} {s : State} (hs : LoopInv form s) : s.out.length ≤ bufferMax := by
  have hout : s.outlen.toNat = s.out.length := hs.outInStep
  have hlt := s.outlen.isLt
  unfold bufferMax
  omega

/-- `StageInv` of a decode under way gives `LoopInv`, and `LoopInv.stageInv` leads back. -/
theorem stageInv_of_decoding {form : Form} {o : Origin} {s : State} (hst : s.stage = .decoding form o)
    (h : StageInv s) : s.faulted = false ∧ s.mode = form.mode ∧ LoopInv form s := by
  simp only [StageInv, hst] at h
  obtain ⟨hf, ⟨hout, hle, hm⟩, hp⟩ := h
  exact ⟨hf, hm, hout, hle, o, .inl ⟨hst, hp⟩⟩

theorem stageInv_of_ended {form : Form} {o : Origin} {s : State} (hst : s.stage = .ended form o)
    (h : StageInv s) : s.faulted = false ∧ s.mode = form.mode ∧ LoopInv form s := by
  simp only [StageInv, hst] at h
  obtain ⟨hf, hout, hle, hm⟩ := h
  exact ⟨hf, hm, hout, hle, o, .inr hst⟩

theorem LoopInv.stageInv {form : Form} {s : State} (hs : LoopInv form s) (hf : s.faulted = false)
    (hm : s.mode = form.mode) : StageInv s := by
  have hd : DecodeInv form s := ⟨hs.outInStep, hs.withinBudget, hm⟩
  obtain ⟨o, ⟨hst, hp⟩ | hst⟩ := hs.stage
  · simp only [StageInv, hst]
    exact ⟨hf, hd, hp⟩
  · simp only [StageInv, hst]
    exact ⟨hf, hd⟩

theorem stageInv_idle {s : State} (h : s.stage = .idle) : StageInv s := by
  simp only [StageInv, h]

/-! ### The shared operations -/

/-- Where the loop ends the pointers are free. -/
theorem loopInv_endLoop {form : Form} {o : Origin} {s : State} (hst : s.stage = .decoding form o)
    (hout : OutInStep s) (hle : s.outlen.toNat ≤ s.declen.toNat) : LoopInv form (endLoop s) :=
  ⟨hout, hle, o, .inr (by rw [endLoop_stage, hst]; rfl)⟩

theorem loopInv_stop {form : Form} {o : Origin} {s : State} (f : Flag) (hst : s.stage = .decoding form o)
    (hout : OutInStep s) (hle : s.outlen.toNat ≤ s.declen.toNat) : LoopInv form (stop f s) :=
  loopInv_endLoop (s := setFlag f s) hst hout hle

/-- Adding to a 16-bit pointer does not carry it beyond the sum. -/
theorem advanceIp_ip_le (n : Nat) (s : State) : (advanceIp n s).ip.toNat ≤ s.ip.toNat + n := by
  have hn : (word16Of n).toNat ≤ n := by
    rw [word16Of, BitVec.toNat_ofNat]
    exact Nat.mod_le ..
  calc (s.ip + word16Of n).toNat
      ≤ s.ip.toNat + (word16Of n).toNat := by rw [BitVec.toNat_add]; exact Nat.mod_le ..
    _ ≤ s.ip.toNat + n := by omega

theorem LoopInv.advanceIp {n : Nat} {s : State} (hs : LoopInv .legacy s) (h : s.ip.toNat + n ≤ s.inlen.toNat) :
    LoopInv .legacy (advanceIp n s) := by
  refine ⟨hs.outInStep, hs.withinBudget, ?_⟩
  obtain ⟨o, ⟨hst, -, hlen⟩ | hst⟩ := hs.stage
  · exact ⟨o, .inl ⟨hst, (advanceIp_ip_le n s).trans h, hlen⟩⟩
  · exact ⟨o, .inr hst⟩

theorem LoopInv.append {form : Form} {v : Byte} {s : State} (hraw : form ≠ .raw) (hs : LoopInv form s)
    (hlt : s.outlen.toNat < s.declen.toNat) : LoopInv form (append v s) := by
  obtain ⟨hout, hle⟩ := append_inStep (v := v) hs.outInStep hlt
  refine ⟨hout, hle, ?_⟩
  cases form with
  | raw => exact absurd rfl hraw
  | legacy => exact hs.stage
  | modern => exact hs.stage

theorem reference_inStep {offset len : Nat} {s : State} (hout : OutInStep s)
    (hle : s.outlen.toNat ≤ s.declen.toNat) :
    OutInStep (reference offset len s) ∧
      (reference offset len s).outlen.toNat ≤ (reference offset len s).declen.toNat := by
  unfold reference
  split
  · exact ⟨hout, hle⟩
  · exact copy_inStep hout hle

theorem LoopInv.reference {form : Form} {offset len : Nat} {s : State} (hraw : form ≠ .raw) (hs : LoopInv form s) :
    LoopInv form (reference offset len s) := by
  obtain ⟨hout, hle⟩ := reference_inStep (offset := offset) (len := len) hs.outInStep hs.withinBudget
  refine ⟨hout, hle, ?_⟩
  rw [reference_frame]
  cases form with
  | raw => exact absurd rfl hraw
  | legacy => exact hs.stage
  | modern => exact hs.stage

theorem LoopInv.bitpos {p : BitIndex} {s : State} (hs : LoopInv .modern s) (hp : p.toNat ≤ 8 * s.inlen.toNat) :
    LoopInv .modern { s with bitpos := p } := by
  refine ⟨hs.outInStep, hs.withinBudget, ?_⟩
  obtain ⟨o, ⟨hst, -, hlen⟩ | hst⟩ := hs.stage
  · exact ⟨o, .inl ⟨hst, hp, hlen⟩⟩
  · exact ⟨o, .inr hst⟩

theorem LoopInv.literal {k v : Nat} {s : State} (hs : LoopInv .modern s) (hin : InToken .modern s) :
    LoopInv .modern (literal k v s) := by
  obtain ⟨⟨o, hst⟩, hlt⟩ := hin
  have hmtf : ∀ l, LoopInv .modern { s with mtf := l } := fun _ => ⟨hs.outInStep, hs.withinBudget, hs.stage⟩
  unfold Machine.literal
  split
  · exact loopInv_stop .clit hst hs.outInStep hs.withinBudget
  · dsimp only
    split
    · exact loopInv_stop .endmark hst hs.outInStep hs.withinBudget
    · exact (hmtf _).append nofun hlt

theorem ReadThen.loopInv {n : Nat} {k : State → State} {s t : State} (hs : LoopInv .modern s)
    (hin : InToken .modern s) (hk : ∀ u, LoopInv .modern u → InToken .modern u → LoopInv .modern (k u))
    (h : ReadThen n k s t) : LoopInv .modern t := by
  rcases h with ⟨-, rfl⟩ | ⟨hfits, rfl⟩
  · obtain ⟨o, hst⟩ := hin.1
    exact loopInv_stop .trunc hst hs.outInStep hs.withinBudget
  · exact hk _ (hs.bitpos ((Nat.mod_le ..).trans hfits)) hin

/-! ### One iteration -/

/-- A token that completes keeps the registers in step; a Legacy one is read from a byte ahead of `IP`. -/
theorem runToken_loopInv {form : Form} {i : Instr} {s t : State} (hs : LoopInv form s)
    (hahead : form = .legacy → s.ip.toNat < s.inlen.toNat) (h : runToken i s = .next t) : LoopInv form t := by
  obtain ⟨f, ⟨o, hst⟩, hlt⟩ := runToken_inToken h
  obtain ⟨rfl, -⟩ := hs.form_eq hst
  have hform : ∀ {g}, InToken g s → f = g := fun ⟨⟨_, hg⟩, _⟩ => (hs.form_eq hg).1.symm
  have htrunc : LoopInv f (stop .trunc s) := loopInv_stop .trunc hst hs.outInStep hs.withinBudget
  have href : ∀ {n offset len : Nat}, InToken .modern s → ReadThen n (reference offset len) s t → LoopInv f t := by
    intro n offset len hin hread
    cases hform hin
    exact hread.loopInv hs hin fun u hu _ => hu.reference nofun
  cases i with
  | lit code =>
    obtain ⟨hin, rfl⟩ := execLit_next h
    cases hform hin
    exact (hs.append (by decide) hlt).advanceIp (hahead rfl)
  | esc raw =>
    obtain ⟨hin, ⟨-, rfl⟩ | ⟨hip, rfl⟩⟩ := execEsc_next h
    · exact htrunc
    · cases hform hin
      exact (hs.append (by decide) hlt).advanceIp hip
  | bref offset len =>
    obtain ⟨hin, ⟨-, rfl⟩ | ⟨hip, rfl⟩⟩ := execBref_next h
    · exact htrunc
    · cases hform hin
      exact (hs.advanceIp hip).reference nofun
  | mlit k v =>
    obtain ⟨hin, hread⟩ := execMlit_next h
    cases hform hin
    exact hread.loopInv hs hin fun u hu hu' => hu.literal hu'
  | mbrefS offset len => exact href (execMbrefS_next h).1 (execMbrefS_next h).2
  | mbrefM offset len => exact href (execMbrefM_next h).1 (execMbrefM_next h).2
  | mbrefL offset len => exact href (execMbrefL_next h).1 (execMbrefL_next h).2
  | _ => cases h

/-- A Legacy token is decoded only where a byte is left (40 R101). -/
theorem fetchLegacy_run_ahead {s u : State} {i : Instr} (h : fetchLegacy s = .run i u) :
    s.ip.toNat < s.inlen.toNat := by
  by_contra hle
  have hnil : legacyAhead s = [] := by
    refine List.drop_eq_nil_of_le ?_
    rw [List.length_take]
    omega
  rw [fetchLegacy, hnil] at h
  cases h

theorem fetchToken_run_ahead {form : Form} {s u : State} {i : Instr} (h : fetchToken form s = .run i u)
    (hform : form = .legacy) : s.ip.toNat < s.inlen.toNat := by
  subst hform
  unfold fetchToken at h
  dsimp only at h
  split at h
  · exact fetchLegacy_run_ahead h
  · cases h

/-- A byte of a Raw decode (42 R172): `IP` and `OUTLEN` advance together. -/
theorem rawStep_loopInv {o : Origin} {s : State} (hs : LoopInv .raw s) (hst : s.stage = .decoding .raw o) :
    LoopInv .raw (rawStep s) := by
  obtain ⟨-, -, hlen, hip, hdec⟩ := hs.form_eq hst
  rcases rawStep_cases s with h | ⟨b, hlt, -, -, h⟩ <;> rw [h]
  · exact loopInv_endLoop hst hs.outInStep hs.withinBudget
  · have hbudget : s.outlen.toNat < s.declen.toNat := by rw [← hip, hdec]; exact hlt
    obtain ⟨hout, hle⟩ := append_inStep (v := b) hs.outInStep hbudget
    have hip' : s.ip + word16Of 1 = s.outlen + 1#16 := by rw [hip]; rfl
    exact ⟨hout, hle, o, .inl ⟨hst, (advanceIp_ip_le 1 (append b s)).trans hlt, hlen, hip', hdec⟩⟩

theorem fetchToken_act_loopInv {form : Form} {o : Origin} {s u : State} (hs : LoopInv form s)
    (hst : s.stage = .decoding form o) (h : fetchToken form s = .act u) : LoopInv form u := by
  rcases fetchToken_act_cases h with ⟨rfl, rfl⟩ | ⟨-, -, rfl⟩ | ⟨-, rfl⟩ | ⟨-, rfl⟩
  · exact rawStep_loopInv hs hst
  · exact loopInv_endLoop hst hs.outInStep hs.withinBudget
  · exact loopInv_stop .trunc hst hs.outInStep hs.withinBudget
  · exact loopInv_stop .trunc hst hs.outInStep hs.withinBudget

theorem decodeStep_loopInv {form : Form} {o : Origin} {s t : State} (hs : LoopInv form s)
    (hst : s.stage = .decoding form o) (h : decodeStep form s = .next t) : LoopInv form t := by
  unfold decodeStep at h
  split at h
  · next i u hf =>
    rw [fetchToken_run hf] at h
    exact runToken_loopInv hs (fetchToken_run_ahead hf) h
  · next u hf => cases h; exact fetchToken_act_loopInv hs hst hf
  · cases h

/-! ### The loop and the set-ups -/

theorem decodeLoop_loopInv {form : Form} {n : Nat} {s t : State} (hs : LoopInv form s)
    (h : decodeLoop n s = .next t) : LoopInv form t := by
  induction n generalizing s with
  | zero => cases h; exact hs
  | succ n ih =>
    unfold decodeLoop at h
    split at h
    · next f o hst =>
      obtain ⟨rfl, -⟩ := hs.form_eq hst
      obtain ⟨u, hu, ht⟩ := andThen_next_iff.1 h
      exact ih (decodeStep_loopInv hs hst hu) ht
    · cases h; exact hs
    · cases h; exact hs

theorem word16Of_toNat {n : Nat} (h : n ≤ bufferMax) : (word16Of n).toNat = n := by
  unfold bufferMax at h
  rw [word16Of, BitVec.toNat_ofNat]
  omega

/-- A set-up leaves an empty `OUT`, the input budget within the buffer and the pointer at the first token (40 R100, 41 R130,
42 R172). -/
theorem openDecode_loopInv (form : Form) (o : Origin) {buf : ByteString} (hbuf : buf.length ≤ bufferMax) (s : State) :
    LoopInv form (openDecode form o buf s) := by
  have hlen : (word16Of buf.length).toNat = buf.length := word16Of_toNat hbuf
  have hshort : ∀ u : State, u.stage = .decoding form o → u.out = [] → u.outlen = 0#16 →
      LoopInv form (stop .trunc u) := fun u hst hout h0 =>
    loopInv_stop .trunc hst (by simp [OutInStep, hout, h0]) (by simp [h0])
  cases form with
  | raw => exact ⟨rfl, Nat.zero_le _, o, .inl ⟨rfl, Nat.zero_le _, hlen, rfl, rfl⟩⟩
  | legacy =>
    unfold openDecode openLegacy
    dsimp only
    split
    · exact hshort _ rfl rfl rfl
    · next hge =>
      have hip : 8 ≤ (word16Of buf.length).toNat := by rw [hlen]; exact Nat.le_of_not_lt hge
      exact ⟨rfl, Nat.zero_le _, o, .inl ⟨rfl, hip, hlen⟩⟩
  | modern =>
    unfold openDecode openModern
    dsimp only
    split
    · exact hshort _ rfl rfl rfl
    · next hge =>
      have hbody : (word16Of (min (be16At buf 6) buf.length - hdrSize)).toNat + hdrSize ≤ buf.length := by
        rw [word16Of_toNat (by omega)]
        omega
      exact ⟨rfl, Nat.zero_le _, o, .inl ⟨rfl, Nat.zero_le _, hbody⟩⟩

theorem codeRegion_length_le (s : State) : (codeRegion s).length ≤ bufferMax := by
  rw [codeRegion, Memory.slice, List.length_map, List.length_range']
  decide

/-- The buffer of a `DECOMPRESS` that passes its preamble (10 R20, R24). -/
theorem sourceBuffer_length_le {src : Source} (h : src.wf = true) (s : State) :
    (sourceBuffer src s).2.length ≤ bufferMax := by
  cases src with
  | region => exact codeRegion_length_le s
  | host c => exact of_decide_eq_true h

/-- A `DECOMPRESS` that completes: its loop ends in step, in the form it detected, and not faulted. -/
theorem execDecompress_loop {src : Source} {s t : State} (h : execDecompress src s = .next t) :
    ∃ u form, t = closeDecode u ∧ LoopInv form u ∧ u.faulted = false ∧ u.cache = s.cache ∧
      form = detect s.cfg (sourceBuffer src s).2 ∧ u.mode = form.mode := by
  obtain ⟨⟨hf, hw⟩, u, hu, rfl⟩ := execDecompress_next h
  have hloop := decodeLoop_loopInv (openDecode_loopInv _ _ (sourceBuffer_length_le hw s.cleared) _) hu
  have hframe : TokenFrame _ u := decodeLoop_frame hu
  rw [beginDecompress, openDecode_frame] at hframe
  refine ⟨u, _, rfl, hloop, ?_, ?_, rfl, ?_⟩
  · rw [hframe]; exact hf
  · rw [hframe]; rfl
  · rw [hframe]

end Sys2Proof.Machine
end

section
/-! SUPPORT. What the steps write into `CACHE` is at most 65535 bytes, a long code section apart (10_state.md R31;
42_detect_and_best.md R174; 44_text_sections.md R241). -/

namespace Sys2Proof.Machine

open Sys2Proof

theorem deleteFirst_length_le (p s : ByteString) : (deleteFirst p s).length ≤ s.length := by
  induction s with
  | nil => exact Nat.le_refl _
  | cons b bs ih =>
    unfold deleteFirst
    split
    · rw [List.length_drop]; exact Nat.sub_le ..
    · exact Nat.succ_le_succ ih

/-- Post-processing never makes `OUT` longer (40 R106). -/
theorem postProcess_out_length_le (form : Form) (s : State) : (postProcess form s).out.length ≤ s.out.length := by
  cases form with
  | legacy =>
    unfold postProcess dropSnippet
    dsimp only
    split
    · exact deleteFirst_length_le ..
    · exact Nat.le_refl _
  | modern => exact Nat.le_refl _
  | raw => exact Nat.le_refl _

theorem finishDecode_cache_le (form : Form) (o : Origin) {s : State} (hout : s.out.length ≤ bufferMax)
    (hc : s.cache.length ≤ bufferMax) : (finishDecode form o s).cache.length ≤ bufferMax := by
  cases o with
  | region => exact (postProcess_out_length_le form s).trans hout
  | host =>
    show (postProcess form s).cache.length ≤ bufferMax
    rw [postProcess_frame]
    exact hc

theorem closeDecode_cache_le {s : State} (hout : s.out.length ≤ bufferMax) (hc : s.cache.length ≤ bufferMax) :
    (closeDecode s).cache.length ≤ bufferMax := by
  rcases closeDecode_cases s with h | ⟨form, o, -, h⟩ <;> rw [h]
  · exact hc
  · exact finishDecode_cache_le form o hout hc

theorem decodeRegion_out_length_le {s t : State} (h : decodeRegion s = .next t) : t.out.length ≤ bufferMax := by
  obtain ⟨u, hu, ht⟩ := andThen_next_iff.1 h
  cases ht
  have hloop := decodeLoop_loopInv (openDecode_loopInv _ .region (codeRegion_length_le s) s) hu
  exact (postProcess_out_length_le _ u).trans hloop.out_length_le

theorem SourceFrom.length_le {s u : State} {src : ByteString} (h : SourceFrom s src u)
    (hc : s.cache.length ≤ bufferMax) : src.length ≤ bufferMax := by
  rcases h with ⟨-, rfl, -⟩ | ⟨-, hu, rfl⟩
  · exact hc
  · exact decodeRegion_out_length_le hu

/-- The sections leave the cache that stood, or a code section (44 R241). -/
theorem applySections_cache_le {secs : List (SectionKind × ByteString)} {s : State}
    (hsecs : ∀ content, (SectionKind.code, content) ∈ secs → content.length ≤ bufferMax)
    (hc : s.cache.length ≤ bufferMax) : (applySections secs s).cache.length ≤ bufferMax := by
  induction secs generalizing s with
  | nil => exact hc
  | cons sec secs ih =>
    obtain ⟨k, content⟩ := sec
    refine ih (fun c h => hsecs c (List.mem_cons_of_mem _ h)) ?_
    by_cases hk : k = .code
    · subst hk
      exact hsecs content List.mem_cons_self
    · rw [(applySection_cache hk content s).1]
      exact hc

/-- Every instruction but a `TEXT_PARSE` of a longer code section keeps the bound. -/
theorem exec_cache_le {i : Instr} {s t : State} (h : exec i s = .next t) (hc : s.cache.length ≤ bufferMax)
    (hshort : ∀ text content, i = .textParse text →
      (SectionKind.code, content) ∈ (splitSections s.cfg (rawLines text)).2 → content.length ≤ bufferMax) :
    t.cache.length ≤ bufferMax := by
  have hsame : ∀ {u : State}, u.cache = s.cache → u.cache.length ≤ bufferMax := fun hu => hu ▸ hc
  cases i with
  | lit _ | esc _ | bref _ _ | mlit _ _ | mbrefS _ _ | mbrefM _ _ | mbrefL _ _ =>
    have hframe := exec_token_frame (by simp [Instr.stream]) h
    exact hsame (by rw [hframe])
  | decompress src =>
    obtain ⟨u, form, rfl, hloop, -, hcache, -⟩ := execDecompress_loop h
    exact closeDecode_cache_le hloop.out_length_le (hsame hcache)
  | compressLegacy src =>
    obtain ⟨-, -, _, rfl, rfl⟩ := execCompressLegacy_next h
    exact hsame (by rw [respond_cache, flagOversize_cache]; rfl)
  | compressModern src =>
    obtain ⟨-, -, -, _, rfl, rfl⟩ := execCompressModern_next h
    exact hsame (by rw [respond_cache, flagOversize_cache]; rfl)
  | compressBest src =>
    obtain ⟨-, -, -, _, rfl, rfl⟩ := execCompressBest_next h
    exact hsame (by rw [respond_cache, flagOversize_cache]; rfl)
  | romRead a => obtain ⟨-, ⟨-, rfl⟩ | ⟨-, rfl⟩⟩ := execRomRead_next h <;> exact hc
  | romWrite a v => obtain ⟨-, ⟨-, rfl⟩ | ⟨-, rfl⟩⟩ := execRomWrite_next h <;> exact hc
  | labelRead a => obtain ⟨-, ⟨-, rfl⟩ | ⟨-, rfl⟩⟩ := execLabelRead_next h <;> exact hc
  | labelWrite a v => obtain ⟨-, ⟨-, rfl⟩ | ⟨-, rfl⟩⟩ := execLabelWrite_next h <;> exact hc
  | romClear => obtain ⟨-, rfl⟩ := execRomClear_next h; exact hc
  | binAssemble ver =>
    obtain ⟨-, src, u, -, hle, -, _, rfl, rfl⟩ := execBinAssemble_next h
    rw [respond_cache, flagOversize_cache]
    exact hle.trans (by decide)
  | pngUnpack w h p => obtain ⟨-, -, ⟨-, rfl⟩ | ⟨-, rfl⟩⟩ := execPngUnpack_next h <;> exact hc
  | pngPack w h p ver => obtain ⟨-, -, ⟨-, rfl⟩ | ⟨-, rfl⟩⟩ := execPngPack_next h <;> exact hc
  | textParse text =>
    obtain ⟨-, ⟨-, rfl⟩ | ⟨-, _, rfl, rfl⟩⟩ := execTextParse_next h
    · exact hc
    · exact applySections_cache_le (fun content => hshort text content rfl) (Nat.zero_le _)
  | textSerialize ver =>
    obtain ⟨-, src, u, hsrc, _, rfl, rfl⟩ := execTextSerialize_next h
    exact hsrc.length_le hc

/-- A step but a `TEXT_PARSE` of a longer code section keeps the bound. -/
theorem step_cache_le {s t : State} (hs : StageInv s) (h : step s = .next t) (hlong : ¬ ParsesLongCode s)
    (hc : s.cache.length ≤ bufferMax) : t.cache.length ≤ bufferMax := by
  rcases step_next h with ⟨form, o, -, h⟩ | ⟨form, o, hst, rfl⟩ | ⟨-, -, rfl⟩ | ⟨rest, -, -, rfl⟩ |
    ⟨msg, rest, i, hst, hp, -, hd, h⟩
  · rw [decodeStep_frame h]
    exact hc
  · obtain ⟨-, -, hloop⟩ := stageInv_of_ended hst hs
    exact finishDecode_cache_le form o hloop.out_length_le hc
  · exact hc
  · exact Nat.zero_le _
  · refine exec_cache_le h hc fun text content hi hmem => ?_
    by_contra hgt
    exact hlong ⟨hst, msg, rest, text, content, hp, hi ▸ hd, hmem, Nat.lt_of_not_le hgt⟩

end Sys2Proof.Machine
end

section
/-! SUPPORT. The family of 10_state.md: `MODE`, the invariant of the machine's states, reset. -/

namespace Sys2Proof.Machine

open Sys2Proof

/-! ### The invariant -/

theorem closeDecode_stageInv {form : Form} {s : State} (hs : LoopInv form s) (hf : s.faulted = false)
    (hm : s.mode = form.mode) : StageInv (closeDecode s) := by
  rcases closeDecode_cases s with h | ⟨f, o, -, h⟩ <;> rw [h]
  · exact hs.stageInv hf hm
  · exact stageInv_idle rfl

/-- An instruction run by the idle engine: no token completes there, a `DECOMPRESS` ends in step, and every other command leaves
the engine idle. -/
theorem exec_stageInv {i : Instr} {s t : State} (hst : s.stage = .idle) (h : exec i s = .next t) : StageInv t := by
  cases i with
  | lit _ | esc _ | bref _ _ | mlit _ _ | mbrefS _ _ | mbrefM _ _ | mbrefL _ _ =>
    obtain ⟨form, ⟨o, ho⟩, -⟩ := runToken_inToken (runToken_of_exec (by simp [Instr.stream]) h)
    rw [hst] at ho
    cases ho
  | decompress src =>
    obtain ⟨u, form, rfl, hloop, hf, -, -, hm⟩ := execDecompress_loop h
    exact closeDecode_stageInv hloop hf hm
  | compressLegacy src =>
    obtain ⟨-, -, _, rfl, rfl⟩ := execCompressLegacy_next h
    exact stageInv_idle (by rw [respond_stage, flagOversize_stage]; exact hst)
  | compressModern src =>
    obtain ⟨-, -, -, _, rfl, rfl⟩ := execCompressModern_next h
    exact stageInv_idle (by rw [respond_stage, flagOversize_stage]; exact hst)
  | compressBest src =>
    obtain ⟨-, -, -, _, rfl, rfl⟩ := execCompressBest_next h
    exact stageInv_idle (by rw [respond_stage, flagOversize_stage]; exact hst)
  | romRead _ | romWrite _ _ | labelRead _ | labelWrite _ _ | romClear | binAssemble _ | pngUnpack _ _ _
  | pngPack _ _ _ _ | textParse _ | textSerialize _ => exact stageInv_idle ((exec_steady rfl h).stage.trans hst)

theorem step_stageInv {s t : State} (hs : StageInv s) (h : step s = .next t) : StageInv t := by
  rcases step_next h with ⟨form, o, hst, h⟩ | ⟨form, o, -, rfl⟩ | ⟨-, -, rfl⟩ | ⟨rest, -, -, rfl⟩ |
    ⟨msg, rest, i, hst, -, -, -, h⟩
  · obtain ⟨hf, hm, hloop⟩ := stageInv_of_decoding hst hs
    refine (decodeStep_loopInv hloop hst h).stageInv ?_ ?_ <;> rw [decodeStep_frame h]
    · exact hf
    · exact hm
  · exact stageInv_idle rfl
  · exact hs
  · exact stageInv_idle rfl
  · exact exec_stageInv (s := { s with port := rest }) hst h

/-- The invariant, from what `Keeps` keeps and the stage. -/
theorem State.Inv.of_keeps {s t : State} (hs : s.Inv) (hk : Keeps s t) (hstage : StageInv t) : t.Inv := by
  obtain ⟨hrom, hromBelow⟩ := hk.rom ⟨hs.romWf, hs.romBelow⟩
  obtain ⟨hlabel, hlabelBelow⟩ := hk.label ⟨hs.labelWf, hs.labelBelow⟩
  obtain ⟨hlegal, hfaulted⟩ := hk.cause ⟨hs.causeLegal, hs.causeFaulted⟩
  exact ⟨hrom, hromBelow, hlabel, hlabelBelow, hk.mtf hs.mtfPerm, hk.status hs.statusReserved, hlegal, hfaulted, hstage⟩

/-- Settles O54: the parts of the invariant that do not depend on the stage are kept one by one (`step_keeps`), the decode
registers stay in step through the loop (`LoopInv`), and the cache takes nothing longer than `OUT`, `S_MAX` or a code section. -/
theorem stepKeepsTheInvariant : Obligations.StepKeepsTheInvariant := by
  intro s t hs h
  refine ⟨hs.of_keeps (step_keeps h) (step_stageInv hs.stageInv h), fun hc => ?_⟩
  by_cases hlong : ParsesLongCode s
  · exact .inr hlong
  · exact .inl (step_cache_le hs.stageInv h hlong hc)

/-! ### `MODE` -/

/-- An instruction that writes no `MODE`: a token or a quiet command. -/
theorem exec_mode {i : Instr} {s t : State} (hi : i.stream ≠ .command ∨ quietCommand i = true)
    (h : exec i s = .next t) : t.mode = s.mode := by
  rcases hi with hi | hi
  · have hframe := exec_token_frame hi h
    rw [hframe]
  · exact (exec_steady hi h).mode

/-- Settles O57: the four codec commands by what they leave, every other instruction by its frame. -/
theorem modeIsWrittenByTheCodecCommands : Obligations.ModeIsWrittenByTheCodecCommands := by
  refine ⟨⟨rfl, rfl, rfl, rfl⟩, fun i s t h => ⟨?_, ?_, ?_, ?_, ?_⟩⟩
  · rintro src rfl
    obtain ⟨u, form, rfl, -, -, -, rfl, hm⟩ := execDecompress_loop h
    rw [closeDecode_mode, hm]
  · rintro src rfl
    obtain ⟨-, -, _, rfl, rfl⟩ := execCompressLegacy_next h
    rw [respond_mode, flagOversize_mode]
  · rintro src rfl
    obtain ⟨-, -, -, _, rfl, rfl⟩ := execCompressModern_next h
    rw [respond_mode, flagOversize_mode]
  · rintro src rfl
    obtain ⟨-, -, -, _, rfl, rfl⟩ := execCompressBest_next h
    rw [respond_mode, flagOversize_mode, respond_results, flagOversize_results]
    exact ⟨rfl, _, rfl⟩
  · intro hd hl hm hb
    refine exec_mode ?_ h
    cases i with
    | decompress src => exact absurd rfl (hd src)
    | compressLegacy src => exact absurd rfl (hl src)
    | compressModern src => exact absurd rfl (hm src)
    | compressBest src => exact absurd rfl (hb src)
    | lit _ | esc _ | bref _ _ | mlit _ _ | mbrefS _ _ | mbrefM _ _ | mbrefL _ _ =>
      exact .inl (by simp [Instr.stream])
    | romRead _ | romWrite _ _ | labelRead _ | labelWrite _ _ | romClear | binAssemble _ | pngUnpack _ _ _
    | pngPack _ _ _ _ | textParse _ | textSerialize _ => exact .inr rfl

/-! ### Reset -/

theorem reset_inv : State.reset.Inv :=
  ⟨rfl, rfl, rfl, rfl, List.Perm.refl _, rfl, by decide, by decide, stageInv_idle rfl⟩

theorem identityMtf_getElem? {i : Nat} (h : i < 256) : identityMtf[i]? = some (byteOf i) := by
  rw [identityMtf, List.getElem?_map, List.getElem?_range h]
  rfl

/-- The reset event of an idle engine (70 R290). -/
theorem step_of_reset {s : State} {rest : List HostEvent} (hst : s.stage = .idle) (hp : s.port = .reset :: rest) :
    step s = .next (hostReset { s with port := rest }) := by
  unfold step fetch
  simp only [hst, hp]

/-- Settles O53: the reset values, and the event by the step it is. -/
theorem resetStateAndInvariant : Obligations.ResetStateAndInvariant :=
  ⟨reset_inv, fun _ => ⟨rfl, rfl⟩, rfl, rfl, rfl, rfl, rfl, rfl, rfl, rfl, rfl, rfl, rfl, rfl,
    fun _ => identityMtf_getElem?, rfl, rfl, fun _ _ => step_of_reset⟩

end Sys2Proof.Machine
end

section
/-! SUPPORT. The typed views of the ROM share their bytes (20_memory.md R47; 43_rom_serializer.md R205, R206). -/

namespace Sys2Proof.Machine

open Sys2Proof

/-- The two pixels of a byte are its nibbles, the left one low (43 R206). -/
theorem toNat_eq_pixelNibbles (b : Byte) (k : Nat) :
    b.toNat = (pixelNibble b (2 * k)).toNat + 16 * (pixelNibble b (2 * k + 1)).toNat := by
  have hlow : (pixelNibble b (2 * k)).toNat = b.toNat % 16 := by
    rw [pixelNibble, if_pos (Nat.mul_mod_right 2 k), BitVec.extractLsb'_toNat, Nat.shiftRight_zero]
  have hhigh : (pixelNibble b (2 * k + 1)).toNat = b.toNat / 16 % 16 := by
    rw [pixelNibble, if_neg (by omega), BitVec.extractLsb'_toNat, Nat.shiftRight_eq_div_pow]
  have hbyte : b.toNat < 256 := b.isLt
  omega

/-- A byte of the gfx row `y` is the pixel pair at it (43 R205, R206). -/
theorem gfxPixel_pair (s : State) (k y : Nat) :
    (gfxPixel s (2 * k) y).toNat + 16 * (gfxPixel s (2 * k + 1) y).toNat =
      (s.rom.read (gfxBase + y * 64 + k)).toNat := by
  have hodd : (2 * k + 1) / 2 = k := by omega
  rw [gfxPixel, gfxPixel, Nat.mul_div_cancel_left k (by decide), hodd]
  exact (toNat_eq_pixelNibbles _ k).symm

/-- A map2 row of 128 tiles is two gfx rows of 64 bytes, from gfx row 64 on (20 R47). -/
theorem map2_address (tx row : Nat) :
    map2Base + row * 128 + tx = gfxBase + (64 + 2 * row + tx / 64) * 64 + tx % 64 := by
  unfold map2Base gfxBase
  omega

/-- Settles O22: both views read the byte at the one address, and a byte is its pixel pair. -/
theorem map2TilesAreGfxPixels : Obligations.Map2TilesAreGfxPixels := by
  intro s tx ty _ hty _
  rw [gfxPixel_pair, mapTile, if_neg (Nat.not_lt.mpr hty), map2_address]

end Sys2Proof.Machine
end

section
/-! SUPPORT. The Legacy tokens: the decoder reads exactly the encodings of the well-formed tokens (30_encoding.md R70 to R73;
40_legacy_codec.md R113). -/

namespace Sys2Proof

/-! ### Bytes of numbers -/

theorem byteOf_toNat_of_lt {n : Nat} (h : n < 256) : (byteOf n).toNat = n := by
  rw [byteOf, BitVec.toNat_ofNat, Nat.mod_eq_of_lt h]

@[simp] theorem byteOf_toNat (b : Byte) : byteOf b.toNat = b := BitVec.ofNat_toNat ..

theorem byteOf_eq_of_toNat {n : Nat} {b : Byte} (h : n = b.toNat) : byteOf n = b := by
  rw [h, byteOf_toNat]

/-! ### The token formats -/

theorem wf_lit_iff {code : Nat} : (Instr.lit code).wf = true ↔ 1 ≤ code ∧ code ≤ 59 := by
  simp [Instr.wf]

theorem wf_bref_iff {offset len : Nat} :
    (Instr.bref offset len).wf = true ↔ offset ≤ 3135 ∧ 2 ≤ len ∧ len ≤ 17 := by
  simp [Instr.wf, and_assoc]

theorem decodeLegacy_lit {code : Nat} {rest : ByteString} (h : 1 ≤ code) (h' : code ≤ 59) :
    decodeLegacy (byteOf code :: rest) = .ok (.lit code, rest) := by
  have hcode : (byteOf code).toNat = code := byteOf_toNat_of_lt (by omega)
  have hne : byteOf code ≠ 0#8 := fun h0 => by rw [h0] at hcode; simp at hcode; omega
  unfold decodeLegacy
  simp only [hne, hcode, h', if_true, if_false]

theorem decodeLegacy_bref {b0 b1 : Byte} {rest : ByteString} (h : 0x3c ≤ b0.toNat) :
    decodeLegacy (b0 :: b1 :: rest) =
      .ok (.bref ((b0.toNat - 0x3c) * 16 + b1.toNat % 16) (b1.toNat / 16 + 2), rest) := by
  have hne : b0 ≠ 0#8 := fun h0 => by rw [h0] at h; simp at h
  rw [decodeLegacy, if_neg hne, if_neg (by omega)]

/-- The decoder reads back the encoding of a well-formed token (R113). -/
theorem decodeLegacy_encodeLegacy {i : Instr} (rest : ByteString) (hs : i.stream = .legacy) (hw : i.wf = true) :
    decodeLegacy (encodeLegacy i ++ rest) = .ok (i, rest) := by
  cases i with
  | lit code =>
    obtain ⟨hlo, hhi⟩ := wf_lit_iff.1 hw
    exact decodeLegacy_lit hlo hhi
  | esc raw => rfl
  | bref offset len =>
    obtain ⟨hoff, hlo, hhi⟩ := wf_bref_iff.1 hw
    have h0 : (byteOf (0x3c + offset / 16)).toNat = 0x3c + offset / 16 := byteOf_toNat_of_lt (by omega)
    have h1 : (byteOf ((len - 2) * 16 + offset % 16)).toNat = (len - 2) * 16 + offset % 16 :=
      byteOf_toNat_of_lt (by omega)
    show decodeLegacy (_ :: _ :: rest) = _
    rw [decodeLegacy_bref (by omega), h0, h1]
    congr 3 <;> omega
  | _ => cases hs

/-- What the decoder reads is a well-formed token, and its bytes are the bytes read (R73). -/
theorem decodeLegacy_sound {bs rest : ByteString} {i : Instr} (h : decodeLegacy bs = .ok (i, rest)) :
    i.stream = .legacy ∧ i.wf = true ∧ encodeLegacy i ++ rest = bs := by
  unfold decodeLegacy at h
  split at h
  · cases h
  next b0 tail =>
  split at h
  case isTrue hzero =>
    split at h <;> cases h
    exact ⟨rfl, rfl, by rw [hzero]; rfl⟩
  case isFalse hzero =>
  have hpos : b0.toNat ≠ 0 := fun h0 => hzero (BitVec.eq_of_toNat_eq h0)
  split at h
  case isTrue hle =>
    cases h
    exact ⟨rfl, wf_lit_iff.2 ⟨by omega, hle⟩, by simp [encodeLegacy]⟩
  case isFalse hgt =>
  split at h <;> cases h
  next b1 =>
  have hb0 := b0.isLt
  have hb1 := b1.isLt
  refine ⟨rfl, wf_bref_iff.2 (by omega), ?_⟩
  show _ :: _ :: rest = _
  rw [byteOf_eq_of_toNat (b := b0) (by omega), byteOf_eq_of_toNat (b := b1) (by omega)]

/-- Settles O1: the decoder reads back every encoding, and reads nothing else. -/
theorem legacyEncodingIsOneToOne : Obligations.LegacyEncodingIsOneToOne :=
  ⟨fun _ rest => decodeLegacy_encodeLegacy rest, fun _ _ _ => decodeLegacy_sound⟩

end Sys2Proof
end

section
/-! SUPPORT. The Modern tokens: the readers of fields, unary counts and length groups read exactly what the writers write, and so
the decoder reads exactly the encodings of the well-formed tokens (30_encoding.md R74 to R82; 41_modern_codec.md R132, R134,
R141, R155). -/

namespace Sys2Proof

/-! ### Fields -/

theorem readField_cons (n : Nat) (b : Bool) (bits : List Bool) :
    readField (n + 1) (b :: bits) = (readField n bits).map fun r => (b.toNat + 2 * r.1, r.2) := by
  rw [readField]
  cases readField n bits <;> rfl

/-- `GetBits(n)` reads `v` exactly where the `n` bits of `v` stand (41 R132, R134). -/
theorem readField_eq_some_iff {n v : Nat} {bits rest : List Bool} :
    readField n bits = some (v, rest) ↔ v < 2 ^ n ∧ bitsOfNat n v ++ rest = bits := by
  induction n generalizing v bits with
  | zero => simp [readField, bitsOfNat, eq_comm]
  | succ n ih =>
    cases bits with
    | nil => simp [readField, bitsOfNat]
    | cons b bits =>
      simp only [readField_cons, Option.map_eq_some_iff, Prod.exists, Prod.mk.injEq, bitsOfNat, List.cons_append,
        List.cons.injEq]
      constructor
      · rintro ⟨u, _, hread, rfl, rfl⟩
        obtain ⟨hlt, hbits⟩ := ih.1 hread
        have hb := Bool.toNat_lt b
        have hu : (b.toNat + 2 * u) / 2 = u := by omega
        exact ⟨by omega, by cases b <;> simp, by rw [hu, hbits]⟩
      · rintro ⟨hlt, rfl, hbits⟩
        refine ⟨v / 2, rest, ih.2 ⟨by omega, hbits⟩, ?_, rfl⟩
        rcases Nat.mod_two_eq_zero_or_one v with h | h <;> simp [h] <;> omega

/-! ### Unary counts -/

theorem readUnary_true (m : Nat) (bits : List Bool) :
    readUnary (m + 1) (true :: bits) = (readUnary m bits).map fun r => (r.1 + 1, r.2) := by
  rw [readUnary]
  cases readUnary m bits <;> rfl

/-- The unary reader reads `k` ones and their terminator, or the limit of `m` ones without one (R76; 41 R141). -/
theorem readUnary_eq_some_iff {m k : Nat} {bits rest : List Bool} :
    readUnary m bits = some (k, rest) ↔
      k < m ∧ List.replicate k true ++ false :: rest = bits ∨ k = m ∧ List.replicate m true ++ rest = bits := by
  induction m generalizing k bits with
  | zero => simp [readUnary, eq_comm]
  | succ m ih =>
    cases bits with
    | nil => simp [readUnary, List.replicate_succ]
    | cons b bits =>
      cases b with
      | false => cases k <;> simp [readUnary, List.replicate_succ, eq_comm]
      | true =>
        rw [readUnary_true]
        cases k <;> simp [ih, List.replicate_succ]

/-! ### Length groups -/

theorem groupBits_of_lt {t : Nat} (h : t < 7) : groupBits t = bitsOfNat 3 t := by
  rw [groupBits, Nat.div_eq_of_lt h, Nat.mod_eq_of_lt h]
  rfl

theorem groupBits_seven_add (t : Nat) : groupBits (7 + t) = true :: true :: true :: groupBits t := by
  have hdiv : 3 * ((7 + t) / 7) = 3 * (t / 7) + 1 + 1 + 1 := by omega
  have hmod : (7 + t) % 7 = t % 7 := by omega
  rw [groupBits, hdiv, hmod]
  rfl

theorem readGroups_seven (bits : List Bool) :
    readGroups (true :: true :: true :: bits) = (readGroups bits).map fun r => (7 + r.1, r.2) := by
  rw [readGroups]
  cases readGroups bits <;> rfl

theorem readGroups_of_lt {t : Nat} (h : t < 7) (rest : List Bool) : readGroups (bitsOfNat 3 t ++ rest) = some (t, rest) := by
  interval_cases t <;> rfl

theorem readGroups_groupBits (t : Nat) (rest : List Bool) : readGroups (groupBits t ++ rest) = some (t, rest) := by
  induction t using Nat.strong_induction_on with
  | _ t ih =>
    by_cases h : t < 7
    · rw [groupBits_of_lt h, readGroups_of_lt h]
    · obtain ⟨u, rfl⟩ := Nat.exists_eq_add_of_le (Nat.le_of_not_lt h)
      rw [groupBits_seven_add]
      show readGroups (true :: true :: true :: (groupBits u ++ rest)) = _
      rw [readGroups_seven, ih u (by omega)]
      rfl

/-- Three bits are a group of seven, or the bits of a number below it. -/
theorem three_bits_cases (a b c : Bool) :
    (a = true ∧ b = true ∧ c = true) ∨ ∃ g < 7, bitsOfNat 3 g = [a, b, c] := by
  revert a b c
  decide

theorem groupBits_of_readGroups {t : Nat} {bits rest : List Bool} (h : readGroups bits = some (t, rest)) :
    groupBits t ++ rest = bits := by
  match bits with
  | a :: b :: c :: tail =>
    rcases three_bits_cases a b c with ⟨rfl, rfl, rfl⟩ | ⟨g, hg, hbits⟩
    · rw [readGroups_seven] at h
      obtain ⟨⟨u, _⟩, hu, he⟩ := Option.map_eq_some_iff.1 h
      cases he
      rw [groupBits_seven_add, List.cons_append, List.cons_append, List.cons_append, groupBits_of_readGroups hu]
    · have hsplit : a :: b :: c :: tail = bitsOfNat 3 g ++ tail := by rw [hbits]; rfl
      rw [hsplit, readGroups_of_lt hg] at h
      cases h
      rw [hsplit, groupBits_of_lt hg]

/-! ### Token formats -/

theorem wf_mlit_iff {k v : Nat} : (Instr.mlit k v).wf = true ↔ k ≤ 4 ∧ v < 2 ^ (4 + k) ∨ k = 5 ∧ v = 0 := by
  simp [Instr.wf]

theorem wf_mbrefS_iff {offset len : Nat} :
    (Instr.mbrefS offset len).wf = true ↔ 1 ≤ offset ∧ offset ≤ 2 ^ 5 ∧ 3 ≤ len := by
  simp [Instr.wf, and_assoc]

theorem wf_mbrefM_iff {offset len : Nat} :
    (Instr.mbrefM offset len).wf = true ↔ 1 ≤ offset ∧ offset ≤ 2 ^ 10 ∧ 3 ≤ len := by
  simp [Instr.wf, and_assoc]

theorem wf_mbrefL_iff {offset len : Nat} :
    (Instr.mbrefL offset len).wf = true ↔ 1 ≤ offset ∧ offset ≤ 2 ^ 15 ∧ 3 ≤ len := by
  simp [Instr.wf, and_assoc]

theorem encodeModern_mlit_of_le {k : Nat} (h : k ≤ 4) (v : Nat) (rest : List Bool) :
    encodeModern (.mlit k v) ++ rest = true :: (List.replicate k true ++ false :: (bitsOfNat (4 + k) v ++ rest)) := by
  simp [encodeModern, show k ≠ 5 by omega]

/-- A literal code is read back (R76, R82). -/
theorem decodeModern_encodeModern_mlit {k v : Nat} (rest : List Bool) (hw : (Instr.mlit k v).wf = true) :
    decodeModern (encodeModern (.mlit k v) ++ rest) = .ok (.mlit k v, rest) := by
  rcases wf_mlit_iff.1 hw with ⟨hk, hv⟩ | ⟨rfl, rfl⟩
  · have hunary : readUnary 5 (List.replicate k true ++ false :: (bitsOfNat (4 + k) v ++ rest)) =
        some (k, bitsOfNat (4 + k) v ++ rest) := readUnary_eq_some_iff.2 (.inl ⟨by omega, rfl⟩)
    have hfield : readField (4 + k) (bitsOfNat (4 + k) v ++ rest) = some (v, rest) :=
      readField_eq_some_iff.2 ⟨hv, rfl⟩
    have hne : k ≠ 5 := by omega
    simp only [encodeModern_mlit_of_le hk, decodeModern, decodeLiteral, hunary, hfield, hne, if_false]
  · rfl

/-- What is read after the kind bit of a literal code is its code (R76, R82). -/
theorem decodeLiteral_sound {i : Instr} {bits rest : List Bool} (h : decodeLiteral bits = .ok (i, rest)) :
    i.stream = .modern ∧ i.wf = true ∧ encodeModern i ++ rest = true :: bits := by
  unfold decodeLiteral at h
  split at h
  · cases h
  next k tail hunary =>
  rcases readUnary_eq_some_iff.1 hunary with ⟨hlt, rfl⟩ | ⟨rfl, rfl⟩
  · rw [if_neg (by omega)] at h
    split at h <;> cases h
    next v hfield =>
    obtain ⟨hv, rfl⟩ := readField_eq_some_iff.1 hfield
    exact ⟨rfl, wf_mlit_iff.2 (.inl ⟨by omega, hv⟩), encodeModern_mlit_of_le (by omega) v rest⟩
  · cases h
    exact ⟨rfl, rfl, rfl⟩

/-- A back-reference after its kind bits is read back: an offset field of `n` bits and the length groups (R78, R79). -/
theorem decodeReference_append {n offset len : Nat} (rest : List Bool) (h : 1 ≤ offset ∧ offset ≤ 2 ^ n ∧ 3 ≤ len) :
    decodeReference n (bitsOfNat n (offset - 1) ++ groupBits (len - 3) ++ rest) = .ok (offset, len, rest) := by
  obtain ⟨hlo, hhi, hlen⟩ := h
  have hfield : readField n (bitsOfNat n (offset - 1) ++ (groupBits (len - 3) ++ rest)) =
      some (offset - 1, groupBits (len - 3) ++ rest) := readField_eq_some_iff.2 ⟨by omega, rfl⟩
  simp only [decodeReference, List.append_assoc, hfield, readGroups_groupBits, Nat.sub_add_cancel hlo,
    Nat.add_sub_cancel' hlen]

theorem decodeReference_sound {n offset len : Nat} {bits rest : List Bool}
    (h : decodeReference n bits = .ok (offset, len, rest)) :
    (1 ≤ offset ∧ offset ≤ 2 ^ n ∧ 3 ≤ len) ∧ bitsOfNat n (offset - 1) ++ groupBits (len - 3) ++ rest = bits := by
  unfold decodeReference at h
  split at h
  · cases h
  next o tail hfield =>
  split at h <;> cases h
  next t hgroups =>
  obtain ⟨hlt, rfl⟩ := readField_eq_some_iff.1 hfield
  rw [← groupBits_of_readGroups hgroups, Nat.add_sub_cancel, Nat.add_sub_cancel_left, List.append_assoc]
  exact ⟨⟨by omega, by omega, by omega⟩, rfl⟩

/-- The decoder reads back the encoding of a well-formed token (41 R154, R155). -/
theorem decodeModern_encodeModern {i : Instr} (rest : List Bool) (hs : i.stream = .modern) (hw : i.wf = true) :
    decodeModern (encodeModern i ++ rest) = .ok (i, rest) := by
  cases i with
  | mlit k v => exact decodeModern_encodeModern_mlit rest hw
  | mbrefS offset len =>
    simp only [encodeModern, List.cons_append, List.nil_append, decodeModern,
      decodeReference_append rest (wf_mbrefS_iff.1 hw)]
  | mbrefM offset len =>
    simp only [encodeModern, List.cons_append, List.nil_append, decodeModern,
      decodeReference_append rest (wf_mbrefM_iff.1 hw)]
  | mbrefL offset len =>
    simp only [encodeModern, List.cons_append, List.nil_append, decodeModern,
      decodeReference_append rest (wf_mbrefL_iff.1 hw)]
  | _ => cases hs

/-- What the decoder reads is a well-formed token, and its bits are the bits read (R80). -/
theorem decodeModern_sound {i : Instr} {bits rest : List Bool} (h : decodeModern bits = .ok (i, rest)) :
    i.stream = .modern ∧ i.wf = true ∧ encodeModern i ++ rest = bits := by
  unfold decodeModern at h
  split at h
  · exact decodeLiteral_sound h
  · split at h <;> cases h
    next href =>
    obtain ⟨hw, rfl⟩ := decodeReference_sound href
    exact ⟨rfl, wf_mbrefS_iff.2 hw, rfl⟩
  · split at h <;> cases h
    next href =>
    obtain ⟨hw, rfl⟩ := decodeReference_sound href
    exact ⟨rfl, wf_mbrefM_iff.2 hw, rfl⟩
  · split at h <;> cases h
    next href =>
    obtain ⟨hw, rfl⟩ := decodeReference_sound href
    exact ⟨rfl, wf_mbrefL_iff.2 hw, rfl⟩
  · cases h

/-- Settles O2: the decoder reads back every encoding, and reads nothing else. -/
theorem modernEncodingIsOneToOne : Obligations.ModernEncodingIsOneToOne :=
  ⟨fun _ rest => decodeModern_encodeModern rest, fun _ _ _ => decodeModern_sound⟩

end Sys2Proof
end

section
/-! SUPPORT. The host commands: the code table read both ways, the operands, and the messages that are exactly the encodings of
commands (30_encoding.md R84; the byte layout is log 5). -/

namespace Sys2Proof

/-! ### The code table -/

/-- The code of a command (R84). -/
def Cmd.code : Cmd → Byte
  | .decompress => 0x01#8
  | .compressLegacy => 0x02#8
  | .compressModern => 0x03#8
  | .compressBest => 0x04#8
  | .romRead => 0x10#8
  | .romWrite => 0x11#8
  | .labelRead => 0x12#8
  | .labelWrite => 0x13#8
  | .romClear => 0x14#8
  | .binAssemble => 0x20#8
  | .pngUnpack => 0x30#8
  | .pngPack => 0x31#8
  | .textParse => 0x40#8
  | .textSerialize => 0x41#8

theorem mem_of_lookupCmd {table : List (Byte × Cmd)} {code : Byte} {c : Cmd} (h : lookupCmd table code = some c) :
    (code, c) ∈ table := by
  induction table with
  | nil => cases h
  | cons entry table ih =>
    rw [lookupCmd] at h
    split at h
    · next heq => cases h; exact heq ▸ List.mem_cons_self
    · exact List.mem_cons_of_mem _ (ih h)

theorem cmdOfCode_code (c : Cmd) : cmdOfCode c.code = some c := by
  cases c <;> rfl

theorem commandTable_codes : ∀ entry ∈ commandTable, entry.1 = entry.2.code := by decide

theorem code_of_cmdOfCode {code : Byte} {c : Cmd} (h : cmdOfCode code = some c) : code = c.code :=
  commandTable_codes _ (mem_of_lookupCmd h)

/-- A code that the table does not list stands for no command (R84). -/
theorem cmdOfCode_eq_none {code : Byte} (h : code ∉ commandTable.map Prod.fst) : cmdOfCode code = none :=
  Option.eq_none_iff_forall_ne_some.2 fun _ hc => h (List.mem_map_of_mem (mem_of_lookupCmd hc))

/-! ### Operands -/

theorem be16_of_bytes {n : Nat} (h : n < 2 ^ 16) : be16 (byteOf (n / 256)) (byteOf n) = n := by
  simp only [be16, byteOf, BitVec.toNat_ofNat]
  omega

@[simp] theorem be16Bytes_be16 (hi lo : Byte) : be16Bytes (be16 hi lo) = [hi, lo] := by
  have hlo := lo.isLt
  have hbyte : byteOf (be16 hi lo) = lo := BitVec.eq_of_toNat_eq (by simp only [be16, byteOf, BitVec.toNat_ofNat]; omega)
  rw [be16Bytes, hbyte, byteOf_eq_of_toNat (b := hi) (by rw [be16]; omega)]

theorem oneByte_byteOf (f : Nat → Instr) {v : Nat} (h : v < 2 ^ 8) : oneByte f [byteOf v] = .ok (f v) := by
  rw [oneByte, byteOf_toNat_of_lt h]

theorem oneWord_be16Bytes (f : Nat → Instr) {a : Nat} (h : a < 2 ^ 16) : oneWord f (be16Bytes a) = .ok (f a) := by
  rw [be16Bytes, oneWord, be16_of_bytes h]

theorem wordAndByte_bytes (f : Nat → Nat → Instr) {a v : Nat} (ha : a < 2 ^ 16) (hv : v < 2 ^ 8) :
    wordAndByte f (be16Bytes a ++ [byteOf v]) = .ok (f a v) := by
  rw [be16Bytes, List.cons_append, List.cons_append, List.nil_append, wordAndByte, be16_of_bytes ha, byteOf_toNat_of_lt hv]

theorem oneByte_sound {f : Nat → Instr} {ops : ByteString} {i : Instr} (h : oneByte f ops = .ok i) :
    ∃ v, ops = [v] ∧ i = f v.toNat := by
  unfold oneByte at h
  split at h <;> cases h
  exact ⟨_, rfl, rfl⟩

theorem oneWord_sound {f : Nat → Instr} {ops : ByteString} {i : Instr} (h : oneWord f ops = .ok i) :
    ∃ hi lo, ops = [hi, lo] ∧ i = f (be16 hi lo) := by
  unfold oneWord at h
  split at h <;> cases h
  exact ⟨_, _, rfl, rfl⟩

theorem wordAndByte_sound {f : Nat → Nat → Instr} {ops : ByteString} {i : Instr} (h : wordAndByte f ops = .ok i) :
    ∃ hi lo v, ops = [hi, lo, v] ∧ i = f (be16 hi lo) v.toNat := by
  unfold wordAndByte at h
  split at h <;> cases h
  exact ⟨_, _, _, rfl, rfl⟩

/-- What the operand bytes of a command decode to is encoded by its code and these bytes. -/
theorem decodeOperands_sound {c : Cmd} {ops : ByteString} {i : Instr} (h : decodeOperands c ops = .ok i) :
    i.stream = .command ∧ encodeCommand i = c.code :: ops := by
  cases c with
  | decompress =>
    unfold decodeOperands at h
    dsimp only at h
    split at h
    · cases h
    next src rest =>
    split at h
    case isTrue hregion =>
      split at h <;> cases h
      next hrest => exact ⟨rfl, by rw [hregion, hrest]; rfl⟩
    case isFalse =>
    split at h <;> cases h
    next hhost => exact ⟨rfl, by rw [hhost]; rfl⟩
  | compressLegacy | compressModern | compressBest | textParse => cases h; exact ⟨rfl, rfl⟩
  | romClear =>
    unfold decodeOperands at h
    dsimp only at h
    split at h <;> cases h
    next hops => exact ⟨rfl, by rw [hops]; rfl⟩
  | romRead | labelRead =>
    obtain ⟨hi, lo, rfl, rfl⟩ := oneWord_sound h
    exact ⟨rfl, by simp [encodeCommand, Cmd.code]⟩
  | romWrite | labelWrite =>
    obtain ⟨hi, lo, v, rfl, rfl⟩ := wordAndByte_sound h
    exact ⟨rfl, by simp [encodeCommand, Cmd.code]⟩
  | binAssemble | textSerialize =>
    obtain ⟨v, rfl, rfl⟩ := oneByte_sound h
    exact ⟨rfl, by simp [encodeCommand, Cmd.code]⟩
  | pngUnpack | pngPack =>
    unfold decodeOperands at h
    dsimp only at h
    split at h <;> cases h
    exact ⟨rfl, by simp [encodeCommand, Cmd.code]⟩

/-! ### Messages -/

/-- The decoder reads back the message of a well-formed command. -/
theorem decodeCommand_encodeCommand {i : Instr} (hs : i.stream = .command) (hw : i.wf = true) :
    decodeCommand (encodeCommand i) = .ok i := by
  cases i with
  | decompress src => cases src <;> rfl
  | compressLegacy _ | compressModern _ | compressBest _ | romClear | textParse _ => rfl
  | romRead a => exact oneWord_be16Bytes .romRead (of_decide_eq_true hw)
  | labelRead a => exact oneWord_be16Bytes .labelRead (of_decide_eq_true hw)
  | romWrite a v =>
    simp only [Instr.wf, Bool.and_eq_true, decide_eq_true_eq] at hw
    exact wordAndByte_bytes .romWrite hw.1 hw.2
  | labelWrite a v =>
    simp only [Instr.wf, Bool.and_eq_true, decide_eq_true_eq] at hw
    exact wordAndByte_bytes .labelWrite hw.1 hw.2
  | binAssemble ver => exact oneByte_byteOf .binAssemble (of_decide_eq_true hw)
  | textSerialize ver => exact oneByte_byteOf .textSerialize (of_decide_eq_true hw)
  | pngUnpack w h p =>
    simp only [Instr.wf, Bool.and_eq_true, decide_eq_true_eq] at hw
    show Except.ok (Instr.pngUnpack (be16 _ _) (be16 _ _) p) = _
    rw [be16_of_bytes hw.1, be16_of_bytes hw.2]
  | pngPack w h p ver =>
    simp only [Instr.wf, Bool.and_eq_true, decide_eq_true_eq] at hw
    obtain ⟨⟨hwidth, hheight⟩, hver⟩ := hw
    show Except.ok (Instr.pngPack (be16 _ _) (be16 _ _) p (byteOf ver).toNat) = _
    rw [be16_of_bytes hwidth, be16_of_bytes hheight, byteOf_toNat_of_lt hver]
  | _ => cases hs

theorem decodeCommand_sound {m : ByteString} {i : Instr} (h : decodeCommand m = .ok i) :
    i.stream = .command ∧ encodeCommand i = m := by
  unfold decodeCommand at h
  split at h
  · cases h
  split at h
  · cases h
  next c hc =>
  rw [code_of_cmdOfCode hc]
  exact decodeOperands_sound h

/-- Settles O3: the decoder reads back every message, and reads nothing else. -/
theorem commandEncodingIsOneToOne : Obligations.CommandEncodingIsOneToOne :=
  ⟨fun _ => decodeCommand_encodeCommand, fun _ _ => decodeCommand_sound⟩

end Sys2Proof
end

section
/-! SUPPORT. The family of 30_encoding.md: words of the formats, the width table, what a step does with the instruction it
decodes and with a reserved code, the illegal literal codes (30_encoding.md R77, R82, R84; 40_legacy_codec.md R101;
41_modern_codec.md R139, R141). -/

namespace Sys2Proof.Machine

open Sys2Proof

/-! ### Words and widths -/

/-- Settles O4: the decoder computes on the written words. -/
theorem specWordsDecode : Obligations.SpecWordsDecode :=
  ⟨rfl, rfl, rfl, rfl, rfl, rfl, rfl⟩

/-- An entry of the width table, by the ranges of its index (30 R77). -/
theorem widthTable_getD : ∀ q < 16,
    widthTable.getD q 8 = if q < 1 then 4 else if q < 3 then 5 else if q < 7 then 6 else if q < 15 then 7 else 8 := by
  decide

theorem widthOf_eq {rank : Nat} (h : rank < 256) :
    widthOf rank = if rank < 16 then 4 else if rank < 48 then 5 else if rank < 112 then 6 else if rank < 240 then 7 else 8 := by
  rw [widthOf, widthTable_getD _ (by omega)]
  simp only [Nat.div_lt_iff_lt_mul (show 0 < 16 by decide)]

/-- The ranks of width `w` are the `2 ^ w` ranks from `2 ^ w - 16` on, as many as there are below 256 (30 R76, R77). -/
theorem widthOf_range {rank : Nat} (h : rank < 256) :
    4 ≤ widthOf rank ∧ widthOf rank ≤ 8 ∧ 2 ^ widthOf rank ≤ rank + 16 ∧ rank + 16 < 2 * 2 ^ widthOf rank := by
  rw [widthOf_eq h]
  split_ifs <;> omega

/-- Settles O5: the width of a rank by its range, and the code of that width from the range's bounds. -/
theorem widthTableSpellsEveryRank : Obligations.WidthTableSpellsEveryRank := by
  refine ⟨rfl, fun rank h => ⟨widthOf_eq h, _, _, rfl, ?_, ?_, ?_⟩⟩ <;>
    obtain ⟨hlo, hhi, hfrom, hto⟩ := widthOf_range h
  · have hw : 4 + (widthOf rank - 4) = widthOf rank := by omega
    exact wf_mlit_iff.2 (.inl ⟨by omega, by rw [hw]; omega⟩)
  · rw [litWidth]
    omega
  · have hw : 4 + (widthOf rank - 4) = widthOf rank := by omega
    rw [litRank, litWidth, hw]
    omega

/-! ### Steps -/

theorem step_of_command {s : State} {m : ByteString} {rest : List HostEvent} {i : Instr} (hst : s.stage = .idle)
    (hp : s.port = .command m :: rest) (hf : s.faulted = false) (hd : decodeCommand m = .ok i) :
    step s = exec i { s with port := rest } := by
  simp [step, fetch, fetchCommand, hst, hp, hf, hd]

/-- A message that decodes to no command is refused under the name of its error (60 R266). -/
theorem step_of_command_error {s : State} {m : ByteString} {rest : List HostEvent} {e : DecodeError} (hst : s.stage = .idle)
    (hp : s.port = .command m :: rest) (hf : s.faulted = false) (hd : decodeCommand m = .error e) :
    step s = .refused (refusalOf e) := by
  simp [step, fetch, fetchCommand, hst, hp, hf, hd]

/-- Settles O16: the code is not in the table, and the message is refused with it. -/
theorem reservedCommandCodesRefused : Obligations.ReservedCommandCodesRefused := by
  intro s code ops rest hst hf hp hcode
  have hnone : cmdOfCode code = none := cmdOfCode_eq_none hcode
  exact step_of_command_error hst hp hf (e := .reservedCode code) (by rw [decodeCommand, hnone])

theorem step_of_legacy {s : State} {i : Instr} {rest : ByteString} (hin : InToken .legacy s)
    (hd : decodeLegacy (legacyAhead s) = .ok (i, rest)) : step s = exec i s := by
  obtain ⟨⟨o, hst⟩, hlt⟩ := hin
  simp [step, fetch, fetchToken, fetchLegacy, hst, hlt, hd]

theorem step_of_modern {s : State} {i : Instr} {rest : List Bool} (hin : InToken .modern s)
    (hesc : ¬ (s.cfg.modernRawEscape = true ∧ escapeAhead (modernAhead s) = true))
    (hd : decodeModern (modernAhead s) = .ok (i, rest)) : step s = exec i s := by
  obtain ⟨⟨o, hst⟩, hlt⟩ := hin
  simp only [step, fetch, fetchToken, fetchModern, hst, hlt, if_true, hesc, if_false, hd]

theorem step_of_rawEscape {s : State} (hin : InToken .modern s)
    (hesc : s.cfg.modernRawEscape = true ∧ escapeAhead (modernAhead s) = true) : step s = .refused .rawEscape := by
  obtain ⟨⟨o, hst⟩, hlt⟩ := hin
  simp only [step, fetch, fetchToken, fetchModern, hst, hlt, if_true, hesc, and_self]

theorem bitsOf_length (bs : ByteString) : (bitsOf bs).length = 8 * bs.length := by
  induction bs with
  | nil => rfl
  | cons b bs ih => simp [bitsOf, bitsOfByte, ih]; omega

/-- The bits ahead are within the input budget (41 R131). -/
theorem modernAhead_length_le (s : State) : (modernAhead s).length ≤ 8 * s.inlen.toNat - s.bitpos.toNat := by
  simp only [modernAhead, List.length_drop, bitsOf_length, List.length_take]
  omega

theorem escapeAhead_iff {bits : List Bool} :
    escapeAhead bits = true ↔ ∃ tail, bits = [false, true, false] ++ List.replicate 10 false ++ tail := by
  constructor
  · intro h
    exact ⟨bits.drop 13, by rw [← eq_of_beq h, List.take_append_drop]⟩
  · rintro ⟨tail, rfl⟩
    rfl

/-- What decodes at the ten zero offset bits of `MBREF.M` has offset 1 (41 R144). -/
theorem decodeModern_escape {tail rest : List Bool} {i : Instr}
    (hd : decodeModern ([false, true, false] ++ List.replicate 10 false ++ tail) = .ok (i, rest)) :
    ∃ len, i = .mbrefM 1 len := by
  have hfield : readField 10 (List.replicate 10 false ++ tail) = some (0, tail) := rfl
  simp only [List.cons_append, List.nil_append, decodeModern, decodeReference, hfield] at hd
  cases hgroups : readGroups tail with
  | none => rw [hgroups] at hd; cases hd
  | some r => rw [hgroups] at hd; cases hd; exact ⟨_, rfl⟩

/-- Under `MODERN_RAW_ESCAPE`, `MBREF.M` with offset 1 is refused once its ten zero offset bits are within the budget
(41 R147; log 20). -/
theorem execMbrefM_rawEscape {s : State} {len : Nat} (hin : InToken .modern s) (hlen : 3 ≤ len)
    (hcfg : s.cfg.modernRawEscape = true) (hfits : s.bitpos.toNat + 13 ≤ 8 * s.inlen.toNat) :
    execMbrefM 1 len s = .refused .rawEscape := by
  have hw : (Instr.mbrefM 1 len).wf = true := wf_mbrefM_iff.2 ⟨by decide, by decide, hlen⟩
  rw [execMbrefM, inDecode_of_inToken hin hw, if_pos ⟨hcfg, rfl, hfits⟩]

/-- Settles O51: each stream by its step; at the raw escape both sides refuse. -/
theorem stepRunsTheDecodedInstruction : Obligations.StepRunsTheDecodedInstruction := by
  refine ⟨fun _ _ _ _ => step_of_command, fun _ _ _ => step_of_legacy, fun s i rest hin hd => ?_⟩
  by_cases hesc : s.cfg.modernRawEscape = true ∧ escapeAhead (modernAhead s) = true
  · obtain ⟨tail, hbits⟩ := escapeAhead_iff.1 hesc.2
    have hahead := modernAhead_length_le s
    rw [hbits] at hd hahead
    obtain ⟨len, rfl⟩ := decodeModern_escape hd
    obtain ⟨-, hw, -⟩ := decodeModern_sound hd
    obtain ⟨-, -, hlen⟩ := wf_mbrefM_iff.1 hw
    simp only [List.length_append, List.length_cons, List.length_nil, List.length_replicate] at hahead
    rw [step_of_rawEscape hin hesc]
    exact (execMbrefM_rawEscape hin hlen hesc.1 (by omega)).symm
  · exact step_of_modern hin hesc hd

/-! ### Illegal literal codes -/

theorem stop_of_decoding {s : State} {form : Form} {o : Origin} (f : Flag) (hst : s.stage = .decoding form o) :
    stop f s = { s with status := s.status ||| f.mask, stage := .ended form o } := by
  simp [stop, endLoop, setFlag, hst, Stage.stopped]

theorem litRank_gt {v : Nat} (h : 16 ≤ v) : 255 < litRank 4 v := by
  simp only [litRank, litWidth]
  omega

/-- Settles O10: both codes read their bits and spell no rank. -/
theorem illegalLiteralStopsWithClit : Obligations.IllegalLiteralStopsWithClit := by
  intro s k v n o hst hlt hcode hfits
  obtain ⟨hw, hbits, hillegal⟩ : (Instr.mlit k v).wf = true ∧ litBits k = n ∧ (k = 5 ∨ 255 < litRank k v) := by
    rcases hcode with ⟨rfl, rfl, rfl⟩ | ⟨rfl, hlo, hhi, rfl⟩
    · exact ⟨rfl, rfl, .inl rfl⟩
    · exact ⟨wf_mlit_iff.2 (.inl ⟨le_rfl, hhi⟩), rfl, .inr (litRank_gt hlo)⟩
  show execMlit k v s = _
  rw [execMlit, inDecode_of_inToken ⟨⟨o, hst⟩, hlt⟩ hw, hbits, takeBits_of_fits hfits, literal, if_pos hillegal]
  exact congrArg Host.Outcome.next (stop_of_decoding .clit hst)

end Sys2Proof.Machine
end

section
/-! SUPPORT. The match search and the size of a Legacy buffer (40_legacy_codec.md R110 to R116). The laws of the scan and of the
match length serve the Modern search too (41_modern_codec.md R151). -/

namespace Sys2Proof.Machine

open Sys2Proof

/-! ### The match length -/

/-- A match of `l` bytes stands at the heads of two strings exactly when `l` is within the cap and within the second string, and
the first string agrees with it that far. -/
theorem le_matchLen_iff {cap l : Nat} {as bs : ByteString} :
    l ≤ matchLen cap as bs ↔ l ≤ cap ∧ l ≤ bs.length ∧ ∀ i < l, as[i]? = bs[i]? := by
  induction cap generalizing l as bs with
  | zero =>
    rw [matchLen]
    exact ⟨fun h => ⟨h, by omega, by omega⟩, fun h => h.1⟩
  | succ cap ih =>
    cases l with
    | zero => simp
    | succ l =>
      cases as with
      | nil =>
        refine iff_of_false (by rw [matchLen]; omega) fun ⟨_, hlen, hagree⟩ => ?_
        have h0 := hagree 0 (Nat.succ_pos l)
        rw [List.getElem?_nil, eq_comm, List.getElem?_eq_none_iff] at h0
        omega
      | cons a as =>
        cases bs with
        | nil => exact iff_of_false (by rw [matchLen]; omega) fun ⟨_, hlen, _⟩ => by simp at hlen
        | cons b bs =>
          rw [matchLen]
          split
          · next hab =>
            subst hab
            rw [Nat.forall_lt_succ_left]
            simp [ih]
          · next hab =>
            refine iff_of_false (by omega) fun ⟨_, _, hagree⟩ => hab ?_
            simpa using hagree 0 (Nat.succ_pos l)

/-- The match `o` back from `pos`, as the scans take it: its length is the greatest within the cap and the source. -/
theorem le_matchLen_drop_iff {cap l o pos : Nat} {src : ByteString} (hpos : pos ≤ src.length) :
    l ≤ matchLen cap (src.drop (pos - o)) (src.drop pos) ↔
      l ≤ cap ∧ pos + l ≤ src.length ∧ ∀ i < l, src[pos - o + i]? = src[pos + i]? := by
  simp only [le_matchLen_iff, List.getElem?_drop, List.length_drop, Nat.le_sub_iff_add_le' hpos]

/-! ### The scan -/

/-- `best` is the answer of a scan that has seen the offsets `os`: the longest length any of them has, at the least such offset;
`(0, 0)` where every length is 0 (40 R110, R111). -/
def ScanBest (lenAt : Nat → Nat) (os : List Nat) (best : Nat × Nat) : Prop :=
  (best = (0, 0) ∧ ∀ o ∈ os, lenAt o = 0) ∨
  (0 < best.1 ∧ best.2 ∈ os ∧ best.1 = lenAt best.2 ∧
    ∀ o ∈ os, lenAt o ≤ best.1 ∧ (lenAt o = best.1 → best.2 ≤ o))

/-- One more offset, above all the offsets seen: a strictly longer match replaces the answer (40 R111). -/
theorem ScanBest.next {lenAt : Nat → Nat} {seen : List Nat} {o : Nat} {best : Nat × Nat}
    (h : ScanBest lenAt seen best) (hseen : ∀ x ∈ seen, x < o) :
    ScanBest lenAt (seen ++ [o]) (if best.1 < lenAt o then (lenAt o, o) else best) := by
  split
  · next hlt =>
    have hshort : ∀ x ∈ seen, lenAt x < lenAt o := fun x hx => by
      rcases h with ⟨-, hzero⟩ | ⟨-, -, -, hmax⟩
      · rw [hzero x hx]; omega
      · exact (hmax x hx).1.trans_lt hlt
    refine .inr ⟨Nat.zero_lt_of_lt hlt, by simp, rfl, List.forall_mem_append.2 ⟨fun x hx => ?_, by simp⟩⟩
    exact ⟨(hshort x hx).le, fun heq => absurd heq (hshort x hx).ne⟩
  · next hge =>
    rcases h with ⟨rfl, hzero⟩ | ⟨hpos, hmem, hlen, hmax⟩
    · exact .inl ⟨rfl, List.forall_mem_append.2 ⟨hzero, by simpa using hge⟩⟩
    · refine .inr ⟨hpos, List.mem_append_left _ hmem, hlen, List.forall_mem_append.2 ⟨hmax, ?_⟩⟩
      exact List.forall_mem_singleton.2 ⟨Nat.le_of_not_lt hge, fun _ => (hseen _ hmem).le⟩

/-- A scan over rising offsets keeps the answer right. -/
theorem ScanBest.bestMatch {lenAt : Nat → Nat} {os seen : List Nat} {best : Nat × Nat}
    (h : ScanBest lenAt seen best) (hrise : (seen ++ os).Pairwise (· < ·)) :
    ScanBest lenAt (seen ++ os) (bestMatch lenAt os best) := by
  induction os generalizing seen best with
  | nil => simpa [Machine.bestMatch] using h
  | cons o os ih =>
    have hseen : ∀ x ∈ seen, x < o := fun x hx => (List.pairwise_append.1 hrise).2.2 x hx o List.mem_cons_self
    rw [List.append_cons] at hrise ⊢
    exact ih (h.next hseen) hrise

/-- The scan of the offsets `1..n`, nearest first (40 R110; 41 R151). -/
theorem bestMatch_scanBest (lenAt : Nat → Nat) (n : Nat) :
    ScanBest lenAt (List.range' 1 n) (bestMatch lenAt (List.range' 1 n) (0, 0)) :=
  ScanBest.bestMatch (seen := []) (.inl ⟨rfl, by simp⟩) (List.pairwise_lt_range' 1)

/-! ### The Legacy search -/

/-- The Legacy search answers its scan (40 R110). -/
theorem legacySearch_scanBest (src : ByteString) (pos : Nat) :
    ScanBest (fun o => matchLen (min legMaxLen o) (src.drop (pos - o)) (src.drop pos))
      (List.range' 1 (min pos legWindow)) (legacySearch src pos) :=
  bestMatch_scanBest ..

/-- `l` bytes at `pos` are matched `o` back, within the limits of 40 R110. -/
def LegacyMatch (src : ByteString) (pos o l : Nat) : Prop :=
  (1 ≤ o ∧ o ≤ min pos 3135) ∧ (l ≤ 17 ∧ l ≤ o) ∧ pos + l ≤ src.length ∧ ∀ i < l, src[pos - o + i]? = src[pos + i]?

theorem legacyMatch_iff {src : ByteString} {pos o l : Nat} (hpos : pos ≤ src.length) :
    LegacyMatch src pos o l ↔ o ∈ List.range' 1 (min pos legWindow) ∧
      l ≤ matchLen (min legMaxLen o) (src.drop (pos - o)) (src.drop pos) := by
  have hcap : l ≤ min legMaxLen o ↔ l ≤ 17 ∧ l ≤ o := Nat.le_min
  have hwindow : o ∈ List.range' 1 (min pos legWindow) ↔ 1 ≤ o ∧ o ≤ min pos 3135 := by
    rw [List.mem_range'_1, legWindow]
    omega
  rw [le_matchLen_drop_iff hpos, hcap, hwindow, LegacyMatch]

/-- The search finds no match, where there is none, or a match that is the longest and then the nearest (40 R110, R111). -/
theorem legacySearch_cases {src : ByteString} {pos : Nat} (hpos : pos ≤ src.length) :
    (legacySearch src pos = (0, 0) ∧ ∀ o l, LegacyMatch src pos o l → l = 0) ∨
    (0 < (legacySearch src pos).1 ∧ LegacyMatch src pos (legacySearch src pos).2 (legacySearch src pos).1 ∧
      ∀ o l, LegacyMatch src pos o l →
        l ≤ (legacySearch src pos).1 ∧ (l = (legacySearch src pos).1 → (legacySearch src pos).2 ≤ o)) := by
  rcases legacySearch_scanBest src pos with ⟨hnone, hzero⟩ | ⟨hfound, hmem, hlen, hmax⟩
  · refine .inl ⟨hnone, fun o l h => ?_⟩
    obtain ⟨ho, hl⟩ := (legacyMatch_iff hpos).1 h
    exact Nat.le_zero.1 (hl.trans_eq (hzero o ho))
  · refine .inr ⟨hfound, (legacyMatch_iff hpos).2 ⟨hmem, hlen.le⟩, fun o l h => ?_⟩
    obtain ⟨ho, hl⟩ := (legacyMatch_iff hpos).1 h
    obtain ⟨hle, hnear⟩ := hmax o ho
    exact ⟨hl.trans hle, fun heq => hnear (hle.antisymm (heq ▸ hl))⟩

/-- Settles O34: the scan keeps the longest match, a later one only if it is strictly longer. -/
theorem legacySearchFindsNearestLongest : Obligations.LegacySearchFindsNearestLongest := by
  intro src pos l o hpos hsearch
  rcases legacySearch_cases hpos.le with ⟨hnone, hzero⟩ | ⟨hfound, hmatch, hmax⟩
  · obtain ⟨rfl, rfl⟩ : 0 = l ∧ 0 = o := Prod.mk.inj (hnone.symm.trans hsearch)
    refine ⟨fun _ => ⟨rfl, fun o' hlo hhi heq => ?_⟩, fun h => absurd h (Nat.lt_irrefl 0)⟩
    have hone : LegacyMatch src pos o' 1 := ⟨⟨hlo, hhi⟩, ⟨by decide, hlo⟩, hpos, by simpa using heq⟩
    exact absurd (hzero o' 1 hone) (by decide)
  · rw [hsearch] at hfound hmatch hmax
    obtain ⟨⟨hlo, hhi⟩, ⟨hcap, hback⟩, hend, hagree⟩ := hmatch
    refine ⟨fun h => absurd h hfound.ne', fun _ => ⟨hlo, hhi, hcap, hback, hend, hagree, ?_⟩⟩
    exact fun o' l' hlo' hhi' hcap' hback' hend' hagree' =>
      hmax o' l' ⟨⟨hlo', hhi'⟩, ⟨hcap', hback'⟩, hend', hagree'⟩

/-! ### The size of a buffer -/

/-- The choice is a back-reference to a match of two bytes or more, or the literal token of the byte (40 R112). -/
theorem legacyChoice_cases {cfg : Config} {src : ByteString} {pos : Nat} {c : Byte} (hpos : pos ≤ src.length) :
    (∃ o l, legacyChoice cfg src pos c = (.bref o l, l) ∧ 2 ≤ l ∧ LegacyMatch src pos o l) ∨
    legacyChoice cfg src pos c = (litOrEsc cfg c, 1) := by
  unfold legacyChoice
  dsimp only
  split
  · next hbest =>
    refine .inl ⟨_, _, rfl, hbest.1, ?_⟩
    rcases legacySearch_cases hpos with ⟨hnone, -⟩ | ⟨-, hmatch, -⟩
    · rw [hnone] at hbest; exact absurd hbest.1 (by decide)
    · exact hmatch
  · exact .inr rfl

/-- A token encodes at least one source byte, within the source (40 R116). -/
theorem legacyChoice_advance {cfg : Config} {src : ByteString} {pos : Nat} {c : Byte} (hpos : pos < src.length) :
    1 ≤ (legacyChoice cfg src pos c).2 ∧ pos + (legacyChoice cfg src pos c).2 ≤ src.length := by
  rcases legacyChoice_cases (cfg := cfg) (c := c) hpos.le with ⟨o, l, h, hl, -, -, hend, -⟩ | h <;> rw [h]
  · exact ⟨(by decide : 1 ≤ 2).trans hl, hend⟩
  · exact ⟨le_rfl, hpos⟩

theorem encodeLegacy_length_le (i : Instr) : (encodeLegacy i).length ≤ 2 := by
  cases i <;> simp [encodeLegacy]

theorem legacyTokens_length_le (cfg : Config) (src : ByteString) (n pos : Nat) :
    (legacyTokens cfg src n pos).length ≤ n := by
  induction n generalizing pos with
  | zero => exact le_rfl
  | succ n ih =>
    unfold legacyTokens
    split
    · exact Nat.zero_le _
    · exact Nat.succ_le_succ (ih _)

/-- A body has at most two bytes a token (30 R70 to R72). -/
theorem flatMap_encodeLegacy_length_le (tokens : List Instr) :
    (tokens.flatMap encodeLegacy).length ≤ 2 * tokens.length := by
  induction tokens with
  | nil => exact le_rfl
  | cons i tokens ih =>
    have hi := encodeLegacy_length_le i
    rw [List.flatMap_cons, List.length_append, List.length_cons]
    omega

theorem legacyMagic_length {c : Config} (h : c.wf = true) : c.legacyMagic.length = 4 := by
  simp only [Config.wf, Bool.and_eq_true, beq_iff_eq] at h
  obtain ⟨⟨⟨⟨⟨⟨⟨⟨hlen, -⟩, -⟩, -⟩, -⟩, -⟩, -⟩, -⟩, -⟩ := h
  exact hlen

theorem alphabet_length {c : Config} (h : c.wf = true) : c.alphabet.length = 59 := by
  simp only [Config.wf, Bool.and_eq_true, beq_iff_eq] at h
  obtain ⟨⟨⟨⟨⟨⟨-, hlen⟩, -⟩, -⟩, -⟩, -⟩, -⟩ := h
  exact hlen

/-- The header is the magic, the declared length and two zero bytes (30 R66). -/
theorem legacyHeader_length {c : Config} (h : c.wf = true) (n : Nat) : (legacyHeader c n).length = 8 := by
  simp [legacyHeader, be16Bytes, legacyMagic_length h]

theorem legacyEncode_length {c : Config} (h : c.wf = true) (src : ByteString) :
    (legacyEncode c src).length = 8 + ((legacyTokens c src src.length 0).flatMap encodeLegacy).length := by
  rw [legacyEncode, asmLegacy, List.length_append, legacyHeader_length h]

theorem legacyEncode_length_le {c : Config} (h : c.wf = true) (src : ByteString) :
    (legacyEncode c src).length ≤ 8 + 2 * src.length := by
  have hbody := flatMap_encodeLegacy_length_le (legacyTokens c src src.length 0)
  have hcount := legacyTokens_length_le c src src.length 0
  rw [legacyEncode_length h]
  omega

/-- Settles O31: at most one token a source byte, at most two bytes a token, after the header of eight. -/
theorem legacyBufferSize : Obligations.LegacyBufferSize := by
  intro c src hc
  refine ⟨?_, legacyEncode_length_le hc src, fun pos b hb => ?_⟩
  · rw [legacyEncode_length hc]
    exact Nat.le_add_right ..
  · exact legacyChoice_advance (List.getElem?_eq_some_iff.1 hb).1

end Sys2Proof.Machine
end

section
/-! SUPPORT. The Legacy tokens and the budgets of the decode loop (40_legacy_codec.md R101 to R105; 41_modern_codec.md R131,
R139). -/

namespace Sys2Proof.Machine

open Sys2Proof

/-! ### The tokens -/

/-- `ALPHA[code]` is the alphabet's entry (30 R68). -/
theorem alphaOf_eq {c : Config} {code : Nat} {b : Byte} (h : c.alphabet[code - 1]? = some b) : alphaOf c code = b := by
  rw [alphaOf, h]
  rfl

theorem exec_lit {s : State} {code : Nat} (hin : InToken .legacy s) (hw : (Instr.lit code).wf = true) :
    exec (.lit code) s = .next (advanceIp 1 (append (alphaOf s.cfg code) s)) := by
  show execLit code s = _
  rw [execLit, inDecode_of_inToken hin hw]

theorem exec_esc {s : State} {raw : Byte} (hin : InToken .legacy s) :
    exec (.esc raw) s =
      if s.ip.toNat + 1 < s.inlen.toNat then .next (advanceIp 2 (append raw s)) else .next (stop .trunc s) := by
  show execEsc raw s = _
  rw [execEsc, inDecode_of_inToken hin rfl]
  simp only [← Nat.not_lt, ite_not]

theorem exec_bref {s : State} {offset len : Nat} (hin : InToken .legacy s) (hw : (Instr.bref offset len).wf = true) :
    exec (.bref offset len) s =
      if s.ip.toNat + 1 < s.inlen.toNat then .next (reference offset len (advanceIp 2 s)) else .next (stop .trunc s) := by
  show execBref offset len s = _
  rw [execBref, inDecode_of_inToken hin hw]
  simp only [← Nat.not_lt, ite_not]

/-- Settles O6: the token's one append and one advance. -/
theorem litAppendsAlphabetByte : Obligations.LitAppendsAlphabetByte := by
  intro s code b hin hlo hhi hb
  rw [exec_lit hin (wf_lit_iff.2 ⟨hlo, hhi⟩), alphaOf_eq hb]
  rfl

/-- Settles O7: on either side of the input budget. -/
theorem escAppendsRawByte : Obligations.EscAppendsRawByte := by
  intro s raw o hst hlt
  rw [exec_esc ⟨⟨o, hst⟩, hlt⟩, stop_of_decoding .trunc hst]
  rfl

/-! ### The copy -/

/-- What stood is still there, and the bytes after it repeat those `offset` before them (40 R105). -/
theorem copiedOut_iff {offset len budget : Nat} {before after : ByteString} :
    CopiedOut offset len budget before after ↔
      after.length = min (before.length + len) budget ∧ before <+: after ∧
        ∀ j, before.length ≤ j → j < after.length → after[j]? = after[j - offset]? := by
  rw [CopiedOut, List.prefix_iff_eq_take, eq_comm (a := before)]

/-- Nothing is copied where nothing is asked for or the budget is met. -/
theorem copiedOut_refl {offset len budget : Nat} {out : ByteString} (h : out.length = min (out.length + len) budget) :
    CopiedOut offset len budget out out :=
  copiedOut_iff.2 ⟨h, List.prefix_rfl, fun _ hge hlt => absurd hlt (Nat.not_lt.2 hge)⟩

/-- One byte copied, then the rest of the copy. -/
theorem CopiedOut.cons {offset n budget : Nat} {out after : ByteString} {b : Byte} (hlo : 1 ≤ offset)
    (hhi : offset ≤ out.length) (hb : out[out.length - offset]? = some b)
    (h : CopiedOut offset n budget (out ++ [b]) after) : CopiedOut offset (n + 1) budget out after := by
  obtain ⟨hlen, hpre, hrest⟩ := copiedOut_iff.1 h
  rw [List.length_append, List.length_singleton] at hlen hrest
  refine copiedOut_iff.2 ⟨by omega, (List.prefix_append out [b]).trans hpre, fun j hge hlt => ?_⟩
  rcases hge.eq_or_lt with rfl | hgt
  · obtain ⟨tail, rfl⟩ := hpre
    have hold : out.length - offset < out.length := by omega
    rw [List.append_assoc, List.getElem?_append_left hold, hb]
    simp
  · exact hrest j hgt hlt

/-- Copying within the budget from within `OUT` (40 R105). -/
theorem copy_copiedOut {n offset : Nat} {s : State} (hs : OutInStep s) (hle : s.outlen.toNat ≤ s.declen.toNat)
    (hlo : 1 ≤ offset) (hhi : offset ≤ s.out.length) :
    CopiedOut offset n s.declen.toNat s.out (copy n offset s).out := by
  have hlen : s.outlen.toNat = s.out.length := hs
  induction n generalizing s with
  | zero => exact copiedOut_refl (by omega)
  | succ n ih =>
    rw [copy]
    split
    · next heq => exact copiedOut_refl (by rw [← heq]; omega)
    · next hne =>
      have hlt : s.outlen.toNat < s.declen.toNat := hle.lt_of_ne fun h => hne (BitVec.eq_of_toNat_eq h)
      have hsrc : s.out.length - offset < s.out.length := by omega
      have hb : s.out[s.out.length - offset]? = some (outAt s (s.outlen.toNat - offset)) := by
        rw [outAt, hlen, List.getElem?_eq_getElem hsrc]
        rfl
      obtain ⟨hs', hle'⟩ := append_inStep (v := outAt s (s.outlen.toNat - offset)) hs hlt
      exact (ih hs' hle' (by simp; omega) hs').cons hlo hhi hb

/-- A reference that reaches before the start of `OUT`, or has offset 0 (60 R263). -/
theorem reference_corrupt {offset len : Nat} {s : State} (hs : OutInStep s) (h : offset = 0 ∨ s.out.length < offset) :
    reference offset len s = setFlag .cbr s := by
  rw [reference, hs, if_pos h]

theorem reference_copy {offset len : Nat} {s : State} (hs : OutInStep s) (hlo : 1 ≤ offset)
    (hhi : offset ≤ s.out.length) : reference offset len s = copy len offset s := by
  rw [reference, hs, if_neg (by omega)]

/-- Settles O8: the reference after the advance of `IP`, corrupt or copied. -/
theorem brefCopiesOrFlags : Obligations.BrefCopiesOrFlags := by
  intro s offset len o hst hlt hs hoff hmin hmax
  rw [exec_bref ⟨⟨o, hst⟩, hlt⟩ (wf_bref_iff.2 ⟨hoff, hmin, hmax⟩)]
  refine ⟨fun hshort => ?_, fun hfull hbad => ?_, fun hfull hlo hhi => ?_⟩
  · rw [if_neg (Nat.not_lt.2 hshort), stop_of_decoding .trunc hst]
    rfl
  · rw [if_pos hfull, reference_corrupt (s := advanceIp 2 s) hs hbad]
    rfl
  · rw [if_pos hfull, reference_copy (s := advanceIp 2 s) hs hlo hhi]
    refine ⟨_, rfl, copy_frame .., (copy_inStep (s := advanceIp 2 s) hs hlt.le).1, ?_⟩
    exact copy_copiedOut (s := advanceIp 2 s) hs hlt.le hlo hhi

/-! ### The budgets -/

/-- With the output budget met no token is read (40 R101, 41 R139). -/
theorem fetchToken_of_budget {form : Form} {s : State} (hraw : form ≠ .raw) (h : s.declen.toNat ≤ s.outlen.toNat) :
    fetchToken form s = .act (endLoop s) := by
  cases form with
  | raw => exact absurd rfl hraw
  | legacy => exact if_neg (Nat.not_lt.2 h)
  | modern => exact if_neg (Nat.not_lt.2 h)

theorem step_of_decoding_act {form : Form} {o : Origin} {s t : State} (hst : s.stage = .decoding form o)
    (h : fetchToken form s = .act t) : step s = .next t := by
  simp only [step, fetch, hst, h]

theorem endLoop_of_decoding {form : Form} {o : Origin} {s : State} (hst : s.stage = .decoding form o) :
    endLoop s = { s with stage := .ended form o } := by
  rw [endLoop, hst]
  rfl

/-- The bytes ahead are within the input budget (40 R101). -/
theorem legacyAhead_length_le (s : State) : (legacyAhead s).length ≤ s.inlen.toNat - s.ip.toNat := by
  rw [legacyAhead, List.length_drop, List.length_take]
  omega

/-- The Legacy stream is spent at `IP`, or has one byte left, the first of a two-byte token (40 R101, R103, R104). -/
theorem decodeLegacy_short {s : State}
    (h : s.inlen.toNat ≤ s.ip.toNat ∨
      s.inlen.toNat = s.ip.toNat + 1 ∧ ∀ b, s.inbuf[s.ip.toNat]? = some b → b = 0#8 ∨ 0x3c ≤ b.toNat) :
    decodeLegacy (legacyAhead s) = .error .truncated := by
  have hlen := legacyAhead_length_le s
  match hahead : legacyAhead s with
  | [] => rfl
  | [b] =>
    rw [hahead, List.length_singleton] at hlen
    obtain hspent | ⟨hone, htwo⟩ := h
    · omega
    have hb : s.inbuf[s.ip.toNat]? = some b := by
      have h0 : (legacyAhead s)[0]? = some b := by rw [hahead]; rfl
      rwa [legacyAhead, List.getElem?_drop, List.getElem?_take_of_lt (by omega)] at h0
    rcases htwo b hb with rfl | hge
    · rfl
    · rw [decodeLegacy, if_neg (by rintro rfl; simp at hge), if_neg (by omega)]
  | _ :: _ :: _ =>
    rw [hahead, List.length_cons, List.length_cons] at hlen
    omega

/-- Settles O52: the head of the loop at the output budget, at a Legacy token cut short, at a Modern one. -/
theorem loopEndsAtItsBudgets : Obligations.LoopEndsAtItsBudgets := by
  refine ⟨fun s form o hst hraw hmet => ?_, fun s o hst hlt hshort => ?_, fun s o e hst hlt hesc hbits hd => ?_⟩
  · rw [step_of_decoding_act hst (fetchToken_of_budget hraw hmet), endLoop_of_decoding hst]
  · have hf : fetchToken .legacy s = .act (stop .trunc s) := by
      simp only [fetchToken, hlt, if_true, fetchLegacy, decodeLegacy_short hshort]
    rw [step_of_decoding_act hst hf, stop_of_decoding .trunc hst]
    rfl
  · have hno : ¬ (s.cfg.modernRawEscape = true ∧ escapeAhead (modernAhead s) = true) := fun ⟨hcfg, h⟩ =>
      Bool.false_ne_true ((hesc hcfg).symm.trans h)
    have hf : fetchToken .modern s = .act (stop .trunc { s with bitpos := bitIndexOf (8 * s.inlen.toNat) }) := by
      simp only [fetchToken, hlt, if_true, fetchModern, hno, if_false, hd, Nat.max_eq_right hbits]
    rw [step_of_decoding_act hst hf,
      stop_of_decoding (s := { s with bitpos := bitIndexOf (8 * s.inlen.toNat) }) .trunc hst]
    rfl

end Sys2Proof.Machine
end

section
/-! SUPPORT. A `DECOMPRESS` in one step is its decode stepped token by token (40_legacy_codec.md R101; 41_modern_codec.md R139;
42_detect_and_best.md R170). -/

namespace Sys2Proof.Machine

open Sys2Proof

/-- A run of some number of steps leads from `s` to `t`. -/
def Reaches (s t : State) : Prop := ∃ n, Host.Core.run Sys2Proof.core n s = .next t

theorem Reaches.refl (s : State) : Reaches s s := ⟨0, rfl⟩

/-- A run of one step more is the step, then the run. -/
theorem core_run_succ_iff {M : Host.Core} {n : Nat} {s t : M.State} :
    M.run (n + 1) s = .next t ↔ ∃ u, M.step s = .next u ∧ M.run n u = .next t := by
  rw [Host.Core.run]
  cases M.step s <;> simp

theorem Reaches.head {s u t : State} (hstep : step s = .next u) (h : Reaches u t) : Reaches s t := by
  obtain ⟨n, hn⟩ := h
  exact ⟨n + 1, core_run_succ_iff.2 ⟨u, hstep, hn⟩⟩

theorem Reaches.trans {s u t : State} (h : Reaches s u) (k : Reaches u t) : Reaches s t := by
  obtain ⟨n, hn⟩ := h
  induction n generalizing s with
  | zero => cases hn; exact k
  | succ n ih =>
    obtain ⟨v, hv, hn⟩ := core_run_succ_iff.1 hn
    exact (ih hn).head hv

/-- A token that completes in the loop completes under `exec`: a command is no token. -/
theorem exec_of_runToken {i : Instr} {s t : State} (h : runToken i s = .next t) : exec i s = .next t := by
  cases i with
  | lit _ | esc _ | bref _ _ | mlit _ _ | mbrefS _ _ | mbrefM _ _ | mbrefL _ _ => exact h
  | _ => cases h

/-- One iteration of the loop is one step of the machine. -/
theorem step_of_decodeStep {form : Form} {o : Origin} {s t : State} (hst : s.stage = .decoding form o)
    (h : decodeStep form s = .next t) : step s = .next t := by
  cases hf : fetchToken form s with
  | run i u =>
    simp only [decodeStep, hf] at h
    simpa only [step, fetch, hst, hf] using exec_of_runToken h
  | act u => simpa only [decodeStep, step, fetch, hst, hf] using h
  | refuse r => simp only [decodeStep, hf] at h; cases h

/-- The loop, step by step. -/
theorem reaches_of_decodeLoop {n : Nat} {s t : State} (h : decodeLoop n s = .next t) : Reaches s t := by
  induction n generalizing s with
  | zero => cases h; exact Reaches.refl _
  | succ n ih =>
    unfold decodeLoop at h
    split at h
    · next form o hst =>
      obtain ⟨u, hu, ht⟩ := andThen_next_iff.1 h
      exact (ih ht).head (step_of_decodeStep hst hu)
    · cases h; exact Reaches.refl _
    · cases h; exact Reaches.refl _

theorem step_of_ended {form : Form} {o : Origin} {s : State} (hst : s.stage = .ended form o) :
    step s = .next (finishDecode form o s) := by
  simp only [step, fetch, hst]

/-- The end of a decode is one step, or none where the loop has not ended. -/
theorem reaches_closeDecode (s : State) : Reaches s (closeDecode s) := by
  rcases closeDecode_cases s with h | ⟨form, o, hst, h⟩ <;> rw [h]
  · exact Reaches.refl s
  · exact (Reaches.refl _).head (step_of_ended hst)

/-- Settles O60: the loop's iterations are steps, and so is the end of the decode. -/
theorem decompressIsItsTokensStepped : Obligations.DecompressIsItsTokensStepped := by
  intro s t src h
  obtain ⟨-, u, hu, rfl⟩ := execDecompress_next h
  exact (reaches_of_decodeLoop hu).trans (reaches_closeDecode u)

end Sys2Proof.Machine
end

section
/-! SUPPORT. The Legacy round trip: the decode of an encoded source, token by token (40_legacy_codec.md R100 to R115). -/

namespace Sys2Proof.Machine

open Sys2Proof

/-! ### A copy of a match -/

/-- Copying a match of a source onto the source's first `pos` bytes gives its first `pos + len` bytes, overlap or not
(40 R105, R110; 41 R151). -/
theorem CopiedOut.eq_take {src after : ByteString} {offset len budget pos : Nat}
    (h : CopiedOut offset len budget (src.take pos) after) (hend : pos + len ≤ src.length)
    (hbudget : pos + len ≤ budget) (hlo : 1 ≤ offset) (hhi : offset ≤ pos)
    (hmatch : ∀ i < len, src[pos - offset + i]? = src[pos + i]?) : after = src.take (pos + len) := by
  obtain ⟨hlen, hold, hnew⟩ := h
  rw [List.length_take_of_le (by omega)] at hlen hold hnew
  have hbyte : ∀ j, j < pos + len → after[j]? = src[j]? := by
    intro j
    induction j using Nat.strong_induction_on with
    | _ j ih =>
      intro hj
      by_cases hlt : j < pos
      · rw [← List.getElem?_take_of_lt hlt, hold, List.getElem?_take_of_lt hlt]
      · have hcopied := hmatch (j - pos) (by omega)
        rw [show pos - offset + (j - pos) = j - offset by omega, show pos + (j - pos) = j by omega] at hcopied
        rw [hnew j (by omega) (by omega), ih (j - offset) (by omega) (by omega), hcopied]
  refine List.ext_getElem? fun j => ?_
  rw [List.getElem?_take]
  split
  · next hj => exact hbyte j hj
  · next hj => rw [List.getElem?_eq_none_iff]; omega

/-! ### One token -/

/-- A Legacy decode under way has written the first `pos` bytes of `src`, of the whole length it declares. -/
structure Unpacked (src : ByteString) (pos : Nat) (o : Origin) (s : State) : Prop where
  stage : s.stage = .decoding .legacy o
  out : s.out = src.take pos
  inStep : OutInStep s
  budget : s.declen.toNat = src.length

section
variable {src : ByteString} {pos : Nat} {o : Origin} {s : State}

theorem Unpacked.outlen_eq (h : Unpacked src pos o s) (hpos : pos ≤ src.length) : s.outlen.toNat = pos := by
  have hs : s.outlen.toNat = s.out.length := h.inStep
  rw [hs, h.out, List.length_take_of_le hpos]

theorem Unpacked.out_eq_source (h : Unpacked src src.length o s) : s.out = src := by
  rw [h.out, List.take_length]

theorem Unpacked.inToken (h : Unpacked src pos o s) (hpos : pos < src.length) : InToken .legacy s :=
  ⟨⟨o, h.stage⟩, by rw [h.outlen_eq hpos.le, h.budget]; exact hpos⟩

theorem Unpacked.advanceIp (h : Unpacked src pos o s) (n : Nat) : Unpacked src pos o (advanceIp n s) :=
  ⟨h.stage, h.out, h.inStep, h.budget⟩

theorem Unpacked.append {c : Byte} (h : Unpacked src pos o s) (hc : src[pos]? = some c) :
    Unpacked src (pos + 1) o (append c s) := by
  have hpos : pos < src.length := (List.getElem?_eq_some_iff.1 hc).1
  refine ⟨h.stage, ?_, (append_inStep h.inStep (h.inToken hpos).2).1, h.budget⟩
  rw [append_out, h.out, List.take_add_one, hc]
  rfl

theorem Unpacked.copy {offset len : Nat} (h : Unpacked src pos o s) (hmatch : LegacyMatch src pos offset len) :
    Unpacked src (pos + len) o (copy len offset s) := by
  obtain ⟨⟨hlo, hhi⟩, -, hend, hagree⟩ := hmatch
  have hpos : pos ≤ src.length := by omega
  have hle : s.outlen.toNat ≤ s.declen.toNat := by rw [h.outlen_eq hpos, h.budget]; exact hpos
  have hcopied := copy_copiedOut (n := len) h.inStep hle hlo (by rw [h.out, List.length_take_of_le hpos]; omega)
  rw [h.out] at hcopied
  refine ⟨?_, hcopied.eq_take hend (by rw [h.budget]; exact hend) hlo (by omega) hagree, (copy_inStep h.inStep hle).1, ?_⟩
  · rw [copy_frame]; exact h.stage
  · rw [copy_frame]; exact h.budget

end

/-- The alphabet's code of a byte it has is a code of 30 R68, and its entry is the byte (30 R69). -/
theorem codeOf_spec {cfg : Config} {c : Byte} (hcfg : cfg.wf = true) (h : codeOf cfg c ≠ 0) :
    1 ≤ codeOf cfg c ∧ codeOf cfg c ≤ 59 ∧ alphaOf cfg (codeOf cfg c) = c := by
  unfold codeOf at h ⊢
  dsimp only at h ⊢
  split at h
  · next hlt =>
    rw [if_pos hlt]
    have hlen := alphabet_length hcfg
    refine ⟨by omega, by omega, alphaOf_eq ?_⟩
    rw [Nat.add_sub_cancel, List.getElem?_eq_getElem hlt, List.getElem_idxOf]
  · exact absurd rfl h

theorem litOrEsc_wf {cfg : Config} (hcfg : cfg.wf = true) (c : Byte) :
    (litOrEsc cfg c).stream = .legacy ∧ (litOrEsc cfg c).wf = true := by
  unfold litOrEsc
  split
  · next hcode =>
    obtain ⟨hlo, hhi, -⟩ := codeOf_spec hcfg hcode
    exact ⟨rfl, wf_lit_iff.2 ⟨hlo, hhi⟩⟩
  · exact ⟨rfl, rfl⟩

theorem LegacyMatch.wf {src : ByteString} {pos o l : Nat} (h : LegacyMatch src pos o l) (hl : 2 ≤ l) :
    (Instr.bref o l).wf = true := by
  obtain ⟨⟨-, hhi⟩, ⟨hcap, -⟩, -⟩ := h
  exact wf_bref_iff.2 ⟨by omega, hl, hcap⟩

/-- The encoder chooses well-formed Legacy tokens (40 R112). -/
theorem legacyChoice_wf {cfg : Config} {src : ByteString} {pos : Nat} (hcfg : cfg.wf = true) (hpos : pos ≤ src.length)
    (c : Byte) :
    (legacyChoice cfg src pos c).1.stream = .legacy ∧ (legacyChoice cfg src pos c).1.wf = true := by
  rcases legacyChoice_cases (cfg := cfg) (c := c) hpos with ⟨o, l, h, hl, hmatch⟩ | h <;> rw [h]
  · exact ⟨rfl, hmatch.wf hl⟩
  · exact litOrEsc_wf hcfg c

/-- The literal token of a byte appends it (30 R86; 40 R102, R103). -/
theorem exec_litOrEsc {s : State} {c : Byte} (hcfg : s.cfg.wf = true) (hin : InToken .legacy s)
    (hfits : (encodeLegacy (litOrEsc s.cfg c)).length ≤ s.inlen.toNat - s.ip.toNat) :
    exec (litOrEsc s.cfg c) s = .next (advanceIp (encodeLegacy (litOrEsc s.cfg c)).length (append c s)) := by
  unfold litOrEsc at *
  split at hfits
  · next hcode =>
    obtain ⟨hlo, hhi, halpha⟩ := codeOf_spec hcfg hcode
    rw [if_pos hcode, exec_lit hin (wf_lit_iff.2 ⟨hlo, hhi⟩), halpha]
    rfl
  · next hcode =>
    have hraw : 2 ≤ s.inlen.toNat - s.ip.toNat := hfits
    rw [if_neg hcode, exec_esc hin, if_pos (by omega)]
    rfl

/-- The token chosen at `pos`, executed, gives the source's bytes up to where the encoder goes on; it reads its own bytes
(40 R102 to R105, R112). -/
theorem exec_legacyChoice {src : ByteString} {pos : Nat} {o : Origin} {s : State} {c : Byte} (hcfg : s.cfg.wf = true)
    (h : Unpacked src pos o s) (hc : src[pos]? = some c)
    (hfits : (encodeLegacy (legacyChoice s.cfg src pos c).1).length ≤ s.inlen.toNat - s.ip.toNat) :
    ∃ t, exec (legacyChoice s.cfg src pos c).1 s = .next t ∧
      Unpacked src (pos + (legacyChoice s.cfg src pos c).2) o t ∧
      t = { s with
        ip := s.ip + word16Of (encodeLegacy (legacyChoice s.cfg src pos c).1).length
        out := t.out, outlen := t.outlen } := by
  have hpos : pos < src.length := (List.getElem?_eq_some_iff.1 hc).1
  rcases legacyChoice_cases (cfg := s.cfg) (c := c) hpos.le with ⟨off, l, heq, hl, hmatch⟩ | heq <;>
    rw [heq] at hfits ⊢
  · have htwo : 2 ≤ s.inlen.toNat - s.ip.toNat := hfits
    have hcopy := (h.advanceIp 2).copy hmatch
    have ⟨⟨hlo, hhi⟩, _⟩ := hmatch
    have hoff : off ≤ s.out.length := by
      rw [h.out, List.length_take_of_le hpos.le]
      omega
    refine ⟨_, ?_, hcopy, copy_frame ..⟩
    rw [exec_bref (h.inToken hpos) (hmatch.wf hl), if_pos (by omega),
      reference_copy (s := advanceIp 2 s) h.inStep hlo hoff]
  · exact ⟨_, exec_litOrEsc hcfg (h.inToken hpos) hfits, (h.append hc).advanceIp _, rfl⟩

/-! ### The loop -/

/-- After a token's bytes the stream goes on behind them (40 R101). -/
theorem legacyAhead_advance {s t : State} {bytes rest : ByteString} (h : legacyAhead s = bytes ++ rest)
    (hbuf : t.inbuf = s.inbuf) (hlen : t.inlen = s.inlen) (hip : t.ip = s.ip + word16Of bytes.length) :
    legacyAhead t = rest := by
  have hfits := legacyAhead_length_le s
  rw [h, List.length_append] at hfits
  have hto : t.ip.toNat = s.ip.toNat + bytes.length := by
    have hend := s.inlen.isLt
    have hstart := s.ip.isLt
    rw [hip, BitVec.toNat_add, word16Of, BitVec.toNat_ofNat]
    omega
  calc legacyAhead t = (legacyAhead s).drop bytes.length := by
        rw [legacyAhead, legacyAhead, hbuf, hlen, hto, List.drop_drop]
    _ = rest := by rw [h, List.drop_left]

/-- One iteration at a token that decodes is the token's meaning (40 R101). -/
theorem decodeStep_of_legacy {s : State} {i : Instr} {rest : ByteString} (hin : InToken .legacy s)
    (hd : decodeLegacy (legacyAhead s) = .ok (i, rest)) : decodeStep .legacy s = exec i s := by
  have hstream : i.stream ≠ .command := by rw [(decodeLegacy_sound hd).1]; decide
  rw [← runToken_eq_exec hstream]
  simp only [decodeStep, fetchToken, fetchLegacy, hin.2, if_true, hd]

theorem legacyTokens_of_byte {cfg : Config} {src : ByteString} {n pos : Nat} {c : Byte} (h : src[pos]? = some c) :
    legacyTokens cfg src (n + 1) pos =
      (legacyChoice cfg src pos c).1 :: legacyTokens cfg src n (pos + (legacyChoice cfg src pos c).2) := by
  rw [legacyTokens, h]

/-- The whole source written, the loop ends at its output budget (40 R101). -/
theorem decodeLoop_unpacked_end {src : ByteString} {o : Origin} {s : State} (h : Unpacked src src.length o s) (m : Nat) :
    decodeLoop (m + 1) s = .next { s with stage := .ended .legacy o } := by
  have hmet : s.declen.toNat ≤ s.outlen.toNat := by rw [h.outlen_eq le_rfl, h.budget]
  have hend : decodeStep .legacy s = .next { s with stage := .ended .legacy o } := by
    simp only [decodeStep, fetchToken_of_budget (by decide : Form.legacy ≠ .raw) hmet, endLoop_of_decoding h.stage]
  rw [decodeLoop_of_decoding h.stage, hend]
  exact decodeLoop_of_ended rfl

/-- One iteration at the encoder's token for `pos`: the source's bytes up to where the encoder goes on, and the stream behind
the token. -/
theorem decodeStep_legacyChoice {src rest : ByteString} {pos : Nat} {o : Origin} {s : State} {c : Byte}
    (hcfg : s.cfg.wf = true) (h : Unpacked src pos o s) (hc : src[pos]? = some c)
    (hahead : legacyAhead s = encodeLegacy (legacyChoice s.cfg src pos c).1 ++ rest) :
    ∃ t, decodeStep .legacy s = .next t ∧ Unpacked src (pos + (legacyChoice s.cfg src pos c).2) o t ∧
      legacyAhead t = rest ∧ t = { s with ip := t.ip, out := t.out, outlen := t.outlen } := by
  have hpos : pos < src.length := (List.getElem?_eq_some_iff.1 hc).1
  have hfits := legacyAhead_length_le s
  rw [hahead, List.length_append] at hfits
  obtain ⟨t, ht, hu, hframe⟩ := exec_legacyChoice hcfg h hc ((Nat.le_add_right ..).trans hfits)
  obtain ⟨hstream, hw⟩ := legacyChoice_wf hcfg hpos.le c
  have hd := decodeLegacy_encodeLegacy rest hstream hw
  rw [← hahead] at hd
  refine ⟨t, (decodeStep_of_legacy (h.inToken hpos) hd).trans ht, hu, ?_, ?_⟩
  · exact legacyAhead_advance hahead (by rw [hframe]) (by rw [hframe]) (by rw [hframe])
  · rw [hframe]

/-- From `pos` on, the loop over the encoder's tokens writes the rest of the source (40 R101 to R105, R112 to R114). -/
theorem decodeLoop_legacyTokens {src : ByteString} {o : Origin} {n m pos : Nat} {s : State} (hcfg : s.cfg.wf = true)
    (h : Unpacked src pos o s) (hpos : pos ≤ src.length) (hcover : src.length ≤ pos + n)
    (hahead : legacyAhead s = (legacyTokens s.cfg src n pos).flatMap encodeLegacy)
    (hm : (legacyTokens s.cfg src n pos).length < m) :
    ∃ t, decodeLoop m s = .next t ∧
      t = { s with ip := t.ip, out := src, outlen := t.outlen, stage := .ended .legacy o } := by
  induction n generalizing s m pos with
  | zero =>
    obtain rfl : pos = src.length := by omega
    obtain ⟨m, rfl⟩ := Nat.exists_eq_add_of_le' (Nat.zero_lt_of_lt hm)
    exact ⟨_, decodeLoop_unpacked_end h m, by rw [h.out_eq_source]⟩
  | succ n ih =>
    obtain ⟨m, rfl⟩ := Nat.exists_eq_add_of_le' (Nat.zero_lt_of_lt hm)
    rcases hpos.eq_or_lt with rfl | hlt
    · exact ⟨_, decodeLoop_unpacked_end h m, by rw [h.out_eq_source]⟩
    · have hc : src[pos]? = some src[pos] := List.getElem?_eq_getElem hlt
      obtain ⟨hstep, hend⟩ := legacyChoice_advance (cfg := s.cfg) (c := src[pos]) hlt
      rw [legacyTokens_of_byte hc] at hahead hm
      obtain ⟨u, hu, hunpacked, hrest, hframe⟩ := decodeStep_legacyChoice hcfg h hc hahead
      have hcfg' : u.cfg = s.cfg := by rw [hframe]
      obtain ⟨t, ht, htframe⟩ := ih (hcfg' ▸ hcfg) hunpacked hend (by omega) (hcfg' ▸ hrest)
        (m := m) (by rw [hcfg']; exact Nat.lt_of_succ_lt_succ hm)
      refine ⟨t, ?_, ?_⟩
      · rw [decodeLoop_of_decoding h.stage, hu, andThen_of_next, ht]
      · rw [htframe, hframe]

/-! ### The buffer -/

/-- The buffer: magic, declared length, two zero bytes, the tokens (30 R66; 40 R109). -/
theorem legacyEncode_eq (c : Config) (src : ByteString) :
    legacyEncode c src =
      c.legacyMagic ++ (be16Bytes src.length ++ [0#8, 0#8] ++ (legacyTokens c src src.length 0).flatMap encodeLegacy) := by
  rw [legacyEncode, asmLegacy, legacyHeader, List.append_assoc, List.append_assoc, List.append_assoc]

theorem detect_legacyEncode {c : Config} (h : c.wf = true) (src : ByteString) :
    detect c (legacyEncode c src) = .legacy := by
  have hmagic : (legacyEncode c src).take 4 = c.legacyMagic := by
    rw [legacyEncode_eq, List.take_left' (legacyMagic_length h)]
  rw [detect, hasMagic, hmagic, legacyMagic_length h]
  simp

theorem declen_legacyEncode {c : Config} (h : c.wf = true) {src : ByteString} (hlen : src.length < 2 ^ 16) :
    be16At (legacyEncode c src) 4 = src.length := by
  have hbyte : ∀ j, (legacyEncode c src)[4 + j]? =
      (be16Bytes src.length ++ [0#8, 0#8] ++ (legacyTokens c src src.length 0).flatMap encodeLegacy)[j]? := fun j => by
    rw [legacyEncode_eq, ← legacyMagic_length h, List.getElem?_append_right (Nat.le_add_right ..),
      Nat.add_sub_cancel_left]
  rw [be16At, hbyte 0, hbyte 1]
  exact be16_of_bytes hlen

/-- The state in which the decode of an encoded source starts its loop (40 R100). -/
def legacyOpened (src : ByteString) (s : State) : State :=
  { s with
    mode := .legacy, inbuf := legacyEncode s.cfg src, out := [], outlen := 0#16, stage := .decoding .legacy .host
    inlen := word16Of (legacyEncode s.cfg src).length, declen := word16Of src.length, ip := 8#16 }

theorem beginDecompress_legacyEncode {s : State} {src : ByteString} (h : s.cfg.wf = true) (hlen : src.length < 2 ^ 16) :
    beginDecompress (.host (legacyEncode s.cfg src)) s = legacyOpened src s := by
  have hheader : ¬ (legacyEncode s.cfg src).length < hdrSize := by
    rw [legacyEncode_length h, hdrSize]
    omega
  simp only [beginDecompress, sourceBuffer, detect_legacyEncode h, openDecode, openLegacy, openBuffer, if_neg hheader,
    declen_legacyEncode h hlen, Form.mode, legacyOpened]

/-- Every token has a byte (30 R70 to R72). -/
theorem encodeLegacy_length_pos {i : Instr} (h : i.stream = .legacy) : 1 ≤ (encodeLegacy i).length := by
  cases i with
  | lit _ => exact le_rfl
  | esc _ | bref _ _ => exact one_le_two
  | _ => cases h

theorem legacyTokens_length_le_body {c : Config} (h : c.wf = true) (src : ByteString) (n pos : Nat) :
    (legacyTokens c src n pos).length ≤ ((legacyTokens c src n pos).flatMap encodeLegacy).length := by
  induction n generalizing pos with
  | zero => exact le_rfl
  | succ n ih =>
    cases hb : src[pos]? with
    | none => rw [legacyTokens, hb]; exact le_rfl
    | some b =>
      have hpos : pos < src.length := (List.getElem?_eq_some_iff.1 hb).1
      have hone := encodeLegacy_length_pos (legacyChoice_wf h hpos.le b).1
      rw [legacyTokens_of_byte hb, List.flatMap_cons, List.length_append, List.length_cons]
      have := ih (pos + (legacyChoice c src pos b).2)
      omega

section
variable {src : ByteString} {s : State} (h : s.cfg.wf = true) (hlen : src.length ≤ sMax)
include h hlen

theorem legacyOpened_inlen : (legacyOpened src s).inlen.toNat = (legacyEncode s.cfg src).length := by
  have hsize := legacyEncode_length_le h src
  unfold sMax at hlen
  exact word16Of_toNat (by rw [bufferMax]; omega)

theorem legacyAhead_legacyOpened :
    legacyAhead (legacyOpened src s) = (legacyTokens s.cfg src src.length 0).flatMap encodeLegacy := by
  rw [legacyAhead, legacyOpened_inlen h hlen]
  show ((legacyEncode s.cfg src).take _).drop 8 = _
  rw [List.take_length]
  exact List.drop_left' (legacyHeader_length h _)

theorem legacyTokens_lt_loopBound :
    (legacyTokens s.cfg src src.length 0).length < loopBound (legacyOpened src s) := by
  have hcount := legacyTokens_length_le_body h src src.length 0
  rw [loopBound, legacyOpened_inlen h hlen, legacyEncode_length h]
  omega

/-- The decode loop of an encoded source gives the source back, with no flag. -/
theorem decodeLoop_legacyOpened :
    ∃ t, decodeLoop (loopBound (legacyOpened src s)) (legacyOpened src s) = .next t ∧
      t.out = src ∧ t.stage = .ended .legacy .host ∧ t.mode = .legacy ∧ t.status = s.status ∧ t.cfg = s.cfg ∧
      t.results = s.results := by
  have hstart : Unpacked src 0 .host (legacyOpened src s) :=
    ⟨rfl, rfl, rfl, word16Of_toNat (hlen.trans (by decide))⟩
  obtain ⟨t, ht, hframe⟩ := decodeLoop_legacyTokens (s := legacyOpened src s) h hstart (Nat.zero_le _)
    (Nat.zero_add _).ge (legacyAhead_legacyOpened h hlen) (legacyTokens_lt_loopBound h hlen)
  refine ⟨t, ht, ?_⟩
  rw [hframe]
  exact ⟨rfl, rfl, rfl, rfl, rfl, rfl⟩

end

/-! ### The commands -/

/-- A byte string occurs where the library says it does (40 R106). -/
theorem occurs_iff_infix {p s : ByteString} : occurs p s = true ↔ p <:+: s := by
  induction s with
  | nil => simp [occurs]
  | cons b s ih => rw [occurs, Bool.or_eq_true, List.isPrefixOf_iff_prefix, ih, List.infix_cons_iff]

/-- Post-processing deletes nothing where the snippet is empty or not there (40 R106). -/
theorem dropSnippet_of_absent {s : State} (h : s.cfg.compatSnippet = [] ∨ ¬ s.cfg.compatSnippet <:+: s.out) :
    dropSnippet s = s := by
  rw [dropSnippet, if_neg]
  rintro ⟨hne, hoccurs⟩
  rcases h with h | h
  · exact hne h
  · exact h (occurs_iff_infix.1 hoccurs)

/-- A Legacy decode of a host buffer whose text holds no snippet ends with that text as its result (42 R170). -/
theorem closeDecode_legacy_results {s : State} (hst : s.stage = .ended .legacy .host)
    (h : s.cfg.compatSnippet = [] ∨ ¬ s.cfg.compatSnippet <:+: s.out) :
    (closeDecode s).results = s.results ++ [.decoded s.out s.mode s.status] := by
  have hclose : closeDecode s = finishDecode .legacy .host s := by
    unfold closeDecode
    rw [hst]
  rw [hclose, finishDecode, postProcess, dropSnippet_of_absent h]
  rfl

/-- `COMPRESS_LEGACY` of a source within `S_MAX` returns its Legacy buffer (42 R175). -/
theorem exec_compressLegacy {s : State} {src : ByteString} (hf : s.faulted = false) (hlen : src.length ≤ sMax) :
    ∃ t b, exec (.compressLegacy src) s = .next t ∧
      t.results = s.results ++ [.compressed (legacyEncode s.cfg src) b] := by
  have hnext : ∃ t, execCompressLegacy src s = .next t :=
    ⟨_, (preamble_of_ready ⟨hf, rfl⟩).trans (if_neg (Nat.not_lt.2 hlen))⟩
  obtain ⟨t, ht⟩ := hnext
  obtain ⟨-, -, u, hu, rfl⟩ := execCompressLegacy_next ht
  refine ⟨_, u.status, ht, ?_⟩
  rw [respond_results, hu, flagOversize_results]
  rfl

/-- `DECOMPRESS` of the Legacy buffer of a source returns the source with no flag (40 R115). -/
theorem exec_decompress_legacyEncode {s : State} {src : ByteString} (hf : s.faulted = false) (hcfg : s.cfg.wf = true)
    (hlen : src.length ≤ sMax) (hsnip : s.cfg.compatSnippet = [] ∨ ¬ s.cfg.compatSnippet <:+: src) :
    ∃ t, exec (.decompress (.host (legacyEncode s.cfg src))) s = .next t ∧
      t.results = s.results ++ [.decoded src .legacy 0#8] := by
  have hw : (Instr.decompress (.host (legacyEncode s.cfg src))).wf = true := by
    have hsize := legacyEncode_length_le hcfg src
    unfold sMax at hlen
    exact decide_eq_true (by rw [bufferMax]; omega)
  have hbegin : beginDecompress (.host (legacyEncode s.cfg src)) s.cleared = legacyOpened src s.cleared :=
    beginDecompress_legacyEncode (s := s.cleared) hcfg (hlen.trans_lt (by decide))
  obtain ⟨u, hu, hout, hst, hmode, hstatus, hcfg', hresults⟩ := decodeLoop_legacyOpened (s := s.cleared) hcfg hlen
  refine ⟨closeDecode u, ?_, ?_⟩
  · rw [exec_decompress ⟨hf, hw⟩, hbegin, hu, andThen_of_next]
  · rw [closeDecode_legacy_results hst (by rw [hcfg', hout]; exact hsnip), hresults, hout, hmode, hstatus]
    rfl

/-- Settles O29: the compressed buffer, then its decode in a state with the same parameters. -/
theorem legacyRoundTrip : Obligations.LegacyRoundTrip := by
  intro s v src hs hv hcfg hwf hlen hsnip
  obtain ⟨t, b, ht, hcompressed⟩ := exec_compressLegacy (src := src) hs hlen
  obtain ⟨u, hu, hdecoded⟩ := exec_decompress_legacyEncode hv (hcfg ▸ hwf) hlen (hcfg ▸ hsnip)
  exact ⟨t, b, _, u, ht, hcompressed, hcfg ▸ hu, hdecoded⟩

end Sys2Proof.Machine
end

section
/-! SUPPORT. The Modern tokens: their bits, their one meaning, their effects (30_encoding.md R76 to R79; 41_modern_codec.md R131,
R137, R138, R141 to R147). -/

namespace Sys2Proof.Machine

open Sys2Proof
open Sys2Proof.Laws.EncodingForm (bitsOfNat_length)

/-! ### The bits of a token -/

theorem groupBits_length (t : Nat) : (groupBits t).length = 3 * (t / 7 + 1) := by
  rw [groupBits, List.length_append, List.length_replicate, bitsOfNat_length, Nat.mul_succ]

theorem encodeModern_mlit_length {k : Nat} (h : k ≤ 5) (v : Nat) : (encodeModern (.mlit k v)).length = litBits k := by
  rcases h.eq_or_lt with rfl | hlt
  · rfl
  · have hne : k ≠ 5 := hlt.ne
    simp only [encodeModern, litBits, litWidth, hne, if_false, List.length_cons, List.length_append, List.length_replicate,
      bitsOfNat_length]
    omega

theorem encodeModern_mbrefS_length (offset len : Nat) :
    (encodeModern (.mbrefS offset len)).length = 8 + lengthBits len := by
  simp only [encodeModern, List.length_append, bitsOfNat_length, groupBits_length]
  rfl

theorem encodeModern_mbrefM_length (offset len : Nat) :
    (encodeModern (.mbrefM offset len)).length = 13 + lengthBits len := by
  simp only [encodeModern, List.length_append, bitsOfNat_length, groupBits_length]
  rfl

theorem encodeModern_mbrefL_length (offset len : Nat) :
    (encodeModern (.mbrefL offset len)).length = 17 + lengthBits len := by
  simp only [encodeModern, List.length_append, bitsOfNat_length, groupBits_length]
  rfl

/-! ### The meaning of a token -/

/-- What a Modern token does once its bits are read (41 R141 to R145). -/
def modernEffect : Instr → State → State
  | .mlit k v => literal k v
  | .mbrefS offset len => reference offset len
  | .mbrefM offset len => reference offset len
  | .mbrefL offset len => reference offset len
  | _ => id

/-- The token has the form that `MODERN_RAW_ESCAPE` refuses, `MBREF.M` with `o = 0` (41 R147). -/
def IsRawEscape (i : Instr) : Prop := ∃ len, i = .mbrefM 1 len

/-- A Modern token that is no raw escape reads the bits of its encoding and then has its effect (41 R131, R139). -/
theorem exec_modern {i : Instr} {s : State} (hin : InToken .modern s) (hs : i.stream = .modern) (hw : i.wf = true)
    (hesc : ¬ (s.cfg.modernRawEscape = true ∧ IsRawEscape i)) :
    exec i s = takeBits (encodeModern i).length s fun u => .next (modernEffect i u) := by
  cases i with
  | mlit k v =>
    have hk : k ≤ 5 := by rcases wf_mlit_iff.1 hw with h | h <;> omega
    show execMlit k v s = _
    rw [execMlit, inDecode_of_inToken hin hw, encodeModern_mlit_length hk, modernEffect]
  | mbrefS offset len =>
    show execMbrefS offset len s = _
    rw [execMbrefS, inDecode_of_inToken hin hw, encodeModern_mbrefS_length, modernEffect]
  | mbrefM offset len =>
    have hplain : ¬ (s.cfg.modernRawEscape = true ∧ offset = 1 ∧ s.bitpos.toNat + 13 ≤ 8 * s.inlen.toNat) := by
      rintro ⟨hcfg, rfl, -⟩
      exact hesc ⟨hcfg, len, rfl⟩
    show execMbrefM offset len s = _
    rw [execMbrefM, inDecode_of_inToken hin hw, if_neg hplain, encodeModern_mbrefM_length, modernEffect]
  | mbrefL offset len =>
    show execMbrefL offset len s = _
    rw [execMbrefL, inDecode_of_inToken hin hw, encodeModern_mbrefL_length, modernEffect]
  | _ => cases hs

/-- `BITPOS` behind `n` more bits (41 R131). -/
def advanceBits (n : Nat) (s : State) : State := { s with bitpos := bitIndexOf (s.bitpos.toNat + n) }

/-- A Modern token within the input budget (41 R131, R139). -/
theorem exec_modern_of_fits {i : Instr} {s : State} (hin : InToken .modern s) (hs : i.stream = .modern) (hw : i.wf = true)
    (hesc : ¬ (s.cfg.modernRawEscape = true ∧ IsRawEscape i))
    (hfits : s.bitpos.toNat + (encodeModern i).length ≤ 8 * s.inlen.toNat) :
    exec i s = .next (modernEffect i (advanceBits (encodeModern i).length s)) :=
  (exec_modern hin hs hw hesc).trans (takeBits_of_fits hfits)

/-- Settles O12: the token's bits are beyond the budget, and `takeBits` stops. -/
theorem modernTokenCutShortStops : Obligations.ModernTokenCutShortStops := by
  intro s i o hst hlt hs hw hcfg hbits hshort
  have hesc : ¬ (s.cfg.modernRawEscape = true ∧ IsRawEscape i) := fun h => Bool.false_ne_true (hcfg.symm.trans h.1)
  rw [exec_modern ⟨⟨o, hst⟩, hlt⟩ hs hw hesc, takeBits_of_short hshort, Nat.max_eq_right hbits]
  exact congrArg Host.Outcome.next
    (stop_of_decoding (s := { s with bitpos := bitIndexOf (8 * s.inlen.toNat) }) .trunc hst)

/-- Settles O13: the refusal of `MBREF.M` itself, in the token's own decode. -/
theorem rawEscapeFormIsRefused : Obligations.RawEscapeFormIsRefused :=
  fun _ _ hin hlen hcfg hfits => execMbrefM_rawEscape hin hlen hcfg hfits

/-! ### Literals -/

theorem identityMtf_nodup : identityMtf.Nodup := by
  refine List.Nodup.map_on (fun a ha b hb hab => ?_) List.nodup_range
  rw [← byteOf_toNat_of_lt (List.mem_range.1 ha), hab, byteOf_toNat_of_lt (List.mem_range.1 hb)]

/-- In a permutation of 0..255 a byte stands at its rank and nowhere else (41 R138). -/
theorem getElem?_eq_some_iff_mtfRank {l : ByteString} {c : Byte} {r : Nat} (h : l.Perm identityMtf) :
    l[r]? = some c ↔ r = mtfRank l c := by
  constructor
  · intro hr
    obtain ⟨hlt, rfl⟩ := List.getElem?_eq_some_iff.1 hr
    exact ((h.nodup_iff.2 identityMtf_nodup).idxOf_getElem r hlt).symm
  · rintro rfl
    exact List.getElem?_eq_some_iff.2 ⟨mtfRank_lt h c, List.getElem_idxOf _⟩

theorem mtfRank_lt_256 {l : ByteString} (h : l.Perm identityMtf) (c : Byte) : mtfRank l c < 256 :=
  identityMtf_length ▸ h.length_eq ▸ mtfRank_lt h c

/-- Settles O14: the list has every byte once. -/
theorem mtfRankIsTheOnlyRank : Obligations.MtfRankIsTheOnlyRank :=
  fun _ c h => ⟨mtfRank_lt_256 h c, fun _ _ => getElem?_eq_some_iff_mtfRank h⟩

theorem mtfByte_eq {l : ByteString} {rank : Nat} {c : Byte} (h : l[rank]? = some c) : mtfByte l rank = c := by
  rw [mtfByte, h]
  rfl

/-- The move-to-front list after `MtfTake(rank)` (41 R137). -/
def mtfTake (rank : Nat) (s : State) : State := { s with mtf := mtfPromote s.mtf rank }

/-- A literal code of a rank below 256 takes the byte at it: the byte 0 ends the decode, any other is appended (41 R137, R142). -/
theorem literal_of_rank {k v : Nat} {c : Byte} {s : State} (hk : k ≤ 4) (hrank : litRank k v ≤ 255)
    (hc : s.mtf[litRank k v]? = some c) :
    literal k v s =
      if c = 0#8 then stop .endmark (mtfTake (litRank k v) s) else append c (mtfTake (litRank k v) s) := by
  rw [literal, if_neg (by omega), mtfByte_eq hc]
  rfl

/-- Settles O9: the literal code's bits, then its effect, by whether the byte is 0. -/
theorem mlitAppendsRankedByte : Obligations.MlitAppendsRankedByte := by
  intro s k v c o hst hlt hk hv hrank hfits hc
  have hbits : (encodeModern (.mlit k v)).length = 2 * (4 + k) - 2 := by
    rw [encodeModern_mlit_length (by omega), litBits, if_neg (by omega), litWidth]
  have hesc : ¬ (s.cfg.modernRawEscape = true ∧ IsRawEscape (.mlit k v)) := by
    rintro ⟨-, _, h⟩
    cases h
  rw [exec_modern_of_fits ⟨⟨o, hst⟩, hlt⟩ rfl (wf_mlit_iff.2 (.inl ⟨hk, hv⟩)) hesc (hbits ▸ hfits), hbits, modernEffect,
    literal_of_rank (s := advanceBits _ s) hk hrank hc,
    stop_of_decoding (s := mtfTake _ (advanceBits _ s)) .endmark hst, ← mtfByte_eq hc]
  rfl

/-! ### Back-references -/

/-- Settles O11: the three formats have one meaning, the reference after their bits; corrupt or copied. -/
theorem modernReferencesCopyOrFlag : Obligations.ModernReferencesCopyOrFlag := by
  intro s i offset len n o hst hlt hs hlo hlen hform hfits
  obtain ⟨hstream, hw, rfl, heffect, hesc⟩ : i.stream = .modern ∧ i.wf = true ∧ (encodeModern i).length = n ∧
      modernEffect i = reference offset len ∧ ¬ (s.cfg.modernRawEscape = true ∧ IsRawEscape i) := by
    rcases hform with ⟨rfl, hhi, rfl⟩ | ⟨rfl, hhi, rfl, hraw⟩ | ⟨rfl, hhi, rfl⟩
    · exact ⟨rfl, wf_mbrefS_iff.2 ⟨hlo, hhi, hlen⟩, encodeModern_mbrefS_length .., rfl, by rintro ⟨-, _, h⟩; cases h⟩
    · refine ⟨rfl, wf_mbrefM_iff.2 ⟨hlo, hhi, hlen⟩, encodeModern_mbrefM_length .., rfl, ?_⟩
      rintro ⟨hcfg, _, h⟩
      cases h
      exact hraw.elim (fun h => Bool.false_ne_true (h.symm.trans hcfg)) (fun h => h rfl)
    · exact ⟨rfl, wf_mbrefL_iff.2 ⟨hlo, hhi, hlen⟩, encodeModern_mbrefL_length .., rfl, by rintro ⟨-, _, h⟩; cases h⟩
  have hread : OutInStep (advanceBits (encodeModern i).length s) := hs
  rw [exec_modern_of_fits ⟨⟨o, hst⟩, hlt⟩ hstream hw hesc hfits, heffect]
  refine ⟨fun hbad => ?_, fun hhi => ?_⟩
  · rw [reference_corrupt hread (.inr hbad)]
    rfl
  · rw [reference_copy hread hlo hhi]
    exact ⟨_, rfl, copy_frame .., (copy_inStep hread hlt.le).1, copy_copiedOut hread hlt.le hlo hhi⟩

end Sys2Proof.Machine
end

section
/-! SUPPORT. The Modern match search, the encoder's choices and the size of a Modern buffer (41_modern_codec.md R135, R149 to
R156, R159). -/

namespace Sys2Proof.Machine

open Sys2Proof

/-! ### The Modern search -/

/-- What a scan answers of a match relation whose lengths it compares: no match, or the longest and then the nearest. -/
theorem ScanBest.longest {Match : Nat → Nat → Prop} {lenAt : Nat → Nat} {os : List Nat} {best : Nat × Nat}
    (h : ScanBest lenAt os best) (hmatch : ∀ o l, Match o l ↔ o ∈ os ∧ l ≤ lenAt o) :
    (best = (0, 0) ∧ ∀ o l, Match o l → l = 0) ∨
    (0 < best.1 ∧ Match best.2 best.1 ∧ ∀ o l, Match o l → l ≤ best.1 ∧ (l = best.1 → best.2 ≤ o)) := by
  rcases h with ⟨hnone, hzero⟩ | ⟨hfound, hmem, hlen, hmax⟩
  · refine .inl ⟨hnone, fun o l hm => ?_⟩
    obtain ⟨ho, hl⟩ := (hmatch o l).1 hm
    exact Nat.le_zero.1 (hl.trans_eq (hzero o ho))
  · refine .inr ⟨hfound, (hmatch _ _).2 ⟨hmem, hlen.le⟩, fun o l hm => ?_⟩
    obtain ⟨ho, hl⟩ := (hmatch o l).1 hm
    obtain ⟨hle, hnear⟩ := hmax o ho
    exact ⟨hl.trans hle, fun heq => hnear (hle.antisymm (heq ▸ hl))⟩

/-- `l` bytes at `pos` are matched `o` back, within the window of 41 R151, overlap allowed. -/
def ModernMatch (src : ByteString) (pos o l : Nat) : Prop :=
  (1 ≤ o ∧ o ≤ min pos 32768) ∧ pos + l ≤ src.length ∧ ∀ i < l, src[pos - o + i]? = src[pos + i]?

theorem modernMatch_iff {src : ByteString} {pos o l : Nat} (hpos : pos ≤ src.length) :
    ModernMatch src pos o l ↔ o ∈ List.range' 1 (min pos modWindow) ∧
      l ≤ matchLen src.length (src.drop (pos - o)) (src.drop pos) := by
  have hwindow : o ∈ List.range' 1 (min pos modWindow) ↔ 1 ≤ o ∧ o ≤ min pos 32768 := by
    rw [List.mem_range'_1, modWindow]
    omega
  have hcap : pos + l ≤ src.length ↔ l ≤ src.length ∧ pos + l ≤ src.length := by omega
  rw [le_matchLen_drop_iff hpos, hwindow, ModernMatch, ← and_assoc (a := l ≤ src.length), ← hcap]

/-- The search finds no match, where there is none, or a match that is the longest and then the nearest (41 R151). -/
theorem modernSearch_cases {src : ByteString} {pos : Nat} (hpos : pos ≤ src.length) :
    (modernSearch src pos = (0, 0) ∧ ∀ o l, ModernMatch src pos o l → l = 0) ∨
    (0 < (modernSearch src pos).1 ∧ ModernMatch src pos (modernSearch src pos).2 (modernSearch src pos).1 ∧
      ∀ o l, ModernMatch src pos o l →
        l ≤ (modernSearch src pos).1 ∧ (l = (modernSearch src pos).1 → (modernSearch src pos).2 ≤ o)) :=
  (bestMatch_scanBest ..).longest fun _ _ => modernMatch_iff hpos

/-- Settles O35: the scan keeps the longest match, a later one only if it is strictly longer. -/
theorem modernSearchFindsNearestLongest : Obligations.ModernSearchFindsNearestLongest := by
  intro src pos l o hpos hsearch
  rcases modernSearch_cases hpos.le with ⟨hnone, hzero⟩ | ⟨hfound, hmatch, hmax⟩
  · obtain ⟨rfl, rfl⟩ : 0 = l ∧ 0 = o := Prod.mk.inj (hnone.symm.trans hsearch)
    refine ⟨fun _ => ⟨rfl, fun o' hlo hhi heq => ?_⟩, fun h => absurd h (Nat.lt_irrefl 0)⟩
    have hone : ModernMatch src pos o' 1 := ⟨⟨hlo, hhi⟩, hpos, by simpa using heq⟩
    exact absurd (hzero o' 1 hone) (by decide)
  · rw [hsearch] at hfound hmatch hmax
    obtain ⟨⟨hlo, hhi⟩, hend, hagree⟩ := hmatch
    refine ⟨fun h => absurd h hfound.ne', fun _ => ⟨hlo, hhi, hend, hagree, ?_⟩⟩
    exact fun o' l' hlo' hhi' hend' hagree' => hmax o' l' ⟨⟨hlo', hhi'⟩, hend', hagree'⟩

/-! ### The encoder's choices -/

/-- The choice is a back-reference, cheaper than as many literals, to a match of three bytes or more, or the literal code of the
byte's rank (41 R153). -/
theorem modernChoice_cases {src mtf : ByteString} {pos : Nat} {c : Byte} (hpos : pos ≤ src.length) :
    (∃ o l, modernChoice src pos mtf c = (asmMbref o l, l, mtf) ∧ 3 ≤ l ∧ ModernMatch src pos o l ∧
      refCost o l < litCost (mtfRank mtf c) * l) ∨
    modernChoice src pos mtf c = (mlitOfRank (mtfRank mtf c), 1, mtfPromote mtf (mtfRank mtf c)) := by
  unfold modernChoice
  dsimp only
  split
  · next hbest =>
    refine .inl ⟨_, _, rfl, hbest.1, ?_, hbest.2⟩
    rcases modernSearch_cases hpos with ⟨hnone, -⟩ | ⟨-, hmatch, -⟩
    · rw [hnone] at hbest; exact absurd hbest.1 (by decide)
    · exact hmatch
  · exact .inr rfl

/-- A token encodes at least one source byte, within the source. -/
theorem modernChoice_advance {src mtf : ByteString} {pos : Nat} {c : Byte} (hpos : pos < src.length) :
    1 ≤ (modernChoice src pos mtf c).2.1 ∧ pos + (modernChoice src pos mtf c).2.1 ≤ src.length := by
  rcases modernChoice_cases (mtf := mtf) (c := c) hpos.le with ⟨o, l, h, hl, ⟨-, hend, -⟩, -⟩ | h <;> rw [h]
  · exact ⟨(by decide : 1 ≤ 3).trans hl, hend⟩
  · exact ⟨le_rfl, hpos⟩

theorem modernTokens_of_byte {src mtf : ByteString} {n pos : Nat} {c : Byte} (h : src[pos]? = some c) :
    (modernTokens src (n + 1) pos mtf).1 =
      (modernChoice src pos mtf c).1 ::
        (modernTokens src n (pos + (modernChoice src pos mtf c).2.1) (modernChoice src pos mtf c).2.2).1 := by
  rw [modernTokens, h]

/-- The literal code of a rank has a field of the rank's width, and spells it (30 R76, R77). -/
theorem mlitOfRank_spec {rank : Nat} (h : rank < 256) :
    ∃ k v, mlitOfRank rank = .mlit k v ∧ k ≤ 4 ∧ v < 2 ^ (4 + k) ∧ litRank k v = rank := by
  obtain ⟨hlo, hhi, hfrom, hto⟩ := widthOf_range h
  have hw : 4 + (widthOf rank - 4) = widthOf rank := by omega
  refine ⟨_, _, rfl, by omega, by rw [hw]; omega, ?_⟩
  rw [litRank, litWidth, hw]
  omega

/-! ### The size of a buffer -/

/-- A literal code has at most 14 bits (41 R150). -/
theorem encodeModern_mlitOfRank_length_le {rank : Nat} (h : rank < 256) : (encodeModern (mlitOfRank rank)).length ≤ 14 := by
  obtain ⟨k, v, heq, hk, -⟩ := mlitOfRank_spec h
  rw [heq, encodeModern_mlit_length (by omega), litBits, litWidth]
  split <;> omega

theorem litCost_le {rank : Nat} (h : rank < 256) : litCost rank ≤ 14 := by
  have hw := (widthOf_range h).2.1
  rw [litCost]
  omega

/-- The bits of a back-reference are at most its cost (41 R152, R155). -/
theorem encodeModern_asmMbref_length_le {o l : Nat} (hl : 3 ≤ l) : (encodeModern (asmMbref o l)).length ≤ refCost o l := by
  have hlength : lengthBits l ≤ lengthCost l := by
    rw [lengthBits, lengthCost]
    omega
  unfold asmMbref refCost offsetCost
  split
  · rw [encodeModern_mbrefS_length]; omega
  · split
    · rw [encodeModern_mbrefM_length]; omega
    · rw [encodeModern_mbrefL_length]; omega

/-- A token has at most 14 bits a source byte (41 R159): a back-reference is chosen only where it costs less than literals. -/
theorem encodeModern_modernChoice_length_le {src mtf : ByteString} {pos : Nat} {c : Byte} (hmtf : mtf.Perm identityMtf)
    (hpos : pos ≤ src.length) :
    (encodeModern (modernChoice src pos mtf c).1).length ≤ 14 * (modernChoice src pos mtf c).2.1 := by
  have hrank := mtfRank_lt_256 hmtf c
  rcases modernChoice_cases (mtf := mtf) (c := c) hpos with ⟨o, l, h, hl, -, hcost⟩ | h <;> rw [h]
  · calc (encodeModern (asmMbref o l)).length ≤ refCost o l := encodeModern_asmMbref_length_le hl
      _ ≤ litCost (mtfRank mtf c) * l := hcost.le
      _ ≤ 14 * l := Nat.mul_le_mul_right l (litCost_le hrank)
  · exact encodeModern_mlitOfRank_length_le hrank

/-- The body of a source from `pos` on has at most 14 bits a byte (41 R159). -/
theorem modernTokens_bits_le {src mtf : ByteString} {n pos : Nat} (hmtf : mtf.Perm identityMtf) (hpos : pos ≤ src.length) :
    ((modernTokens src n pos mtf).1.flatMap encodeModern).length ≤ 14 * (src.length - pos) := by
  induction n generalizing pos mtf with
  | zero => exact Nat.zero_le _
  | succ n ih =>
    cases hb : src[pos]? with
    | none => rw [modernTokens, hb]; exact Nat.zero_le _
    | some c =>
      have hlt : pos < src.length := (List.getElem?_eq_some_iff.1 hb).1
      have htoken := encodeModern_modernChoice_length_le (c := c) hmtf hpos
      have hadvance := (modernChoice_advance (mtf := mtf) (c := c) hlt).2
      have hrest := ih (modernChoice_mtf_perm (src := src) (pos := pos) (c := c) hmtf) hadvance
      rw [modernTokens_of_byte hb, List.flatMap_cons, List.length_append]
      omega

theorem flushBits_length (bits : List Bool) : (flushBits bits).length = (bits.length + 7) / 8 := by
  rw [flushBits, List.length_map, List.length_range']

theorem modernMagic_length {c : Config} (h : c.wf = true) : c.modernMagic.length = 4 := by
  simp only [Config.wf, Bool.and_eq_true, beq_iff_eq] at h
  obtain ⟨⟨⟨⟨⟨⟨⟨⟨-, hlen⟩, -⟩, -⟩, -⟩, -⟩, -⟩, -⟩, -⟩ := h
  exact hlen

/-- The bits of a source's tokens (41 R154 to R156). -/
def modernBits (src : ByteString) : List Bool := (modernTokens src src.length 0 identityMtf).1.flatMap encodeModern

theorem modernBits_length_le (src : ByteString) : (modernBits src).length ≤ 14 * src.length :=
  modernTokens_bits_le (List.Perm.refl _) (Nat.zero_le _)

theorem modernEncode_eq (c : Config) (src : ByteString) :
    (modernEncode c src).1 = c.modernMagic ++ be16Bytes src.length ++
      be16Bytes (hdrSize + (flushBits (modernBits src)).length) ++ flushBits (modernBits src) := rfl

/-- The buffer is its header of eight bytes and its body (30 R67). -/
theorem modernEncode_length {c : Config} (h : c.wf = true) (src : ByteString) :
    (modernEncode c src).1.length = 8 + (flushBits (modernBits src)).length := by
  rw [modernEncode_eq, List.length_append, List.length_append, List.length_append, modernMagic_length h]
  rfl

theorem modernEncode_length_le {c : Config} (h : c.wf = true) (src : ByteString) :
    (modernEncode c src).1.length ≤ 8 + (14 * src.length + 7) / 8 := by
  rw [modernEncode_length h, flushBits_length]
  have := modernBits_length_le src
  omega

/-- Settles O32: 14 bits a source byte, after the header of eight bytes. -/
theorem modernBufferSize : Obligations.ModernBufferSize := by
  intro c src hc
  have hsize := modernEncode_length_le hc src
  exact ⟨hsize, fun _ => by omega⟩

end Sys2Proof.Machine
end

section
/-! SUPPORT. The Modern round trip: the decode of an encoded source, token by token (41_modern_codec.md R130 to R157). -/

namespace Sys2Proof.Machine

open Sys2Proof

/-! ### The bits of the body -/

/-- The bits of a number's low byte in stream order (30 R74; 41 R134). -/
theorem bitsOfByte_byteOf (n : Nat) : bitsOfByte (byteOf n) = bitsOfNat 8 n := by
  have hbit : ∀ i, i < 8 → (byteOf n).getLsbD i = (n / 2 ^ i % 2 == 1) := fun i hi => by
    rw [byteOf, BitVec.getLsbD_ofNat, decide_eq_true hi, Bool.true_and, Nat.testBit_eq_decide_div_mod_eq]
    rfl
  rw [bitsOfByte, hbit 0 (by decide), hbit 1 (by decide), hbit 2 (by decide), hbit 3 (by decide), hbit 4 (by decide),
    hbit 5 (by decide), hbit 6 (by decide), hbit 7 (by decide)]
  simp only [bitsOfNat, Nat.div_div_eq_div_mul, pow_zero, Nat.div_one, Nat.reduceMul, Nat.reducePow]

/-- Writing a number's bits gives back the bits it was read from, and 0 bits above them (41 R132, R134). -/
theorem bitsOfNat_natOfBits {n : Nat} {bits : List Bool} (h : bits.length ≤ n) :
    bitsOfNat n (natOfBits bits) = bits ++ List.replicate (n - bits.length) false := by
  induction n generalizing bits with
  | zero => rw [List.length_eq_zero_iff.1 (Nat.le_zero.1 h)]; rfl
  | succ n ih =>
    cases bits with
    | nil => simpa [natOfBits, bitsOfNat, List.replicate_succ] using ih (bits := []) (Nat.zero_le n)
    | cons b bits =>
      have hb := Bool.toNat_lt b
      have hhalf : (b.toNat + 2 * natOfBits bits) / 2 = natOfBits bits := by omega
      rw [natOfBits, bitsOfNat, hhalf, ih (Nat.le_of_succ_le_succ h), List.length_cons, Nat.add_sub_add_right]
      cases b <;> simp

/-- A flush writes the first eight bits, or all there are, as a byte, and then the rest (41 R135). -/
theorem flushBits_of_ne_nil {bits : List Bool} (h : bits ≠ []) :
    flushBits bits = byteOf (natOfBits (bits.take 8)) :: flushBits (bits.drop 8) := by
  have hpos := List.length_pos_iff.2 h
  have hcount : (bits.length + 7) / 8 = ((bits.drop 8).length + 7) / 8 + 1 := by
    rw [List.length_drop]
    omega
  rw [flushBits, hcount, List.range'_succ, List.map_cons, flushBits, ← List.map_add_range' 0 _ 1]
  simp [List.drop_drop, Nat.mul_add, Nat.add_comm]

/-- The bits of a flushed body begin with the bits written (41 R135). -/
theorem isPrefix_bitsOf_flushBits (bits : List Bool) : bits <+: bitsOf (flushBits bits) := by
  induction hn : bits.length using Nat.strong_induction_on generalizing bits with
  | _ n ih =>
    subst hn
    by_cases hnil : bits = []
    · rw [hnil]; exact List.nil_prefix
    rw [flushBits_of_ne_nil hnil, bitsOf, bitsOfByte_byteOf, bitsOfNat_natOfBits (List.length_take_le 8 bits)]
    rcases Nat.le_total bits.length 8 with hle | hge
    · rw [List.take_of_length_le hle, List.append_assoc]
      exact List.prefix_append ..
    · have hrest : bits.drop 8 <+: bitsOf (flushBits (bits.drop 8)) := by
        have hpos := List.length_pos_iff.2 hnil
        exact ih _ (by rw [List.length_drop]; omega) _ rfl
      rw [List.length_take_of_le hge, Nat.sub_self, List.replicate_zero, List.append_nil]
      conv_lhs => rw [← List.take_append_drop 8 bits]
      exact (List.prefix_append_right_inj _).2 hrest

theorem bitsOf_drop (bs : ByteString) (k : Nat) : bitsOf (bs.drop k) = (bitsOf bs).drop (8 * k) := by
  induction k generalizing bs with
  | zero => rfl
  | succ k ih =>
    cases bs with
    | nil => rw [List.drop_nil, bitsOf, List.drop_nil]
    | cons b bs => exact ih bs

/-- The bits ahead are the bits of the body from `BITPOS` on (41 R131). -/
theorem modernAhead_eq (s : State) :
    modernAhead s = (bitsOf ((s.inbuf.drop hdrSize).take s.inlen.toNat)).drop s.bitpos.toNat := by
  rw [modernAhead, bitsOf_drop, List.drop_drop, Nat.div_add_mod]

/-! ### One token -/

/-- A Modern decode under way has written the first `pos` bytes of `src`, of the whole length it declares, with the list `mtf`. -/
structure ModernUnpacked (src : ByteString) (pos : Nat) (o : Origin) (mtf : ByteString) (s : State) : Prop where
  stage : s.stage = .decoding .modern o
  out : s.out = src.take pos
  inStep : OutInStep s
  budget : s.declen.toNat = src.length
  list : s.mtf = mtf

section
variable {src mtf : ByteString} {pos : Nat} {o : Origin} {s : State}

theorem ModernUnpacked.outlen_eq (h : ModernUnpacked src pos o mtf s) (hpos : pos ≤ src.length) : s.outlen.toNat = pos := by
  have hs : s.outlen.toNat = s.out.length := h.inStep
  rw [hs, h.out, List.length_take_of_le hpos]

theorem ModernUnpacked.out_eq_source (h : ModernUnpacked src src.length o mtf s) : s.out = src := by
  rw [h.out, List.take_length]

theorem ModernUnpacked.inToken (h : ModernUnpacked src pos o mtf s) (hpos : pos < src.length) : InToken .modern s :=
  ⟨⟨o, h.stage⟩, by rw [h.outlen_eq hpos.le, h.budget]; exact hpos⟩

theorem ModernUnpacked.advanceBits (h : ModernUnpacked src pos o mtf s) (n : Nat) :
    ModernUnpacked src pos o mtf (advanceBits n s) :=
  ⟨h.stage, h.out, h.inStep, h.budget, h.list⟩

/-- The literal code of the next byte's rank appends the byte and moves it to the front, as the encoder does (41 R142, R154). -/
theorem ModernUnpacked.literal {k v : Nat} {c : Byte} (h : ModernUnpacked src pos o mtf s) (hc : src[pos]? = some c)
    (h0 : c ≠ 0#8) (hmtf : mtf.Perm identityMtf) (hk : k ≤ 4) (hrank : litRank k v = mtfRank mtf c) :
    literal k v s = Machine.append c (mtfTake (mtfRank mtf c) s) ∧
      ModernUnpacked src (pos + 1) o (mtfPromote mtf (mtfRank mtf c)) (Machine.append c (mtfTake (mtfRank mtf c) s)) := by
  have hpos : pos < src.length := (List.getElem?_eq_some_iff.1 hc).1
  have hlt := mtfRank_lt_256 hmtf c
  have hbyte : s.mtf[litRank k v]? = some c := by rw [h.list, hrank]; exact (getElem?_eq_some_iff_mtfRank hmtf).2 rfl
  refine ⟨by rw [literal_of_rank hk (by omega) hbyte, if_neg h0, hrank], h.stage, ?_, ?_, h.budget, ?_⟩
  · show s.out ++ [c] = _
    rw [h.out, List.take_add_one, hc]
    rfl
  · exact (append_inStep (s := mtfTake _ s) h.inStep (h.inToken hpos).2).1
  · show mtfPromote s.mtf _ = _
    rw [h.list]

/-- A back-reference to a match of the source appends the bytes matched (41 R146, R151). -/
theorem ModernUnpacked.reference {offset len : Nat} (h : ModernUnpacked src pos o mtf s)
    (hmatch : ModernMatch src pos offset len) :
    reference offset len s = copy len offset s ∧ ModernUnpacked src (pos + len) o mtf (copy len offset s) := by
  obtain ⟨⟨hlo, hhi⟩, hend, hagree⟩ := hmatch
  have hpos : pos ≤ src.length := by omega
  have hle : s.outlen.toNat ≤ s.declen.toNat := by rw [h.outlen_eq hpos, h.budget]; exact hpos
  have hoff : offset ≤ s.out.length := by rw [h.out, List.length_take_of_le hpos]; omega
  have hcopied := copy_copiedOut (n := len) h.inStep hle hlo hoff
  rw [h.out] at hcopied
  have hout := hcopied.eq_take hend (by rw [h.budget]; exact hend) hlo (by omega) hagree
  refine ⟨reference_copy h.inStep hlo hoff, ?_, hout, (copy_inStep h.inStep hle).1, ?_, ?_⟩ <;> rw [copy_frame]
  · exact h.stage
  · exact h.budget
  · exact h.list

end

/-- The narrowest form of a back-reference fits its fields and is no raw escape: that form's offset would be `MBREF.S`'s
(30 R78; 41 R147, R155). -/
theorem asmMbref_wf {o l : Nat} (hlo : 1 ≤ o) (hhi : o ≤ 32768) (hl : 3 ≤ l) :
    (asmMbref o l).stream = .modern ∧ (asmMbref o l).wf = true ∧ ¬ IsRawEscape (asmMbref o l) := by
  unfold asmMbref
  split
  · next hS => exact ⟨rfl, wf_mbrefS_iff.2 ⟨hlo, hS, hl⟩, by rintro ⟨_, h⟩; cases h⟩
  · next hS =>
    split
    · next hM => exact ⟨rfl, wf_mbrefM_iff.2 ⟨hlo, hM, hl⟩, by rintro ⟨_, h⟩; cases h; exact hS (by decide)⟩
    · exact ⟨rfl, wf_mbrefL_iff.2 ⟨hlo, hhi, hl⟩, by rintro ⟨_, h⟩; cases h⟩

theorem modernEffect_asmMbref (o l : Nat) : modernEffect (asmMbref o l) = reference o l := by
  unfold asmMbref
  split
  · rfl
  · split <;> rfl

/-- The encoder chooses well-formed Modern tokens, and never the raw escape (41 R153 to R155). -/
theorem modernChoice_wf {src mtf : ByteString} {pos : Nat} (hmtf : mtf.Perm identityMtf) (hpos : pos ≤ src.length) (c : Byte) :
    (modernChoice src pos mtf c).1.stream = .modern ∧ (modernChoice src pos mtf c).1.wf = true ∧
      ¬ IsRawEscape (modernChoice src pos mtf c).1 := by
  rcases modernChoice_cases (mtf := mtf) (c := c) hpos with ⟨o, l, h, hl, ⟨⟨hlo, hhi⟩, -⟩, -⟩ | h <;> rw [h]
  · exact asmMbref_wf hlo (by omega) hl
  · obtain ⟨k, v, heq, hk, hv, -⟩ := mlitOfRank_spec (mtfRank_lt_256 hmtf c)
    rw [heq]
    exact ⟨rfl, wf_mlit_iff.2 (.inl ⟨hk, hv⟩), by rintro ⟨_, h⟩; cases h⟩

/-- The effect of the token chosen at `pos`: the source's bytes up to where the encoder goes on, and the encoder's list
(41 R142 to R146, R153 to R155). -/
theorem modernEffect_modernChoice {src mtf : ByteString} {pos : Nat} {o : Origin} {s : State} {c : Byte}
    (hmtf : mtf.Perm identityMtf) (h : ModernUnpacked src pos o mtf s) (hc : src[pos]? = some c) (h0 : c ≠ 0#8) :
    ∃ t, modernEffect (modernChoice src pos mtf c).1 s = t ∧
      ModernUnpacked src (pos + (modernChoice src pos mtf c).2.1) o (modernChoice src pos mtf c).2.2 t ∧
      t = { s with out := t.out, outlen := t.outlen, mtf := t.mtf } := by
  have hpos : pos < src.length := (List.getElem?_eq_some_iff.1 hc).1
  rcases modernChoice_cases (mtf := mtf) (c := c) hpos.le with ⟨off, l, heq, -, hmatch, -⟩ | heq <;> rw [heq]
  · obtain ⟨hcopy, hunpacked⟩ := h.reference hmatch
    refine ⟨_, (congrFun (modernEffect_asmMbref off l) s).trans hcopy, hunpacked, ?_⟩
    rw [copy_frame]
  · obtain ⟨k, v, hcode, hk, -, hrank⟩ := mlitOfRank_spec (mtfRank_lt_256 hmtf c)
    obtain ⟨hliteral, hunpacked⟩ := h.literal hc h0 hmtf hk hrank
    exact ⟨_, by rw [hcode]; exact hliteral, hunpacked, rfl⟩

/-! ### The loop -/

theorem advanceBits_toNat {n : Nat} {s : State} (h : s.bitpos.toNat + n ≤ 8 * s.inlen.toNat) :
    (advanceBits n s).bitpos.toNat = s.bitpos.toNat + n := by
  have hlen := s.inlen.isLt
  show (bitIndexOf (s.bitpos.toNat + n)).toNat = _
  rw [bitIndexOf, BitVec.toNat_ofNat]
  omega

/-- After a token's bits the stream goes on behind them (41 R131). -/
theorem modernAhead_advance {s t : State} {bits rest : List Bool} (h : modernAhead s = bits ++ rest)
    (hbuf : t.inbuf = s.inbuf) (hlen : t.inlen = s.inlen) (hpos : t.bitpos.toNat = s.bitpos.toNat + bits.length) :
    modernAhead t = rest := by
  calc modernAhead t = (modernAhead s).drop bits.length := by
        rw [modernAhead_eq, modernAhead_eq, hbuf, hlen, hpos, List.drop_drop]
    _ = rest := by rw [h, List.drop_left]

/-- One iteration at a token that decodes and is no raw escape is the token's meaning (41 R139). -/
theorem decodeStep_of_modern {s : State} {i : Instr} {rest : List Bool} (hin : InToken .modern s) (hplain : ¬ IsRawEscape i)
    (hd : decodeModern (modernAhead s) = .ok (i, rest)) : decodeStep .modern s = exec i s := by
  have hstream : i.stream ≠ .command := by rw [(decodeModern_sound hd).1]; decide
  have hesc : ¬ (s.cfg.modernRawEscape = true ∧ escapeAhead (modernAhead s) = true) := by
    rintro ⟨-, hahead⟩
    obtain ⟨tail, hbits⟩ := escapeAhead_iff.1 hahead
    rw [hbits] at hd
    exact hplain (decodeModern_escape hd)
  rw [← runToken_eq_exec hstream]
  simp only [decodeStep, fetchToken, fetchModern, hin.2, if_true, hesc, if_false, hd]

/-- Every token has a bit, its kind bit (30 R75). -/
theorem encodeModern_length_pos {i : Instr} (hs : i.stream = .modern) (hw : i.wf = true) : 1 ≤ (encodeModern i).length := by
  cases i with
  | mlit k v =>
    obtain ⟨kind, rest, heq, -⟩ := Laws.EncodingForm.mlit k v hw
    rw [heq]
    exact Nat.le_add_left ..
  | mbrefS _ _ | mbrefM _ _ | mbrefL _ _ => exact Nat.le_add_left ..
  | _ => cases hs

/-- One iteration at the encoder's token for `pos`: the source's bytes up to where the encoder goes on, the encoder's list, and
the stream behind the token. -/
theorem decodeStep_modernChoice {src mtf : ByteString} {rest : List Bool} {pos : Nat} {o : Origin} {s : State} {c : Byte}
    (hmtf : mtf.Perm identityMtf) (h : ModernUnpacked src pos o mtf s) (hc : src[pos]? = some c) (h0 : c ≠ 0#8)
    (hahead : modernAhead s = encodeModern (modernChoice src pos mtf c).1 ++ rest) :
    ∃ t, decodeStep .modern s = .next t ∧
      ModernUnpacked src (pos + (modernChoice src pos mtf c).2.1) o (modernChoice src pos mtf c).2.2 t ∧
      modernAhead t = rest ∧ t = { s with bitpos := t.bitpos, out := t.out, outlen := t.outlen, mtf := t.mtf } := by
  have hpos : pos < src.length := (List.getElem?_eq_some_iff.1 hc).1
  obtain ⟨hstream, hw, hplain⟩ := modernChoice_wf hmtf hpos.le c
  have hbits := modernAhead_length_le s
  rw [hahead, List.length_append] at hbits
  have hlong := encodeModern_length_pos hstream hw
  have hfits : s.bitpos.toNat + (encodeModern (modernChoice src pos mtf c).1).length ≤ 8 * s.inlen.toNat := by omega
  have hd := decodeModern_encodeModern rest hstream hw
  rw [← hahead] at hd
  obtain ⟨t, ht, hunpacked, hframe⟩ := modernEffect_modernChoice hmtf (h.advanceBits _) hc h0
  refine ⟨t, ?_, hunpacked, ?_, ?_⟩
  · rw [decodeStep_of_modern (h.inToken hpos) hplain hd,
      exec_modern_of_fits (h.inToken hpos) hstream hw (fun hesc => hplain hesc.2) hfits, ht]
  · refine modernAhead_advance hahead ?_ ?_ ?_ <;> rw [hframe]
    · rfl
    · rfl
    · exact advanceBits_toNat hfits
  · rw [hframe]; rfl

/-- The whole source written, the loop ends at its output budget (41 R139). -/
theorem decodeLoop_modernUnpacked_end {src mtf : ByteString} {o : Origin} {s : State}
    (h : ModernUnpacked src src.length o mtf s) (m : Nat) :
    decodeLoop (m + 1) s = .next { s with stage := .ended .modern o } := by
  have hmet : s.declen.toNat ≤ s.outlen.toNat := by rw [h.outlen_eq le_rfl, h.budget]
  have hend : decodeStep .modern s = .next { s with stage := .ended .modern o } := by
    simp only [decodeStep, fetchToken_of_budget (by decide : Form.modern ≠ .raw) hmet, endLoop_of_decoding h.stage]
  rw [decodeLoop_of_decoding h.stage, hend]
  exact decodeLoop_of_ended rfl

/-- From `pos` on, the loop over the encoder's tokens writes the rest of the source, whatever bits follow them (41 R139 to R146,
R153 to R155). -/
theorem decodeLoop_modernTokens {src mtf : ByteString} {pad : List Bool} {o : Origin} {n m pos : Nat} {s : State}
    (h0 : 0#8 ∉ src) (hmtf : mtf.Perm identityMtf) (h : ModernUnpacked src pos o mtf s) (hpos : pos ≤ src.length)
    (hcover : src.length ≤ pos + n)
    (hahead : modernAhead s = (modernTokens src n pos mtf).1.flatMap encodeModern ++ pad)
    (hm : (modernTokens src n pos mtf).1.length < m) :
    ∃ t, decodeLoop m s = .next t ∧
      t = { s with
        bitpos := t.bitpos, out := src, outlen := t.outlen, mtf := t.mtf, stage := .ended .modern o } := by
  obtain ⟨m, rfl⟩ := Nat.exists_eq_add_of_le' (Nat.zero_lt_of_lt hm)
  induction n generalizing s m pos mtf with
  | zero =>
    obtain rfl : pos = src.length := by omega
    exact ⟨_, decodeLoop_modernUnpacked_end h m, by rw [h.out_eq_source]⟩
  | succ n ih =>
    rcases hpos.eq_or_lt with rfl | hlt
    · exact ⟨_, decodeLoop_modernUnpacked_end h m, by rw [h.out_eq_source]⟩
    · have hc : src[pos]? = some src[pos] := List.getElem?_eq_getElem hlt
      have hne : src[pos] ≠ 0#8 := fun heq => h0 (heq ▸ List.getElem_mem hlt)
      obtain ⟨hstep, hend⟩ := modernChoice_advance (mtf := mtf) (c := src[pos]) hlt
      rw [modernTokens_of_byte hc] at hahead hm
      rw [List.flatMap_cons, List.append_assoc] at hahead
      obtain ⟨u, hu, hunpacked, hrest, hframe⟩ := decodeStep_modernChoice hmtf h hc hne hahead
      rw [List.length_cons] at hm
      obtain ⟨m, rfl⟩ := Nat.exists_eq_add_of_le' (show 1 ≤ m by omega)
      obtain ⟨t, ht, htframe⟩ :=
        ih (modernChoice_mtf_perm hmtf) hunpacked hend (by omega) hrest m (Nat.lt_of_succ_lt_succ hm)
      refine ⟨t, ?_, ?_⟩
      · rw [decodeLoop_of_decoding h.stage, hu, andThen_of_next, ht]
      · rw [htframe, hframe]

/-! ### The buffer -/

/-- The bits of the body hold as many tokens at most (30 R75). -/
theorem modernTokens_length_le_bits {src mtf : ByteString} {n pos : Nat} (hmtf : mtf.Perm identityMtf) :
    (modernTokens src n pos mtf).1.length ≤ ((modernTokens src n pos mtf).1.flatMap encodeModern).length := by
  induction n generalizing pos mtf with
  | zero => exact le_rfl
  | succ n ih =>
    cases hb : src[pos]? with
    | none => rw [modernTokens, hb]; exact le_rfl
    | some c =>
      obtain ⟨hstream, hw, -⟩ := modernChoice_wf hmtf (List.getElem?_eq_some_iff.1 hb).1.le c
      have hone := encodeModern_length_pos hstream hw
      have hrest := ih (pos := pos + (modernChoice src pos mtf c).2.1)
        (modernChoice_mtf_perm (src := src) (pos := pos) (c := c) hmtf)
      rw [modernTokens_of_byte hb, List.flatMap_cons, List.length_append, List.length_cons]
      omega

/-- A 16-bit number written high byte first is read back where it stands (00 R8). -/
theorem be16At_append {pre rest : ByteString} {i n : Nat} (hi : pre.length = i) (hn : n < 2 ^ 16) :
    be16At (pre ++ (be16Bytes n ++ rest)) i = n := by
  have hbyte : ∀ j, (pre ++ (be16Bytes n ++ rest))[i + j]? = (be16Bytes n ++ rest)[j]? := fun j => by
    rw [← hi, List.getElem?_append_right (Nat.le_add_right ..), Nat.add_sub_cancel_left]
  rw [be16At, hbyte 1, ← Nat.add_zero i, hbyte 0]
  exact be16_of_bytes hn

theorem magics_ne {c : Config} (h : c.wf = true) : c.legacyMagic ≠ c.modernMagic := by
  simp only [Config.wf, Bool.and_eq_true, bne_iff_ne] at h
  obtain ⟨⟨⟨⟨⟨⟨⟨-, hne⟩, -⟩, -⟩, -⟩, -⟩, -⟩, -⟩ := h
  exact hne

theorem detect_modernEncode {c : Config} (h : c.wf = true) (src : ByteString) :
    detect c (modernEncode c src).1 = .modern := by
  have hmagic : (modernEncode c src).1.take 4 = c.modernMagic := by
    rw [modernEncode_eq, List.append_assoc, List.append_assoc, List.take_left' (modernMagic_length h)]
  simp [detect, hasMagic, hmagic, modernMagic_length h, (magics_ne h).symm]

/-- The state in which the decode of an encoded source starts its loop (41 R130). -/
def modernOpened (src : ByteString) (s : State) : State :=
  { s with
    mode := .modern, inbuf := (modernEncode s.cfg src).1, out := [], outlen := 0#16, stage := .decoding .modern .host
    declen := word16Of src.length, inlen := word16Of (flushBits (modernBits src)).length, bitpos := 0#19
    mtf := identityMtf }

section
variable {src : ByteString} {s : State} (h : s.cfg.wf = true) (hlen : src.length ≤ sMax)

include hlen in
theorem modernBody_length_le : (flushBits (modernBits src)).length ≤ 27314 := by
  have hbits := modernBits_length_le src
  unfold sMax at hlen
  rw [flushBits_length]
  omega

include h hlen

theorem declen_modernEncode : be16At (modernEncode s.cfg src).1 4 = src.length := by
  unfold sMax at hlen
  rw [modernEncode_eq, List.append_assoc, List.append_assoc]
  exact be16At_append (modernMagic_length h) (by omega)

theorem ccount_modernEncode : be16At (modernEncode s.cfg src).1 6 = (modernEncode s.cfg src).1.length := by
  have hbody := modernBody_length_le hlen
  have hheader : (s.cfg.modernMagic ++ be16Bytes src.length).length = 6 := by
    rw [List.length_append, modernMagic_length h]
    rfl
  rw [modernEncode_length h, modernEncode_eq, List.append_assoc _ (be16Bytes (hdrSize + _))]
  exact be16At_append hheader (by rw [hdrSize]; omega)

theorem beginDecompress_modernEncode :
    beginDecompress (.host (modernEncode s.cfg src).1) s = modernOpened src s := by
  have hheader : ¬ (modernEncode s.cfg src).1.length < hdrSize := by
    rw [modernEncode_length h, hdrSize]
    omega
  have hbody : (modernEncode s.cfg src).1.length - hdrSize = (flushBits (modernBits src)).length := by
    rw [modernEncode_length h, hdrSize, Nat.add_sub_cancel_left]
  simp only [beginDecompress, sourceBuffer, detect_modernEncode h, openDecode, openModern, openBuffer, if_neg hheader,
    declen_modernEncode h hlen, ccount_modernEncode h hlen, Nat.min_self, hbody, mtfInit, Form.mode, modernOpened]

omit h in
theorem modernOpened_inlen : (modernOpened src s).inlen.toNat = (flushBits (modernBits src)).length :=
  word16Of_toNat ((modernBody_length_le hlen).trans (by decide))

/-- The stream begins with the bits of the source's tokens; the padding of the last byte follows (41 R135, R156). -/
theorem modernAhead_modernOpened : modernBits src <+: modernAhead (modernOpened src s) := by
  have hbody : (modernEncode s.cfg src).1.drop 8 = flushBits (modernBits src) := by
    refine List.drop_left' ?_
    rw [List.length_append, List.length_append, modernMagic_length h]
    rfl
  have hahead : modernAhead (modernOpened src s) = bitsOf (flushBits (modernBits src)) := by
    rw [modernAhead_eq, modernOpened_inlen hlen]
    show (bitsOf (((modernEncode s.cfg src).1.drop 8).take _)).drop 0 = _
    rw [hbody, List.take_length, List.drop_zero]
  rw [hahead]
  exact isPrefix_bitsOf_flushBits _

omit h in
theorem modernTokens_lt_loopBound :
    (modernTokens src src.length 0 identityMtf).1.length < loopBound (modernOpened src s) := by
  have hcount : _ ≤ (modernBits src).length :=
    modernTokens_length_le_bits (src := src) (n := src.length) (pos := 0) (List.Perm.refl identityMtf)
  rw [loopBound, modernOpened_inlen hlen, flushBits_length]
  omega

/-- The decode loop of an encoded source gives the source back, with no flag (41 R157). -/
theorem decodeLoop_modernOpened (h0 : 0#8 ∉ src) :
    ∃ t, decodeLoop (loopBound (modernOpened src s)) (modernOpened src s) = .next t ∧
      t.out = src ∧ t.stage = .ended .modern .host ∧ t.mode = .modern ∧ t.status = s.status ∧ t.results = s.results := by
  have hstart : ModernUnpacked src 0 .host identityMtf (modernOpened src s) :=
    ⟨rfl, rfl, rfl, word16Of_toNat (hlen.trans (by decide)), rfl⟩
  obtain ⟨pad, hahead⟩ := modernAhead_modernOpened h hlen
  obtain ⟨t, ht, hframe⟩ := decodeLoop_modernTokens h0 (List.Perm.refl _) hstart (Nat.zero_le _) (Nat.zero_add _).ge
    hahead.symm (modernTokens_lt_loopBound hlen)
  refine ⟨t, ht, ?_⟩
  rw [hframe]
  exact ⟨rfl, rfl, rfl, rfl, rfl⟩

end

/-! ### The commands -/

/-- A Modern decode of a host buffer ends with what it has written as its result (41 R140; 42 R170). -/
theorem closeDecode_modern_results {s : State} (hst : s.stage = .ended .modern .host) :
    (closeDecode s).results = s.results ++ [.decoded s.out s.mode s.status] := by
  have hclose : closeDecode s = finishDecode .modern .host s := by
    unfold closeDecode
    rw [hst]
  rw [hclose]
  rfl

/-- `COMPRESS_MODERN` of a source within its domain returns its Modern buffer (41 R148; 42 R176). -/
theorem exec_compressModern {s : State} {src : ByteString} (hf : s.faulted = false) (hlen : src.length ≤ sMax)
    (h0 : 0#8 ∉ src) :
    ∃ t b, exec (.compressModern src) s = .next t ∧
      t.results = s.results ++ [.compressed (modernEncode s.cfg src).1 b] := by
  have hnext : ∃ t, execCompressModern src s = .next t :=
    ⟨_, (preamble_of_ready ⟨hf, rfl⟩).trans ((if_neg (Nat.not_lt.2 hlen)).trans (if_neg h0))⟩
  obtain ⟨t, ht⟩ := hnext
  obtain ⟨-, -, -, u, hu, rfl⟩ := execCompressModern_next ht
  refine ⟨_, u.status, ht, ?_⟩
  rw [respond_results, hu, flagOversize_results]
  rfl

/-- `DECOMPRESS` of the Modern buffer of a source returns the source with no flag (41 R157). -/
theorem exec_decompress_modernEncode {s : State} {src : ByteString} (hf : s.faulted = false) (hcfg : s.cfg.wf = true)
    (hlen : src.length ≤ sMax) (h0 : 0#8 ∉ src) :
    ∃ t, exec (.decompress (.host (modernEncode s.cfg src).1)) s = .next t ∧
      t.results = s.results ++ [.decoded src .modern 0#8] := by
  have hw : (Instr.decompress (.host (modernEncode s.cfg src).1)).wf = true := by
    have hbody := modernBody_length_le hlen
    exact decide_eq_true (by rw [modernEncode_length hcfg, bufferMax]; omega)
  have hbegin : beginDecompress (.host (modernEncode s.cfg src).1) s.cleared = modernOpened src s.cleared :=
    beginDecompress_modernEncode (s := s.cleared) hcfg hlen
  obtain ⟨u, hu, hout, hst, hmode, hstatus, hresults⟩ := decodeLoop_modernOpened (s := s.cleared) hcfg hlen h0
  refine ⟨closeDecode u, ?_, ?_⟩
  · rw [exec_decompress ⟨hf, hw⟩, hbegin, hu, andThen_of_next]
  · rw [closeDecode_modern_results hst, hresults, hout, hmode, hstatus]
    rfl

/-- Settles O30: the compressed buffer, then its decode in a state with the same parameters. -/
theorem modernRoundTrip : Obligations.ModernRoundTrip := by
  intro s v src hs hv hcfg hwf hlen h0
  obtain ⟨t, b, ht, hcompressed⟩ := exec_compressModern (src := src) hs hlen h0
  obtain ⟨u, hu, hdecoded⟩ := exec_decompress_modernEncode hv (hcfg ▸ hwf) hlen h0
  exact ⟨t, b, _, u, ht, hcompressed, hcfg ▸ hu, hdecoded⟩

end Sys2Proof.Machine
end

section
/-! SUPPORT. Every decode ends: each iteration of the loop stops it or consumes a byte or a bit of the input budget, and the
loop has more iterations than the budget has bits (40_legacy_codec.md R101; 41_modern_codec.md R139, R147;
42_detect_and_best.md R172; 70_reset_and_hazards.md R299). -/

namespace Sys2Proof.Machine

open Sys2Proof

/-! ### Progress -/

/-- What is left of the input budget: bytes of a Raw or Legacy buffer, bits of a Modern body (10 R22 to R24). -/
def unread : Form → State → Nat
  | .modern, s => 8 * s.inlen.toNat - s.bitpos.toNat
  | _, s => s.inlen.toNat - s.ip.toNat

theorem unread_le (form : Form) (s : State) : unread form s ≤ 8 * s.inlen.toNat := by
  cases form <;> simp only [unread] <;> omega

/-- The loop has been stopped, or goes on with less of the input budget. -/
def Progress (form : Form) (s t : State) : Prop :=
  t.stage = s.stage.stopped ∨ t.stage = s.stage ∧ unread form t < unread form s

theorem progress_endLoop (form : Form) (s : State) : Progress form s (endLoop s) := .inl rfl

theorem progress_stop (form : Form) (f : Flag) (s : State) : Progress form s (stop f s) := .inl rfl

/-! ### Bytes -/

theorem advanceIp_toNat {n : Nat} {s : State} (h : s.ip.toNat + n ≤ s.inlen.toNat) :
    (advanceIp n s).ip.toNat = s.ip.toNat + n := by
  have hlen := s.inlen.isLt
  rw [advanceIp_ip, BitVec.toNat_add, word16Of, BitVec.toNat_ofNat]
  omega

/-- A pointer moved on within the input budget leaves less of it. -/
theorem progress_of_ip {form : Form} {n : Nat} {s t : State} (hform : form ≠ .modern) (hn : 1 ≤ n)
    (hfits : s.ip.toNat + n ≤ s.inlen.toNat) (hip : t.ip = (advanceIp n s).ip) (hlen : t.inlen = s.inlen)
    (hst : t.stage = s.stage) : Progress form s t := by
  have hto := advanceIp_toNat hfits
  refine .inr ⟨hst, ?_⟩
  cases form with
  | modern => exact absurd rfl hform
  | raw | legacy =>
    simp only [unread, hip, hto, hlen]
    omega

theorem rawStep_progress (s : State) : Progress .raw s (rawStep s) := by
  rcases rawStep_cases s with h | ⟨b, hlt, -, -, h⟩ <;> rw [h]
  · exact progress_endLoop ..
  · exact progress_of_ip (n := 1) nofun le_rfl hlt rfl rfl rfl

/-- A well-formed Legacy token read from a byte ahead of `IP` completes and makes progress (40 R102 to R104). -/
theorem exec_legacy_progress {i : Instr} {s : State} (hin : InToken .legacy s) (hs : i.stream = .legacy) (hw : i.wf = true)
    (hahead : s.ip.toNat < s.inlen.toNat) : ∃ t, exec i s = .next t ∧ Progress .legacy s t := by
  cases i with
  | lit code => exact ⟨_, exec_lit hin hw, progress_of_ip (n := 1) nofun le_rfl hahead rfl rfl rfl⟩
  | esc raw =>
    rw [exec_esc hin]
    split
    · next hfits => exact ⟨_, rfl, progress_of_ip (n := 2) nofun (by decide) hfits rfl rfl rfl⟩
    · exact ⟨_, rfl, progress_stop ..⟩
  | bref offset len =>
    rw [exec_bref hin hw]
    split
    · next hfits =>
      refine ⟨_, rfl, progress_of_ip (n := 2) nofun (by decide) hfits ?_ ?_ ?_⟩ <;> rw [reference_frame] <;> rfl
    · exact ⟨_, rfl, progress_stop ..⟩
  | _ => cases hs

theorem decodeStep_legacy_progress {s : State} (hin : InToken .legacy s) :
    ∃ t, decodeStep .legacy s = .next t ∧ Progress .legacy s t := by
  cases hd : decodeLegacy (legacyAhead s) with
  | error e =>
    refine ⟨stop .trunc s, ?_, progress_stop ..⟩
    simp only [decodeStep, fetchToken, fetchLegacy, hin.2, if_true, hd]
  | ok r =>
    obtain ⟨hs, hw, -⟩ := decodeLegacy_sound hd
    have hahead : s.ip.toNat < s.inlen.toNat := fetchLegacy_run_ahead (u := s) (i := r.1) (by simp only [fetchLegacy, hd])
    rw [decodeStep_of_legacy hin hd]
    exact exec_legacy_progress hin hs hw hahead

/-! ### Bits -/

/-- A literal code appends, or stops the loop (41 R141, R142). -/
theorem literal_stage (k v : Nat) (s : State) :
    (literal k v s).stage = s.stage ∨ (literal k v s).stage = s.stage.stopped := by
  unfold literal
  split
  · exact .inr rfl
  · dsimp only
    split
    · exact .inr rfl
    · exact .inl rfl

/-- What a Modern token does once its bits are read leaves the stream alone, and the stage or stops it (41 R141 to R145). -/
theorem modernEffect_stream (i : Instr) (s : State) :
    (modernEffect i s).bitpos = s.bitpos ∧ (modernEffect i s).inlen = s.inlen ∧
      ((modernEffect i s).stage = s.stage ∨ (modernEffect i s).stage = s.stage.stopped) := by
  have href : ∀ offset len, (reference offset len s).bitpos = s.bitpos ∧ (reference offset len s).inlen = s.inlen ∧
      ((reference offset len s).stage = s.stage ∨ (reference offset len s).stage = s.stage.stopped) := fun offset len => by
    rw [reference_frame]
    exact ⟨rfl, rfl, .inl rfl⟩
  cases i with
  | mlit k v =>
    refine ⟨?_, ?_, literal_stage k v s⟩ <;> rw [modernEffect, literal_frame]
  | mbrefS offset len => exact href offset len
  | mbrefM offset len => exact href offset len
  | mbrefL offset len => exact href offset len
  | _ => exact ⟨rfl, rfl, .inl rfl⟩

/-- A well-formed Modern token that is no raw escape completes and makes progress (41 R131, R139). -/
theorem exec_modern_progress {i : Instr} {s : State} (hin : InToken .modern s) (hs : i.stream = .modern) (hw : i.wf = true)
    (hesc : ¬ (s.cfg.modernRawEscape = true ∧ IsRawEscape i)) : ∃ t, exec i s = .next t ∧ Progress .modern s t := by
  have hpos := encodeModern_length_pos hs hw
  rcases Nat.lt_or_ge (8 * s.inlen.toNat) (s.bitpos.toNat + (encodeModern i).length) with hshort | hfits
  · rw [exec_modern hin hs hw hesc, takeBits_of_short hshort]
    exact ⟨_, rfl, .inl rfl⟩
  · refine ⟨_, exec_modern_of_fits hin hs hw hesc hfits, ?_⟩
    obtain ⟨hbitpos, hinlen, hstage⟩ := modernEffect_stream i (advanceBits (encodeModern i).length s)
    refine hstage.symm.imp_right fun hst => ⟨hst, ?_⟩
    show 8 * (modernEffect i _).inlen.toNat - (modernEffect i _).bitpos.toNat < 8 * s.inlen.toNat - s.bitpos.toNat
    rw [hinlen, hbitpos, advanceBits_toNat hfits, show (advanceBits _ s).inlen = s.inlen from rfl]
    omega

/-- A raw escape is read only where its ten zero offset bits stand ahead (41 R144, R147). -/
theorem escapeAhead_of_isRawEscape {i : Instr} {bits rest : List Bool} (hd : decodeModern bits = .ok (i, rest))
    (hi : IsRawEscape i) : escapeAhead bits = true := by
  obtain ⟨len, rfl⟩ := hi
  obtain ⟨-, -, rfl⟩ := decodeModern_sound hd
  exact escapeAhead_iff.2 ⟨groupBits (len - 3) ++ rest, rfl⟩

/-- The one way a decode does not complete: a Modern decode under `MODERN_RAW_ESCAPE` (41 R147). -/
def EscapeStands (form : Form) (s : State) : Prop := form = .modern ∧ s.cfg.modernRawEscape = true

theorem decodeStep_modern_progress {s : State} (hin : InToken .modern s) :
    (∃ t, decodeStep .modern s = .next t ∧ Progress .modern s t) ∨
      s.cfg.modernRawEscape = true ∧ decodeStep .modern s = .refused .rawEscape := by
  by_cases hesc : s.cfg.modernRawEscape = true ∧ escapeAhead (modernAhead s) = true
  · refine .inr ⟨hesc.1, ?_⟩
    simp only [decodeStep, fetchToken, fetchModern, hin.2, if_true, hesc, and_self]
  · left
    cases hd : decodeModern (modernAhead s) with
    | error e =>
      refine ⟨stop .trunc { s with bitpos := bitIndexOf (max s.bitpos.toNat (8 * s.inlen.toNat)) }, ?_, .inl rfl⟩
      simp only [decodeStep, fetchToken, fetchModern, hin.2, if_true, hesc, if_false, hd]
    | ok r =>
      obtain ⟨hs, hw, -⟩ := decodeModern_sound hd
      have hstep : decodeStep .modern s = exec r.1 s := by
        rw [← runToken_eq_exec (by rw [hs]; decide)]
        simp only [decodeStep, fetchToken, fetchModern, hin.2, if_true, hesc, if_false, hd]
      rw [hstep]
      exact exec_modern_progress hin hs hw fun h => hesc ⟨h.1, escapeAhead_of_isRawEscape hd h.2⟩

/-! ### The loop -/

/-- One iteration ends the loop, or makes progress, or meets the raw escape. -/
theorem decodeStep_progress {form : Form} {o : Origin} {s : State} (hst : s.stage = .decoding form o) :
    (∃ t, decodeStep form s = .next t ∧ Progress form s t) ∨
      EscapeStands form s ∧ decodeStep form s = .refused .rawEscape := by
  rcases Nat.lt_or_ge s.outlen.toNat s.declen.toNat with hlt | hmet
  · cases form with
    | raw => exact .inl ⟨_, rfl, rawStep_progress s⟩
    | legacy => exact .inl (decodeStep_legacy_progress ⟨⟨o, hst⟩, hlt⟩)
    | modern => exact (decodeStep_modern_progress ⟨⟨o, hst⟩, hlt⟩).imp_right fun h => ⟨⟨rfl, h.1⟩, h.2⟩
  · by_cases hraw : form = .raw
    · subst hraw
      exact .inl ⟨_, rfl, rawStep_progress s⟩
    · exact .inl ⟨endLoop s, by simp only [decodeStep, fetchToken_of_budget hraw hmet], progress_endLoop ..⟩

/-- With more iterations than the input budget has left the loop ends its decode, or is refused at a raw escape (70 R299). -/
theorem decodeLoop_ends {form : Form} {o : Origin} {n : Nat} {s : State} (hst : s.stage = .decoding form o)
    (hn : unread form s < n) :
    (∃ t, decodeLoop n s = .next t ∧ t.stage = .ended form o) ∨
      EscapeStands form s ∧ decodeLoop n s = .refused .rawEscape := by
  induction n generalizing s with
  | zero => omega
  | succ n ih =>
    rw [decodeLoop_of_decoding hst]
    obtain ⟨u, hu, hprogress⟩ | ⟨hesc, hrefused⟩ := decodeStep_progress hst
    · rw [hu, andThen_of_next]
      obtain hstop | ⟨hgo, hless⟩ := hprogress
      · have hend : u.stage = .ended form o := by rw [hstop, hst]; rfl
        exact .inl ⟨u, decodeLoop_of_ended hend, hend⟩
      · refine (ih (hgo.trans hst) (by omega)).imp_right fun ⟨⟨hform, hcfg⟩, h⟩ => ⟨⟨hform, ?_⟩, h⟩
        rwa [(decodeStep_keeps hu).cfg] at hcfg
    · rw [hrefused]
      exact .inr ⟨hesc, rfl⟩

/-- A set-up opens a decode of its form and origin, or has ended it at a cut header (40 R100, 41 R130, 42 R172). -/
theorem openDecode_stage (form : Form) (o : Origin) (buf : ByteString) (s : State) :
    (openDecode form o buf s).stage = .decoding form o ∨ (openDecode form o buf s).stage = .ended form o := by
  cases form with
  | raw => exact .inl rfl
  | legacy =>
    unfold openDecode openLegacy
    dsimp only
    split
    · exact .inr rfl
    · exact .inl rfl
  | modern =>
    unfold openDecode openModern
    dsimp only
    split
    · exact .inr rfl
    · exact .inl rfl

/-- The whole decode of a buffer ends, or is refused at a raw escape. -/
theorem decodeBuffer_ends (form : Form) (o : Origin) (buf : ByteString) (s : State) :
    (∃ t, decodeBuffer form o buf s = .next t ∧ t.stage = .ended form o) ∨
      EscapeStands form s ∧ decodeBuffer form o buf s = .refused .rawEscape := by
  have hcfg : (openDecode form o buf s).cfg = s.cfg := (keeps_openDecode form o buf s).cfg
  rcases openDecode_stage form o buf s with hst | hend
  · have hbound : unread form (openDecode form o buf s) < loopBound (openDecode form o buf s) :=
      (unread_le ..).trans_lt (Nat.lt_add_of_pos_right (by decide))
    exact (decodeLoop_ends hst hbound).imp_right fun ⟨⟨hform, h⟩, hrefused⟩ => ⟨⟨hform, hcfg ▸ h⟩, hrefused⟩
  · exact .inl ⟨_, decodeLoop_of_ended hend, hend⟩

end Sys2Proof.Machine
end

section
/-! SUPPORT. `DECOMPRESS`: detection, the Raw text, the end of a decode with the compatibility snippet, completion
(40_legacy_codec.md R100, R106; 41_modern_codec.md R130, R147; 42_detect_and_best.md R170 to R174). -/

namespace Sys2Proof.Machine

open Sys2Proof

/-! ### Detection -/

theorem hasMagic_iff {magic buf : ByteString} : hasMagic magic buf = true ↔ 4 ≤ buf.length ∧ buf.take 4 = magic := by
  rw [hasMagic, Bool.and_eq_true, beq_iff_eq, beq_iff_eq, List.length_take, min_eq_left_iff]

theorem detect_legacy {c : Config} {buf : ByteString} (hlen : 4 ≤ buf.length) (h : buf.take 4 = c.legacyMagic) :
    detect c buf = .legacy := if_pos (hasMagic_iff.2 ⟨hlen, h⟩)

theorem detect_modern {c : Config} {buf : ByteString} (hlen : 4 ≤ buf.length) (h : buf.take 4 = c.modernMagic)
    (hno : buf.take 4 ≠ c.legacyMagic) : detect c buf = .modern := by
  rw [detect, if_neg fun hl => hno (hasMagic_iff.1 hl).2, if_pos (hasMagic_iff.2 ⟨hlen, h⟩)]

theorem detect_raw {c : Config} {buf : ByteString}
    (h : buf.length < 4 ∨ (buf.take 4 ≠ c.legacyMagic ∧ buf.take 4 ≠ c.modernMagic)) : detect c buf = .raw := by
  have hno : ∀ magic, buf.length < 4 ∨ buf.take 4 ≠ magic → ¬ hasMagic magic buf = true := fun magic hor hm => by
    obtain ⟨hlen, htake⟩ := hasMagic_iff.1 hm
    rcases hor with hshort | hne
    · exact Nat.not_lt.2 hlen hshort
    · exact hne htake
  rw [detect, if_neg (hno _ (h.imp_right And.left)), if_neg (hno _ (h.imp_right And.right))]

/-! ### The end of a decode -/

theorem closeDecode_of_ended {form : Form} {o : Origin} {s : State} (hst : s.stage = .ended form o) :
    closeDecode s = finishDecode form o s := by
  unfold closeDecode
  rw [hst]

/-- Post-processing deletes nothing from a Modern or Raw text, or where the snippet is empty or not there (40 R106, 41 R140). -/
theorem postProcess_of_absent {form : Form} {s : State}
    (h : form ≠ .legacy ∨ s.cfg.compatSnippet = [] ∨ ¬ s.cfg.compatSnippet <:+: s.out) : postProcess form s = s := by
  cases form with
  | raw => rfl
  | modern => rfl
  | legacy => exact dropSnippet_of_absent (h.resolve_left fun hne => hne rfl)

/-- What is deleted is the first occurrence: no other one starts before it (40 R106). -/
theorem deleteFirst_of_first {p pre post : ByteString} (hp : p ≠ [])
    (hfirst : ∀ pre' post', pre ++ p ++ post = pre' ++ p ++ post' → pre.length ≤ pre'.length) :
    deleteFirst p (pre ++ p ++ post) = pre ++ post := by
  induction pre with
  | nil =>
    obtain ⟨c, cs, rfl⟩ := List.exists_cons_of_ne_nil hp
    have hpre : (c :: cs).isPrefixOf (c :: (cs ++ post)) = true :=
      List.isPrefixOf_iff_prefix.2 (List.prefix_append (c :: cs) post)
    show deleteFirst (c :: cs) (c :: (cs ++ post)) = post
    rw [deleteFirst, if_pos hpre]
    exact List.drop_left' rfl
  | cons b pre ih =>
    have hno : ¬ p.isPrefixOf (b :: (pre ++ p ++ post)) = true := fun h => by
      obtain ⟨tail, htail⟩ := List.isPrefixOf_iff_prefix.1 h
      exact absurd (hfirst [] tail htail.symm) (Nat.not_succ_le_zero _)
    show deleteFirst p (b :: (pre ++ p ++ post)) = b :: (pre ++ post)
    rw [deleteFirst, if_neg hno, ih]
    intro pre' post' heq
    exact Nat.le_of_succ_le_succ (hfirst (b :: pre') post' (congrArg (b :: ·) heq))

/-- A Legacy text loses the first occurrence of the snippet, and `OUTLEN` its length (40 R106). -/
theorem dropSnippet_of_first {s : State} {pre post : ByteString} (hs : OutInStep s) (hne : s.cfg.compatSnippet ≠ [])
    (hout : s.out = pre ++ s.cfg.compatSnippet ++ post)
    (hfirst : ∀ pre' post', s.out = pre' ++ s.cfg.compatSnippet ++ post' → pre.length ≤ pre'.length) :
    (dropSnippet s).out = pre ++ post ∧
      (dropSnippet s).outlen.toNat + s.cfg.compatSnippet.length = s.outlen.toNat := by
  have hoccurs : occurs s.cfg.compatSnippet s.out = true := occurs_iff_infix.2 ⟨pre, post, hout.symm⟩
  have hlen : s.outlen.toNat = pre.length + s.cfg.compatSnippet.length + post.length := by
    have hstep : s.outlen.toNat = s.out.length := hs
    rw [hstep, hout, List.length_append, List.length_append]
  have hlt := s.outlen.isLt
  rw [dropSnippet, if_pos ⟨hne, hoccurs⟩]
  refine ⟨?_, ?_⟩
  · show deleteFirst s.cfg.compatSnippet s.out = _
    rw [hout] at hfirst ⊢
    exact deleteFirst_of_first hne hfirst
  · show (s.outlen - word16Of s.cfg.compatSnippet.length).toNat + _ = _
    rw [BitVec.toNat_sub, word16Of, BitVec.toNat_ofNat]
    omega

/-- The end of a `DECOMPRESS`, register by register: the text that post-processing leaves, the cache of a region, the result
(42 R170, R174). -/
theorem finishDecode_eq (form : Form) (o : Origin) (s : State) :
    finishDecode form o s =
      { s with
        out := (postProcess form s).out
        outlen := (postProcess form s).outlen
        cache := if o = .region then (postProcess form s).out else s.cache
        cacheValid := if o = .region then true else s.cacheValid
        stage := .idle
        results := s.results ++ [.decoded (postProcess form s).out s.mode s.status] } := by
  cases o <;> (unfold finishDecode; rw [postProcess_frame]; rfl)

/-- The end of a decode of a host buffer from which nothing is deleted (42 R170). -/
theorem finishDecode_host {form : Form} {s : State} (h : postProcess form s = s) :
    finishDecode form .host s =
      { s with stage := .idle, results := s.results ++ [.decoded s.out s.mode s.status] } := by
  rw [finishDecode, h]
  rfl

/-! ### The Raw text -/

/-- Where a Raw step ends the loop, the loop has ended (42 R172). -/
theorem decodeLoop_rawStop {o : Origin} {n : Nat} {s : State} (hst : s.stage = .decoding .raw o)
    (hend : rawStep s = endLoop s) : decodeLoop (n + 1) s = .next { s with stage := .ended .raw o } := by
  rw [decodeLoop_of_decoding hst]
  show decodeLoop n (rawStep s) = _
  rw [hend, endLoop_of_decoding hst]
  exact decodeLoop_of_ended rfl

/-- The bytes of a Raw text: those before the first 0x00, or all (42 R172). -/
def rawText (bytes : ByteString) : ByteString := bytes.takeWhile (fun b => b != 0#8)

theorem rawText_cons_zero (bytes : ByteString) : rawText (0#8 :: bytes) = [] := rfl

theorem rawText_cons {b : Byte} (h : b ≠ 0#8) (bytes : ByteString) : rawText (b :: bytes) = b :: rawText bytes :=
  List.takeWhile_cons_of_pos (bne_iff_ne.2 h)

/-- The state in which a Raw decode ends that has read `bytes` from `IP` on (42 R172). -/
def rawRead (o : Origin) (bytes : ByteString) (s : State) : State :=
  { s with
    ip := s.ip + word16Of bytes.length, out := s.out ++ bytes, outlen := s.outlen + word16Of bytes.length
    stage := .ended .raw o }

theorem rawRead_nil (o : Origin) (s : State) : rawRead o [] s = { s with stage := .ended .raw o } := by
  rw [rawRead, List.length_nil, show word16Of 0 = 0#16 from rfl, BitVec.add_zero, BitVec.add_zero, List.append_nil]

theorem rawRead_cons (o : Origin) (b : Byte) (bytes : ByteString) (s : State) :
    rawRead o (b :: bytes) s = rawRead o bytes (advanceIp 1 (append b s)) := by
  have hcount : word16Of (bytes.length + 1) = word16Of 1 + word16Of bytes.length := by
    rw [Nat.add_comm]
    exact BitVec.ofNat_add ..
  rw [rawRead, List.length_cons, hcount, ← BitVec.add_assoc, ← BitVec.add_assoc, List.append_cons]
  rfl

/-- The Raw loop reads the bytes from `IP` up to the first zero byte or the end (42 R172). -/
theorem decodeLoop_rawText {o : Origin} {rest : ByteString} {n : Nat} {s : State} (hst : s.stage = .decoding .raw o)
    (hlen : s.inlen.toNat = s.inbuf.length) (hrest : s.inbuf.drop s.ip.toNat = rest) (hn : rest.length < n) :
    decodeLoop n s = .next (rawRead o (rawText rest) s) := by
  obtain ⟨n, rfl⟩ := Nat.exists_eq_add_of_le' (Nat.zero_lt_of_lt hn)
  induction rest generalizing s n with
  | nil =>
    have hspent : ¬ s.ip.toNat < s.inlen.toNat := by
      rw [hlen]
      exact Nat.not_lt.2 (List.drop_eq_nil_iff.1 hrest)
    exact (decodeLoop_rawStop hst (if_neg hspent)).trans (congrArg Host.Outcome.next (rawRead_nil o s).symm)
  | cons b rest ih =>
    have hb : s.inbuf[s.ip.toNat]? = some b := by
      rw [← Nat.add_zero s.ip.toNat, ← List.getElem?_drop, hrest]
      rfl
    have hlt : s.ip.toNat < s.inlen.toNat := hlen ▸ (List.getElem?_eq_some_iff.1 hb).1
    by_cases h0 : b = 0#8
    · subst h0
      have hend : rawStep s = endLoop s := by rw [rawStep, if_pos hlt, hb]; rfl
      rw [decodeLoop_rawStop hst hend, rawText_cons_zero, rawRead_nil]
    · have hdrop : s.inbuf.drop (advanceIp 1 (append b s)).ip.toNat = rest := by
        rw [advanceIp_toNat (s := append b s) hlt, append_ip, ← List.drop_drop, hrest]
        rfl
      obtain ⟨n, rfl⟩ := Nat.exists_eq_add_of_le' (Nat.zero_lt_of_lt (Nat.lt_of_succ_lt_succ hn))
      rw [decodeLoop_of_decoding hst, rawText_cons h0, rawRead_cons]
      show decodeLoop (n + 1) (rawStep s) = _
      rw [rawStep_of_byte hlt hb h0]
      exact ih (s := advanceIp 1 (append b s)) hst hlen hdrop n (Nat.lt_of_succ_lt_succ hn)

theorem rawRead_openRaw (o : Origin) (buf bytes : ByteString) (s : State) :
    rawRead o bytes (openRaw o buf s) = { s with
      inbuf := buf, inlen := word16Of buf.length, declen := word16Of buf.length, ip := word16Of bytes.length
      out := bytes, outlen := word16Of bytes.length, stage := .ended .raw o } := by
  simp only [rawRead, openRaw, openBuffer, BitVec.zero_add, List.nil_append]

/-- A Raw decode of a whole buffer (42 R172). -/
theorem decodeBuffer_raw {o : Origin} {buf : ByteString} {s : State} (h : buf.length ≤ bufferMax) :
    decodeBuffer .raw o buf s = .next { s with
      inbuf := buf, inlen := word16Of buf.length, declen := word16Of buf.length, ip := word16Of (rawText buf).length
      out := rawText buf, outlen := word16Of (rawText buf).length, stage := .ended .raw o } := by
  have hinlen : (openRaw o buf s).inlen.toNat = buf.length := word16Of_toNat h
  have hbound : buf.length < loopBound (openRaw o buf s) := by
    rw [loopBound, hinlen]
    omega
  rw [← rawRead_openRaw]
  exact decodeLoop_rawText (s := openRaw o buf s) rfl hinlen rfl hbound

/-! ### Cut headers -/

section
variable {o : Origin} {buf : ByteString} {s : State} (h : buf.length < 8) (hstatus : s.status = 0#8)
include h hstatus

/-- A Legacy decode of a buffer with a cut header ends at once, with `TRUNC` (40 R100). -/
theorem decodeBuffer_legacy_cut :
    decodeBuffer .legacy o buf s = .next { s with
      inbuf := buf, inlen := word16Of buf.length, declen := 0#16, out := [], outlen := 0#16
      status := 0x10#8, stage := .ended .legacy o } := by
  have hflag : 0x10#8 = s.status ||| Flag.trunc.mask := by rw [hstatus]; rfl
  rw [hflag]
  exact (congrArg (fun u => decodeLoop (loopBound u) u) (if_pos h)).trans (decodeLoop_of_ended rfl)

/-- A Modern decode of a buffer with a cut header ends at once, with `TRUNC` (41 R130). -/
theorem decodeBuffer_modern_cut :
    decodeBuffer .modern o buf s = .next { s with
      inbuf := buf, declen := 0#16, out := [], outlen := 0#16, status := 0x10#8, stage := .ended .modern o } := by
  have hflag : 0x10#8 = s.status ||| Flag.trunc.mask := by rw [hstatus]; rfl
  rw [hflag]
  exact (congrArg (fun u => decodeLoop (loopBound u) u) (if_pos h)).trans (decodeLoop_of_ended rfl)

end

/-! ### The command -/

section
variable {src : Source} {s u : State}

/-- The loop of a `DECOMPRESS` ends its decode, or is refused at a raw escape (41 R147; 42 R170). -/
theorem beginDecompress_ends (src : Source) (s : State) :
    (∃ u, decodeLoop (loopBound (beginDecompress src s)) (beginDecompress src s) = .next u ∧
      u.stage = .ended (detect s.cfg (sourceBuffer src s).2) (sourceBuffer src s).1) ∨
    EscapeStands (detect s.cfg (sourceBuffer src s).2) s ∧
      decodeLoop (loopBound (beginDecompress src s)) (beginDecompress src s) = .refused .rawEscape :=
  decodeBuffer_ends (detect s.cfg (sourceBuffer src s).2) (sourceBuffer src s).1 (sourceBuffer src s).2
    { s with mode := (detect s.cfg (sourceBuffer src s).2).mode }

/-- The loop completes where no raw escape can stand (41 R147). -/
theorem beginDecompress_completes
    (h : s.cfg.modernRawEscape = false ∨ detect s.cfg (sourceBuffer src s).2 ≠ .modern) :
    ∃ u, decodeLoop (loopBound (beginDecompress src s)) (beginDecompress src s) = .next u := by
  obtain ⟨u, hu, -⟩ | ⟨⟨hform, hcfg⟩, -⟩ := beginDecompress_ends src s
  · exact ⟨u, hu⟩
  · exact (h.elim (fun hno => Bool.false_ne_true (hno.symm.trans hcfg)) fun hne => hne hform).elim

/-- What the set-up and the loop of a `DECOMPRESS` can change. -/
theorem beginDecompress_loop_frame
    (h : decodeLoop (loopBound (beginDecompress src s)) (beginDecompress src s) = .next u) :
    u = { s with
      ip := u.ip, bitpos := u.bitpos, inbuf := (sourceBuffer src s).2, inlen := u.inlen, declen := u.declen, out := u.out
      outlen := u.outlen, mode := (detect s.cfg (sourceBuffer src s).2).mode, status := u.status, mtf := u.mtf
      stage := u.stage } := by
  have hframe := decodeLoop_frame h
  rw [beginDecompress, openDecode_frame] at hframe
  unfold TokenFrame at hframe
  rw [hframe]

/-- A `DECOMPRESS` whose loop completes ends as the decode it opened (42 R170). -/
theorem exec_decompress_of_loop (hready : Ready (.decompress src) s)
    (h : decodeLoop (loopBound (beginDecompress src s.cleared)) (beginDecompress src s.cleared) = .next u) :
    exec (.decompress src) s =
      .next (finishDecode (detect s.cfg (sourceBuffer src s).2) (sourceBuffer src s).1 u) := by
  obtain ⟨v, hv, hst⟩ | ⟨-, hrefused⟩ := beginDecompress_ends src s.cleared
  · cases h.symm.trans hv
    rw [exec_decompress hready, h, andThen_of_next, closeDecode_of_ended hst]
    rfl
  · cases h.symm.trans hrefused

end

/-- A `DECOMPRESS` of a host buffer whose decode completes (42 R170). -/
theorem exec_decompress_host {s u : State} {form : Form} {c : ByteString} (hf : s.faulted = false)
    (hlen : c.length ≤ bufferMax) (hform : detect s.cfg c = form)
    (h : decodeBuffer form .host c { s.cleared with mode := form.mode } = .next u) :
    exec (.decompress (.host c)) s = .next (finishDecode form .host u) := by
  subst hform
  have hw : (Instr.decompress (.host c)).wf = true := decide_eq_true hlen
  exact exec_decompress_of_loop ⟨hf, hw⟩ h

/-- No snippet occurs in the empty string (40 R106). -/
theorem absent_of_nil (p : ByteString) : p = [] ∨ ¬ p <:+: [] := by
  rw [List.infix_nil]
  exact em _

/-- Settles O23: the loop ends or meets the raw escape, and the end of the decode says the rest. -/
theorem decompressCompletes : Obligations.DecompressCompletes := by
  intro s src hf hw
  have hready : Ready (.decompress src) s := ⟨hf, hw⟩
  refine ⟨fun hplain => ?_, ?_, fun u hu => ?_⟩
  · obtain ⟨u, hu⟩ := beginDecompress_completes (s := s.cleared) hplain
    refine ⟨_, exec_decompress_of_loop hready hu, ?_⟩
    have hframe := beginDecompress_loop_frame hu
    have hresults : u.results = s.results := by rw [hframe]; rfl
    have hmode : u.mode = (detect s.cfg (sourceBuffer src s).2).mode := by rw [hframe]; rfl
    have hinbuf : u.inbuf = (sourceBuffer src s).2 := by rw [hframe]; rfl
    have hcache : u.cache = s.cache ∧ u.cacheValid = s.cacheValid := by rw [hframe]; exact ⟨rfl, rfl⟩
    rw [finishDecode_eq, hresults]
    refine ⟨rfl, hmode, hinbuf, ?_, ?_, ?_⟩
    · rintro rfl
      exact ⟨rfl, rfl⟩
    · intro hhost
      cases src with
      | region => exact absurd rfl hhost
      | host c => exact hcache
    · rw [hframe]
      rfl
  · obtain ⟨u, hu, -⟩ | ⟨-, hrefused⟩ := beginDecompress_ends src s.cleared
    · exact .inl ⟨_, exec_decompress_of_loop hready hu⟩
    · right
      rw [exec_decompress hready, hrefused]
      rfl
  · refine ⟨_, exec_decompress_of_loop hready hu, ?_⟩
    have hframe := beginDecompress_loop_frame hu
    have hcfg : u.cfg = s.cfg := by rw [hframe]; rfl
    have hstep : OutInStep u :=
      (decodeLoop_loopInv (openDecode_loopInv _ _ (sourceBuffer_length_le hw s.cleared) _) hu).outInStep
    rw [finishDecode_eq]
    refine ⟨fun hform hne pre post hout hfirst => ?_, fun habsent => ?_, rfl, rfl, rfl, rfl, rfl⟩
    · rw [hform]
      rw [← hcfg] at hne hout hfirst ⊢
      exact dropSnippet_of_first hstep hne hout hfirst
    · rw [← hcfg] at habsent
      rw [← hcfg, postProcess_of_absent habsent]
      exact ⟨rfl, rfl⟩

/-- Settles O24: the two magics tested in turn; a cut header ends the decode in its set-up. -/
theorem detectReadsTheFirstFourBytes : Obligations.DetectReadsTheFirstFourBytes := by
  refine ⟨fun c b => ⟨detect_legacy, detect_modern, detect_raw⟩, fun s b hf hlo hhi => ?_⟩
  refine ⟨fun hmagic => ?_, fun hmagic hno => ?_⟩
  · rw [exec_decompress_host hf (hhi.le.trans (by decide)) (detect_legacy hlo hmagic) (decodeBuffer_legacy_cut hhi rfl),
      finishDecode_host (postProcess_of_absent (.inr (absent_of_nil _)))]
    rfl
  · rw [exec_decompress_host hf (hhi.le.trans (by decide)) (detect_modern hlo hmagic hno) (decodeBuffer_modern_cut hhi rfl),
      finishDecode_host rfl]
    rfl

/-- Settles O25: the Raw loop from the start of the buffer. -/
theorem rawTextStopsAtZero : Obligations.RawTextStopsAtZero := by
  intro s c hf hlen hform
  rw [exec_decompress_host hf hlen hform (decodeBuffer_raw hlen), finishDecode_host rfl]
  rfl

end Sys2Proof.Machine
end

section
/-! SUPPORT. The compress commands and the chooser (42_detect_and_best.md R175 to R180). -/

namespace Sys2Proof.Machine

open Sys2Proof

/-! ### The shared parts of a compress command -/

/-- The status of a returned buffer: `OCO` is added exactly above `CODE_CAP` (60 R264). -/
theorem flagOversize_status (code : ByteString) (s : State) :
    (flagOversize code s).status = if 15616 < code.length then s.status ||| 0x08#8 else s.status := by
  unfold flagOversize setFlagIf codeCap
  by_cases h : 15616 < code.length
  · rw [if_pos (decide_eq_true h), if_pos h]
    rfl
  · rw [if_neg (fun hd => h (of_decide_eq_true hd)), if_neg h]

/-- From a cleared `STATUS` the result is `OCO` alone or nothing (42 R180). -/
theorem flagOversize_status_of_cleared {code : ByteString} {s : State} (h : s.status = 0#8) :
    (flagOversize code s).status = if 15616 < code.length then 0x08#8 else 0#8 := by
  rw [flagOversize_status, h]
  rfl

/-! ### The chooser -/

theorem chooseBest_of_modern_shorter {c : Config} {src : ByteString}
    (h : (modernEncode c src).1.length < (legacyEncode c src).length) :
    chooseBest c src = (.modern, (modernEncode c src).1) := if_pos h

/-- A tie keeps the Legacy buffer (42 R177). -/
theorem chooseBest_of_legacy_le {c : Config} {src : ByteString}
    (h : (legacyEncode c src).length ≤ (modernEncode c src).1.length) :
    chooseBest c src = (.legacy, legacyEncode c src) := if_neg (Nat.not_lt.2 h)

/-- The chosen buffer is one of the two, and no longer than either (42 R178). -/
theorem chooseBest_shortest (c : Config) (src : ByteString) :
    (chooseBest c src).2.length ≤ (legacyEncode c src).length ∧
    (chooseBest c src).2.length ≤ (modernEncode c src).1.length ∧
    ((chooseBest c src).2 = legacyEncode c src ∨ (chooseBest c src).2 = (modernEncode c src).1) := by
  rcases Nat.lt_or_ge (modernEncode c src).1.length (legacyEncode c src).length with h | h
  · rw [chooseBest_of_modern_shorter h]
    exact ⟨h.le, le_rfl, .inr rfl⟩
  · rw [chooseBest_of_legacy_le h]
    exact ⟨le_rfl, h, .inl rfl⟩

/-! ### The commands -/

/-- The state in which a `COMPRESS_LEGACY` returns its buffer (42 R175). -/
def compressedLegacy (src : ByteString) (s : State) : State :=
  flagOversize (legacyEncode s.cfg src) { afterLegacyEncode src s.cleared with mode := .legacy }

/-- The state in which a `COMPRESS_MODERN` returns its buffer (42 R176). -/
def compressedModern (src : ByteString) (s : State) : State :=
  flagOversize (modernEncode s.cfg src).1 { afterModernEncode src s.cleared with mode := .modern }

/-- The state in which a `COMPRESS_BEST` returns its buffer (42 R177). -/
def compressedBest (src : ByteString) (s : State) : State :=
  flagOversize (chooseBest s.cfg src).2
    { afterBothEncoders src s.cleared with mode := (chooseBest s.cfg src).1.mode }

section
variable {src : ByteString} {s : State} (hf : s.faulted = false)
include hf

/-- `COMPRESS_LEGACY` is refused above `S_MAX`, else it returns (40 R108; 42 R175). -/
theorem exec_compressLegacy_eq :
    exec (.compressLegacy src) s =
      if sMax < src.length then .refused .sourceTooLong
      else .next (respond (.compressed (legacyEncode s.cfg src) (compressedLegacy src s).status) (compressedLegacy src s)) := by
  show execCompressLegacy src s = _
  rw [execCompressLegacy, preamble_of_ready ⟨hf, rfl⟩]
  rfl

/-- `COMPRESS_MODERN` is refused above `S_MAX` and at a zero byte, else it returns (41 R148; 42 R176). -/
theorem exec_compressModern_eq :
    exec (.compressModern src) s =
      if sMax < src.length then .refused .sourceTooLong
      else if 0#8 ∈ src then .refused .sourceHasZero
      else .next (respond (.compressed (modernEncode s.cfg src).1 (compressedModern src s).status) (compressedModern src s)) := by
  show execCompressModern src s = _
  rw [execCompressModern, preamble_of_ready ⟨hf, rfl⟩]
  rfl

/-- `COMPRESS_BEST` is refused as `COMPRESS_MODERN` is, else it returns the chooser's buffer (42 R177). -/
theorem exec_compressBest_eq :
    exec (.compressBest src) s =
      if sMax < src.length then .refused .sourceTooLong
      else if 0#8 ∈ src then .refused .sourceHasZero
      else .next (respond (.best (chooseBest s.cfg src).2 (compressedBest src s).mode (compressedBest src s).status)
        (compressedBest src s)) := by
  show execCompressBest src s = _
  rw [execCompressBest, preamble_of_ready ⟨hf, rfl⟩]
  rfl

end

theorem compressedLegacy_status (src : ByteString) (s : State) :
    (compressedLegacy src s).status = if 15616 < (legacyEncode s.cfg src).length then 0x08#8 else 0#8 :=
  flagOversize_status_of_cleared rfl

theorem compressedModern_status (src : ByteString) (s : State) :
    (compressedModern src s).status = if 15616 < (modernEncode s.cfg src).1.length then 0x08#8 else 0#8 :=
  flagOversize_status_of_cleared rfl

theorem compressedBest_status (src : ByteString) (s : State) :
    (compressedBest src s).status = if 15616 < (chooseBest s.cfg src).2.length then 0x08#8 else 0#8 :=
  flagOversize_status_of_cleared rfl

/-- The mode of a `COMPRESS_BEST` is the form of the chosen buffer (42 R177). -/
theorem compressedBest_mode (src : ByteString) (s : State) :
    (compressedBest src s).mode = (chooseBest s.cfg src).1.mode := flagOversize_mode ..

/-- Settles O26: the size check, then the frame of the encode and of the flag. -/
theorem compressLegacyReturnsItsBuffer : Obligations.CompressLegacyReturnsItsBuffer := by
  intro s src hf
  rw [exec_compressLegacy_eq hf, sMax]
  refine ⟨fun hlong => if_pos hlong, fun hlen => ?_⟩
  rw [if_neg (Nat.not_lt.2 hlen)]
  refine ⟨_, rfl, (respond_status ..).trans (compressedLegacy_status src s), ?_⟩
  rw [compressedLegacy, flagOversize_frame]
  rfl

/-- Settles O27: the two checks, then the frame of the encode and of the flag. -/
theorem compressModernReturnsItsBuffer : Obligations.CompressModernReturnsItsBuffer := by
  intro s src hf
  rw [exec_compressModern_eq hf, sMax]
  refine ⟨fun hlong => if_pos hlong, fun hlen hz => ?_, fun hlen hz => ?_⟩
  · rw [if_neg (Nat.not_lt.2 hlen), if_pos hz]
  · rw [if_neg (Nat.not_lt.2 hlen), if_neg hz]
    refine ⟨_, rfl, (respond_status ..).trans (compressedModern_status src s), ?_⟩
    rw [compressedModern, flagOversize_frame]
    rfl

/-- Settles O28: the two checks, then the chosen buffer by which of the two is shorter. -/
theorem compressBestReturnsTheShorter : Obligations.CompressBestReturnsTheShorter := by
  intro s src hf
  rw [exec_compressBest_eq hf, sMax]
  refine ⟨fun hlong => if_pos hlong, fun hlen hz => ?_, fun hlen hz => ?_⟩
  · rw [if_neg (Nat.not_lt.2 hlen), if_pos hz]
  · rw [if_neg (Nat.not_lt.2 hlen), if_neg hz]
    refine ⟨_, (chooseBest s.cfg src).2, rfl, fun h => ?_, fun h => ?_,
      (respond_status ..).trans (compressedBest_status src s), ?_⟩
    · rw [respond_mode, compressedBest_mode, chooseBest_of_modern_shorter h]
      exact ⟨rfl, rfl⟩
    · rw [respond_mode, compressedBest_mode, chooseBest_of_legacy_le h]
      exact ⟨rfl, rfl⟩
    · rw [compressedBest, flagOversize_frame]
      rfl

/-- Settles O33: what a `COMPRESS_BEST` that completes has returned is the chooser's buffer. -/
theorem chooserIsNeverLonger : Obligations.ChooserIsNeverLonger := by
  intro s t src code m b h hlast
  obtain ⟨-, -, -, u, -, rfl⟩ := execCompressBest_next h
  rw [respond_results, List.getLast?_concat] at hlast
  cases hlast
  exact chooseBest_shortest s.cfg src

end Sys2Proof.Machine
end

section
/-! SUPPORT. The byte accessors of ROM and LABEL within their ranges (43_rom_serializer.md R200 to R204). -/

namespace Sys2Proof.Machine

open Sys2Proof

section
variable {s : State} {a v : Nat} (hf : s.faulted = false)
include hf

theorem exec_romRead_of_inRange (ha : a < romSize) :
    exec (.romRead a) s = .next (respond (.byte (s.rom.read a)) s.cleared) := by
  have hready : Ready (.romRead a) s := ⟨hf, decide_eq_true (ha.trans (by decide))⟩
  show execRomRead a s = _
  rw [execRomRead, preamble_of_ready hready, if_neg (Nat.not_le.2 ha)]
  rfl

theorem exec_labelRead_of_inRange (ha : a < labelSize) :
    exec (.labelRead a) s = .next (respond (.byte (s.label.read a)) s.cleared) := by
  have hready : Ready (.labelRead a) s := ⟨hf, decide_eq_true (ha.trans (by decide))⟩
  show execLabelRead a s = _
  rw [execLabelRead, preamble_of_ready hready, if_neg (Nat.not_le.2 ha)]
  rfl

theorem exec_romWrite_of_inRange (ha : a < romSize) (hv : v < 256) :
    exec (.romWrite a v) s = .next (respond .done (romPut a (byteOf v) s.cleared)) := by
  have hready : Ready (.romWrite a v) s :=
    ⟨hf, Bool.and_eq_true_iff.2 ⟨decide_eq_true (ha.trans (by decide)), decide_eq_true hv⟩⟩
  show execRomWrite a v s = _
  rw [execRomWrite, preamble_of_ready hready, if_neg (Nat.not_le.2 ha)]

theorem exec_labelWrite_of_inRange (ha : a < labelSize) (hv : v < 256) :
    exec (.labelWrite a v) s = .next (respond .done (labelPut a (byteOf v) s.cleared)) := by
  have hready : Ready (.labelWrite a v) s :=
    ⟨hf, Bool.and_eq_true_iff.2 ⟨decide_eq_true (ha.trans (by decide)), decide_eq_true hv⟩⟩
  show execLabelWrite a v s = _
  rw [execLabelWrite, preamble_of_ready hready, if_neg (Nat.not_le.2 ha)]

theorem exec_romClear :
    exec .romClear s = .next (respond .done { zeroMemories s.cleared with cacheValid := false }) := by
  show execRomClear s = _
  rw [execRomClear, preamble_of_ready ⟨hf, rfl⟩]

end

/-- Settles O17: both reads in range. -/
theorem readsReturnTheByte : Obligations.ReadsReturnTheByte := by
  intro s a hf
  exact ⟨fun ha => exec_romRead_of_inRange hf ha, fun ha => exec_labelRead_of_inRange hf ha⟩

/-- Settles O18: the write in range, and a read after it (20 R53). -/
theorem romWriteChangesOneByte : Obligations.RomWriteChangesOneByte := by
  intro s a v hf hwf ha hv
  exact ⟨_, exec_romWrite_of_inRange hf ha hv, rfl, fun _ => Memory.read_write hwf, rfl, Memory.wf_write hwf⟩

/-- Settles O19: the write in range, and a read after it (20 R53). -/
theorem labelWriteChangesOneByte : Obligations.LabelWriteChangesOneByte := by
  intro s a v hf hwf ha hv
  exact ⟨_, exec_labelWrite_of_inRange hf ha hv, rfl, fun _ => Memory.read_write hwf, Memory.wf_write hwf⟩

/-- Settles O21: an empty memory reads 0x00 everywhere. -/
theorem romClearZeroesBothMemories : Obligations.RomClearZeroesBothMemories := by
  intro s hf
  exact ⟨_, exec_romClear hf, fun a => ⟨Memory.read_nil a, Memory.read_nil a⟩, rfl⟩

end Sys2Proof.Machine
end

section
/-! SUPPORT. Pixel buffers, the payload in the low two bits, and the nearest colour (20_memory.md R52;
43_rom_serializer.md R210, R216, R217). -/

namespace Sys2Proof.Machine

open Sys2Proof

/-! ### Buffers and their pixels -/

theorem toPixels_length : ∀ p : ByteString, (toPixels p).length = p.length / 4
  | [] | [_] | [_, _] | [_, _, _] => by simp [toPixels]
  | _ :: _ :: _ :: _ :: rest => by
    simp only [toPixels, List.length_cons, toPixels_length rest]
    omega

/-- The channels of pixel `i` are the bytes from `4*i` on (20 R52). -/
theorem channels_of_toPixels : ∀ {p : ByteString} {i : Nat} {px : Pixel}, (toPixels p)[i]? = some px →
    p[4 * i]? = some px.r ∧ p[4 * i + 1]? = some px.g ∧ p[4 * i + 2]? = some px.b ∧ p[4 * i + 3]? = some px.a
  | [], _, _, h | [_], _, _, h | [_, _], _, _, h | [_, _, _], _, _, h => by simp [toPixels] at h
  | _ :: _ :: _ :: _ :: rest, 0, px, h => by
    simp only [toPixels, List.getElem?_cons_zero, Option.some.injEq] at h
    subst h
    exact ⟨rfl, rfl, rfl, rfl⟩
  | _ :: _ :: _ :: _ :: rest, i + 1, px, h => channels_of_toPixels (p := rest) h

theorem toPixels_ofPixels (px : List Pixel) : toPixels (ofPixels px) = px := by
  induction px with
  | nil => rfl
  | cons p px ih => rw [ofPixels, toPixels, ih]

theorem ofPixels_length (px : List Pixel) : (ofPixels px).length = 4 * px.length := by
  induction px with
  | nil => rfl
  | cons p px ih =>
    simp only [ofPixels, List.length_cons, ih]
    omega

theorem mapPixels_eq_mapIdx (f : Nat → Pixel → Pixel) (i : Nat) (px : List Pixel) :
    mapPixels f i px = px.mapIdx fun j => f (i + j) := by
  induction px generalizing i with
  | nil => rfl
  | cons p px ih =>
    rw [mapPixels, ih, List.mapIdx_cons]
    simp only [Nat.add_zero, Nat.add_assoc, Nat.add_comm 1]

/-! ### The low two bits of a channel -/

theorem and_three_toNat (x : Byte) : (x &&& 3#8).toNat = x.toNat % 4 := by
  rw [BitVec.toNat_and]
  exact Nat.and_two_pow_sub_one_eq_mod x.toNat 2

/-- A channel with its low two bits replaced has the new ones (43 R217). -/
theorem and_three_of_embedded (x y : Byte) : (x &&& 0xfc#8 ||| y &&& 3#8) &&& 3#8 = y &&& 3#8 := by
  have hkeep : 0xfc#8 &&& 3#8 = 0#8 := rfl
  rw [BitVec.and_or_distrib_right, BitVec.and_assoc, BitVec.and_assoc, hkeep, BitVec.and_zero, BitVec.zero_or,
    BitVec.and_self]

/-- A channel with its low two bits replaced keeps the upper six (43 R217). -/
theorem embedded_div_four (x y : Byte) : (x &&& 0xfc#8 ||| y &&& 3#8).toNat / 4 = x.toNat / 4 := by
  have hupper : x.toNat / 4 < 2 ^ 6 := by have := x.isLt; omega
  calc (x &&& 0xfc#8 ||| y &&& 3#8).toNat / 4
      = (x.toNat &&& 0xfc ||| y.toNat &&& 3) >>> 2 := (Nat.shiftRight_eq_div_pow _ 2).symm
    _ = x.toNat >>> 2 &&& (2 ^ 6 - 1) ||| y.toNat >>> 2 &&& 0 := by
      rw [Nat.shiftRight_or_distrib, Nat.shiftRight_and_distrib, Nat.shiftRight_and_distrib]
      rfl
    _ = x.toNat / 4 := by
      rw [Nat.and_zero, Nat.or_zero, Nat.and_two_pow_sub_one_eq_mod, Nat.shiftRight_eq_div_pow, Nat.mod_eq_of_lt hupper]

/-- A payload byte from its four two-bit fields (43 R210). -/
theorem payload_fields_toNat : ∀ a r g b : Fin 4,
    ((BitVec.ofNat 8 a <<< 6) ||| (BitVec.ofNat 8 r <<< 4) ||| (BitVec.ofNat 8 g <<< 2) ||| BitVec.ofNat 8 b).toNat =
      a.val * 64 + r.val * 16 + g.val * 4 + b.val := by decide

theorem pixByte_toNat (p : Pixel) :
    (pixByte p).toNat = p.a.toNat % 4 * 64 + p.r.toNat % 4 * 16 + p.g.toNat % 4 * 4 + p.b.toNat % 4 := by
  have hlow : ∀ x : Byte, x &&& 3#8 = BitVec.ofNat 8 (x.toNat % 4) := fun x => by
    rw [← and_three_toNat, BitVec.ofNat_toNat, BitVec.setWidth_eq]
  have hlt : ∀ x : Byte, x.toNat % 4 < 4 := fun x => Nat.mod_lt _ (by decide)
  rw [pixByte, hlow, hlow, hlow, hlow]
  exact payload_fields_toNat ⟨_, hlt p.a⟩ ⟨_, hlt p.r⟩ ⟨_, hlt p.g⟩ ⟨_, hlt p.b⟩

/-- A byte is its four two-bit fields (43 R210). -/
theorem two_bit_fields (v : Byte) :
    ((v >>> 6 &&& 3#8) <<< 6) ||| ((v >>> 4 &&& 3#8) <<< 4) ||| ((v >>> 2 &&& 3#8) <<< 2) ||| (v &&& 3#8) = v := by
  ext i hi
  interval_cases i <;> simp

/-- Unpacking a pixel gives the byte packed into it (43 R210, R217). -/
theorem pixByte_embedByte (v : Byte) (p : Pixel) : pixByte (embedByte v p) = v := by
  simp only [pixByte, embedByte, and_three_of_embedded, two_bit_fields]

/-! ### The nearest colour -/

/-- `best` is the lowest index of a closest colour, with its distance (43 R216). -/
def IsNearest (r g b : Byte) (pal : List Rgb) (best : Nat × Nat) : Prop :=
  ∃ n, pal[best.1]? = some n ∧ best.2 = colourDist r g b n ∧
    ∀ i c, pal[i]? = some c → best.2 ≤ colourDist r g b c ∧ (best.2 = colourDist r g b c → best.1 ≤ i)

theorem isNearest_singleton (r g b : Byte) (c : Rgb) : IsNearest r g b [c] (0, colourDist r g b c) := by
  refine ⟨c, rfl, rfl, fun i d hd => ?_⟩
  obtain ⟨-, rfl⟩ : i = 0 ∧ c = d := by simpa using List.getElem?_eq_some_iff.1 hd
  exact ⟨le_rfl, fun _ => Nat.zero_le i⟩

/-- A colour more is kept only if it is strictly closer. -/
theorem IsNearest.snoc {r g b : Byte} {pal : List Rgb} {best : Nat × Nat} (h : IsNearest r g b pal best) (c : Rgb) :
    IsNearest r g b (pal ++ [c])
      (if colourDist r g b c < best.2 then (pal.length, colourDist r g b c) else best) := by
  obtain ⟨n, hn, hdist, hleast⟩ := h
  have hindex : best.1 < pal.length := (List.getElem?_eq_some_iff.1 hn).1
  have hold : ∀ {i d}, (pal ++ [c])[i]? = some d → pal[i]? = some d ∨ i = pal.length ∧ d = c := by
    intro i d hd
    rcases Nat.lt_or_ge i pal.length with hlt | hge
    · exact .inl (by rwa [List.getElem?_append_left hlt] at hd)
    · right
      rw [List.getElem?_append_right hge, List.getElem?_singleton] at hd
      split at hd
      · exact ⟨by omega, (Option.some.inj hd).symm⟩
      · cases hd
  split
  · next hcloser =>
    refine ⟨c, by simp, rfl, fun i d hd => ?_⟩
    rcases hold hd with hi | ⟨rfl, rfl⟩
    · have := hleast i d hi
      constructor <;> (dsimp only; omega)
    · exact ⟨le_rfl, fun _ => le_rfl⟩
  · next hfar =>
    refine ⟨n, by rwa [List.getElem?_append_left hindex], hdist, fun i d hd => ?_⟩
    rcases hold hd with hi | ⟨rfl, rfl⟩
    · exact hleast i d hi
    · exact ⟨Nat.not_lt.1 hfar, fun _ => hindex.le⟩

theorem nearestFrom_isNearest {r g b : Byte} {pal : List Rgb} {best : Nat × Nat} (cs : List Rgb)
    (h : IsNearest r g b pal best) : IsNearest r g b (pal ++ cs) (nearestFrom r g b cs pal.length best) := by
  induction cs generalizing pal best with
  | nil => rwa [List.append_nil]
  | cons c cs ih =>
    have hrest := ih (h.snoc c)
    rwa [List.append_assoc, List.length_append] at hrest

theorem channelDist_le (x y : Byte) : channelDist x y ≤ 255 ^ 2 := by
  have hx := x.isLt
  have hy := y.isLt
  exact Nat.pow_le_pow_left (by omega) 2

theorem colourDist_lt (r g b : Byte) (c : Rgb) : colourDist r g b c < 2 ^ 18 := by
  have hr := channelDist_le r c.r
  have hg := channelDist_le g c.g
  have hb := channelDist_le b c.b
  unfold colourDist
  omega

/-- The scan of a palette finds its nearest colour (43 R216). -/
theorem nearest_isNearest {pal : List Rgb} (hne : pal ≠ []) (r g b : Byte) :
    ∃ d, IsNearest r g b pal (nearest pal r g b, d) := by
  cases pal with
  | nil => exact absurd rfl hne
  | cons c cs =>
    refine ⟨(nearestFrom r g b (c :: cs) 0 (0, 2 ^ 18)).2, ?_⟩
    have hscan := nearestFrom_isNearest cs (isNearest_singleton r g b c)
    show IsNearest r g b _ (nearestFrom r g b (c :: cs) 0 (0, 2 ^ 18))
    rwa [nearestFrom, if_pos (colourDist_lt r g b c)]

/-- Settles O41: the scan keeps the first closest colour. -/
theorem nearestIsLowestClosest : Obligations.NearestIsLowestClosest := by
  intro pal r g b i c hc
  obtain ⟨d, n, hn, rfl, hleast⟩ := nearest_isNearest (pal := pal) (by rintro rfl; cases hc) r g b
  exact ⟨n, hn, hleast i c hc⟩

end Sys2Proof.Machine
end

section
/-! SUPPORT. `PNG_UNPACK` and `PNG_PACK` (43_rom_serializer.md R208 to R219). -/

namespace Sys2Proof.Machine

open Sys2Proof

/-! ### The payload of an image -/

theorem Memory.read_ofBytes_of_getElem? {bs : ByteString} {a : Nat} {b : Byte} (h : bs[a]? = some b) :
    (Memory.ofBytes 0 bs).read a = b := by
  have hlen : a < bs.length := (List.getElem?_eq_some_iff.1 h).1
  rw [Memory.read_ofBytes, if_pos (by omega), Nat.sub_zero, List.getD_eq_getElem?_getD, h]
  rfl

theorem read_unpackRom {px : List Pixel} {p : Pixel} {i : Nat} (hp : px[i]? = some p) (hi : i < romSize) :
    (unpackRom px).read i = pixByte p := by
  refine Memory.read_ofBytes_of_getElem? ?_
  rw [List.getElem?_map, List.getElem?_take_of_lt hi, hp]
  rfl

/-- Nothing stands above ROM (10 R35). -/
theorem read_unpackRom_above {i : Nat} (px : List Pixel) (hi : romSize ≤ i) : (unpackRom px).read i = 0#8 := by
  rw [unpackRom, Memory.read_ofBytes, if_neg]
  rw [List.length_map, List.length_take]
  omega

theorem payloadAt_eq {px : List Pixel} {p : Pixel} {i : Nat} (hp : px[i]? = some p) : payloadAt px i = pixByte p := by
  rw [payloadAt, hp]

/-! ### The label of an image -/

/-- The parts of a concatenation of parts of one length. -/
theorem getElem?_flatMap_of_length {α β : Type} {f : α → List β} {n k : Nat} (hk : k < n) :
    ∀ {l : List α} {y : Nat} {a : α}, (∀ a ∈ l, (f a).length = n) → l[y]? = some a → (l.flatMap f)[y * n + k]? = (f a)[k]?
  | [], _, _, _, ha => by cases ha
  | b :: l, 0, a, hf, ha => by
    have hb := hf b List.mem_cons_self
    cases ha
    rw [List.flatMap_cons, Nat.zero_mul, Nat.zero_add, List.getElem?_append_left (by rwa [hb])]
  | b :: l, y + 1, a, hf, ha => by
    have hb := hf b List.mem_cons_self
    have hskip : (y + 1) * n + k - n = y * n + k := by rw [Nat.succ_mul]; omega
    rw [List.flatMap_cons, List.getElem?_append_right (by rw [hb, Nat.succ_mul]; omega), hb, hskip]
    exact getElem?_flatMap_of_length hk (fun a ha => hf a (List.mem_cons_of_mem b ha)) ha

/-- The two pixels of a packed byte (43 R206, R212). -/
theorem pixelNibble_packed {l r : Nat} (hl : l < 16) (hr : r < 16) (k : Nat) :
    (pixelNibble (byteOf (l ||| r <<< 4)) (2 * k)).toNat = l ∧
      (pixelNibble (byteOf (l ||| r <<< 4)) (2 * k + 1)).toNat = r := by
  have hbyte : (byteOf (l ||| r <<< 4)).toNat = 16 * r + l := by
    rw [Nat.or_comm, ← Nat.shiftLeft_add_eq_or_of_lt (i := 4) hl, Nat.shiftLeft_eq, byteOf_toNat_of_lt] <;> omega
  have hpair := toNat_eq_pixelNibbles (byteOf (l ||| r <<< 4)) k
  have hlow := (pixelNibble (byteOf (l ||| r <<< 4)) (2 * k)).isLt
  omega

theorem pixelNibble_add_two (b : Byte) (x : Nat) : pixelNibble b (x + 2) = pixelNibble b x := by
  rw [pixelNibble, pixelNibble, Nat.add_mod_right]

/-- Pixel `x` of packed pixel values (43 R206, R212). -/
theorem pixelNibble_packNibbles : ∀ {l : List Nat} {x v : Nat} {b : Byte}, (∀ u ∈ l, u < 16) → l[x]? = some v →
    (packNibbles l)[x / 2]? = some b → (pixelNibble b x).toNat = v
  | [], _, _, _, _, hv, _ => by cases hv
  | [_], _, _, _, _, _, hb => by cases hb
  | l :: r :: rest, 0, v, b, hsmall, hv, hb => by
    cases hv
    cases hb
    exact (pixelNibble_packed (hsmall l (by simp)) (hsmall r (by simp)) 0).1
  | l :: r :: rest, 1, v, b, hsmall, hv, hb => by
    cases hv
    cases hb
    exact (pixelNibble_packed (hsmall l (by simp)) (hsmall r (by simp)) 0).2
  | l :: r :: rest, x + 2, v, b, hsmall, hv, hb => by
    rw [pixelNibble_add_two]
    refine pixelNibble_packNibbles (l := rest) (fun u hu => hsmall u (by simp [hu])) hv ?_
    rwa [Nat.add_div_right x (by decide), packNibbles, List.getElem?_cons_succ] at hb

theorem labelFits_iff {c : Config} {w h : Nat} :
    labelFits c w h = true ↔ c.labelX + labelSide ≤ w ∧ c.labelY + labelSide ≤ h := by
  rw [labelFits, Bool.and_eq_true, decide_eq_true_iff, decide_eq_true_iff]

/-- A palette of 16 colours has 4-bit indexes (43 R215). -/
theorem nearest_lt {pal : List Rgb} (hpal : pal.length = 16) (r g b : Byte) : nearest pal r g b < 16 := by
  obtain ⟨_, _, hn, -⟩ := nearest_isNearest (pal := pal) (by rintro rfl; cases hpal) r g b
  exact hpal ▸ (List.getElem?_eq_some_iff.1 hn).1

section
variable {c : Config} {w h x y : Nat} {px : List Pixel} (hfits : labelFits c w h = true) (hpx : px.length = w * h)
include hfits hpx

/-- The rectangle is within the image (43 R208). -/
theorem labelRow_within (hy : y < labelSide) : (c.labelY + y) * w + c.labelX + labelSide ≤ px.length := by
  obtain ⟨hw, hh⟩ := labelFits_iff.1 hfits
  have hrows : (c.labelY + y + 1) * w ≤ h * w := Nat.mul_le_mul_right w (by omega)
  rw [Nat.succ_mul] at hrows
  rw [hpx, Nat.mul_comm w h]
  omega

theorem labelRow_length (hy : y < labelSide) : (labelRow c w px y).length = 64 := by
  have hwithin := labelRow_within hfits hpx hy
  rw [labelRow, packNibbles_length, List.length_map, List.length_take, List.length_drop, Nat.min_eq_left (by omega)]
  rfl

/-- Label pixel `(x, y)` is the nearest colour of the rectangle's pixel (43 R208, R212). -/
theorem labelPixel_unpackLabel {p : Pixel} (hpal : c.palette.length = 16) (hx : x < labelSide) (hy : y < labelSide)
    (hp : px[(c.labelY + y) * w + c.labelX + x]? = some p) :
    (labelPixel (unpackLabel c w h px) x y).toNat = nearest c.palette p.r p.g p.b := by
  have hhalf : x / 2 < 64 := by unfold labelSide at hx; omega
  have hlens : ∀ y ∈ List.range labelSide, (labelRow c w px y).length = 64 := fun y hy =>
    labelRow_length hfits hpx (List.mem_range.1 hy)
  obtain ⟨b, hb⟩ : ∃ b, (labelRow c w px y)[x / 2]? = some b :=
    ⟨_, List.getElem?_eq_getElem (by rwa [labelRow_length hfits hpx hy])⟩
  have hread : (unpackLabel c w h px).read (y * 64 + x / 2) = b := by
    rw [unpackLabel, if_pos hfits]
    exact Memory.read_ofBytes_of_getElem? ((getElem?_flatMap_of_length hhalf hlens (List.getElem?_range hy)).trans hb)
  rw [labelPixel, hread]
  refine pixelNibble_packNibbles (fun u hu => ?_) ?_ hb
  · obtain ⟨p, -, rfl⟩ := List.mem_map.1 hu
    exact nearest_lt hpal p.r p.g p.b
  · rw [List.getElem?_map, List.getElem?_take_of_lt hx, List.getElem?_drop, hp]
    rfl

end

/-! ### The commands -/

theorem wf_pngUnpack {w h : Nat} {p : ByteString} (hw : w < 65536) (hh : h < 65536) : (Instr.pngUnpack w h p).wf = true :=
  Bool.and_eq_true_iff.2 ⟨decide_eq_true hw, decide_eq_true hh⟩

theorem wf_pngPack {w h ver : Nat} {p : ByteString} (hw : w < 65536) (hh : h < 65536) (hver : ver < 256) :
    (Instr.pngPack w h p ver).wf = true :=
  Bool.and_eq_true_iff.2 ⟨Bool.and_eq_true_iff.2 ⟨decide_eq_true hw, decide_eq_true hh⟩, decide_eq_true hver⟩

/-- What a command with `ok = false` leaves (60 R261; log 25). -/
theorem respond_failed_fnr (s : State) :
    respond (.failed (setFlag .fnr s.cleared).status) (setFlag .fnr s.cleared) =
      { s with status := 0x01#8, results := s.results ++ [.failed 0x01#8] } := by
  have hflag : 0x01#8 = (setFlag .fnr s.cleared).status := by
    rw [setFlag_status, cleared_status]
    decide
  rw [hflag]
  rfl

/-- `PNG_UNPACK` is refused at a wrong length, fails on a small image, else it returns (43 R209 to R212). -/
theorem exec_pngUnpack_eq {s : State} {w h : Nat} {p : ByteString} (hready : Ready (.pngUnpack w h p) s) :
    exec (.pngUnpack w h p) s =
      if p.length ≠ 4 * w * h then .refused .pixelBufferLength
      else if w * h < payloadPixels then
        .next { s with status := 0x01#8, results := s.results ++ [.failed 0x01#8] }
      else .next { s with
        rom := unpackRom (toPixels p), label := unpackLabel s.cfg w h (toPixels p), cacheValid := false, status := 0#8
        results := s.results ++ [.unpacked (payloadAt (toPixels p) romSize) 0#8] } := by
  show execPngUnpack w h p s = _
  rw [execPngUnpack, preamble_of_ready hready, ← respond_failed_fnr]
  rfl

/-- `PNG_PACK` is refused at a wrong length, fails on a small template, else it returns (43 R213 to R217). -/
theorem exec_pngPack_eq {s : State} {w h ver : Nat} {p : ByteString} (hready : Ready (.pngPack w h p ver) s) :
    exec (.pngPack w h p ver) s =
      if p.length ≠ 4 * w * h then .refused .pixelBufferLength
      else if w * h < payloadPixels then
        .next { s with status := 0x01#8, results := s.results ++ [.failed 0x01#8] }
      else .next { s with status := 0#8, results := s.results ++ [.packed (packPixels s w h p ver) 0#8] } := by
  show execPngPack w h p ver s = _
  rw [execPngPack, preamble_of_ready hready, ← respond_failed_fnr]
  rfl

/-- Settles O39: both checks of both commands. -/
theorem smallOrMalformedImagesAreRejected : Obligations.SmallOrMalformedImagesAreRejected := by
  intro s w h ver p hf hw hh hver
  rw [exec_pngUnpack_eq ⟨hf, wf_pngUnpack hw hh⟩, exec_pngPack_eq ⟨hf, wf_pngPack hw hh hver⟩]
  refine ⟨fun hne => ?_, fun hlen hsmall => ?_⟩
  · rw [if_pos hne, if_pos hne]
    exact ⟨rfl, rfl⟩
  · rw [if_neg (not_not.2 hlen), if_neg (not_not.2 hlen), payloadPixels, if_pos hsmall, if_pos hsmall]
    exact ⟨rfl, rfl⟩

section
variable {s : State} {w h ver : Nat} {p : ByteString} (hlen : p.length = 4 * w * h)
include hlen

/-- An image has one pixel for every four bytes (20 R52). -/
theorem toPixels_length_of_image : (toPixels p).length = w * h := by
  rw [toPixels_length, hlen, Nat.mul_assoc, Nat.mul_div_cancel_left _ (by decide)]

theorem exec_pngUnpack_of_image (hready : Ready (.pngUnpack w h p) s) (hbig : payloadPixels ≤ w * h) :
    exec (.pngUnpack w h p) s = .next { s with
      rom := unpackRom (toPixels p), label := unpackLabel s.cfg w h (toPixels p), cacheValid := false, status := 0#8
      results := s.results ++ [.unpacked (payloadAt (toPixels p) romSize) 0#8] } := by
  rw [exec_pngUnpack_eq hready, if_neg (not_not.2 hlen), if_neg (Nat.not_lt.2 hbig)]

theorem exec_pngPack_of_image (hready : Ready (.pngPack w h p ver) s) (hbig : payloadPixels ≤ w * h) :
    exec (.pngPack w h p ver) s =
      .next { s with status := 0#8, results := s.results ++ [.packed (packPixels s w h p ver) 0#8] } := by
  rw [exec_pngPack_eq hready, if_neg (not_not.2 hlen), if_neg (Nat.not_lt.2 hbig)]

end

/-- The parameters' palette has 16 colours (00 R5). -/
theorem palette_length {c : Config} (h : c.wf = true) : c.palette.length = 16 := by
  simp only [Config.wf, Bool.and_eq_true, beq_iff_eq] at h
  obtain ⟨⟨⟨⟨-, hlen⟩, -⟩, -⟩, -⟩ := h
  exact hlen

/-- Settles O40: the payload's pixels, the version's, and the rectangle's. -/
theorem pngUnpackReadsThePayload : Obligations.PngUnpackReadsThePayload := by
  intro s w h p hf hcfg hw hh hlen hbig
  have hpx := toPixels_length_of_image hlen
  have hpixel : ∀ {i r g b}, i < w * h → p[4 * i]? = some r → p[4 * i + 1]? = some g → p[4 * i + 2]? = some b →
      ∃ a, p[4 * i + 3]? = some a ∧ (toPixels p)[i]? = some ⟨r, g, b, a⟩ := by
    intro i r g b hi hr hg hb
    have hget := List.getElem?_eq_getElem (hpx ▸ hi)
    obtain ⟨hr', hg', hb', ha'⟩ := channels_of_toPixels hget
    cases hr.symm.trans hr'
    cases hg.symm.trans hg'
    cases hb.symm.trans hb'
    exact ⟨_, ha', hget⟩
  refine ⟨_, _, exec_pngUnpack_of_image hlen ⟨hf, wf_pngUnpack hw hh⟩ hbig, rfl, ?_, ?_, ?_, ?_⟩
  · intro i r g b a hi hr hg hb ha
    obtain ⟨a', ha', hp⟩ := hpixel (by omega) hr hg hb
    cases ha.symm.trans ha'
    refine Eq.trans (congrArg BitVec.toNat ?_) (pixByte_toNat ⟨r, g, b, a⟩)
    split
    · next hrom => exact read_unpackRom hp hrom
    · next hver =>
      obtain rfl : i = romSize := by unfold romSize; omega
      exact payloadAt_eq hp
  · exact fun i => read_unpackRom_above (toPixels p)
  · intro x y q r g b hx hy hfitx hfity hq hr hg hb
    subst hq
    have hfits := labelFits_iff.2 ⟨hfitx, hfity⟩
    have hin := labelRow_within hfits hpx hy
    obtain ⟨a, -, hp⟩ := hpixel (by unfold labelSide at hin; omega) hr hg hb
    exact labelPixel_unpackLabel hfits hpx (palette_length hcfg) hx hy hp
  · intro hno a
    dsimp only
    rw [unpackLabel, if_neg (fun hfits => hno (labelFits_iff.1 hfits)), Memory.read_nil]

/-! ### Packing -/

theorem toPixels_packPixels (s : State) (w h ver : Nat) (p : ByteString) :
    toPixels (packPixels s w h p ver) = (toPixels p).mapIdx (packPixel s w h ver) := by
  rw [packPixels, toPixels_ofPixels, mapPixels_eq_mapIdx]
  simp only [Nat.zero_add]

theorem packPixels_length {s : State} {w h ver : Nat} {p : ByteString} (hlen : p.length = 4 * w * h) :
    (packPixels s w h p ver).length = p.length := by
  rw [packPixels, ofPixels_length, mapPixels_eq_mapIdx, List.length_mapIdx, toPixels_length_of_image hlen, hlen,
    Nat.mul_assoc]

/-- The colour under the payload: the label in its rectangle, else the template (43 R214). -/
def packBase (s : State) (w h i : Nat) (p : Pixel) : Pixel := if labelFits s.cfg w h then labelWriteAt s w i p else p

/-- Each pixel of a packed buffer is its base colour, with the payload in it where there is one (43 R217). -/
theorem getElem?_packPixels {s : State} {w h ver i : Nat} {p : ByteString} {px : Pixel} (hp : (toPixels p)[i]? = some px) :
    (toPixels (packPixels s w h p ver))[i]? = some
      (if i ≤ romSize then embedByte (packByte s ver i) (packBase s w h i px) else packBase s w h i px) := by
  have hpayload : i < payloadPixels ↔ i ≤ romSize := Nat.lt_succ_iff
  rw [toPixels_packPixels, List.getElem?_mapIdx, hp, ← if_congr hpayload rfl rfl]
  rfl

/-- The base colour of label pixel `(x, y)` (43 R214). -/
theorem packBase_label {s : State} {w h x y : Nat} {px : Pixel} {c : Rgb} (hfits : labelFits s.cfg w h = true)
    (hx : x < labelSide) (hy : y < labelSide) (hc : s.cfg.palette[(labelPixel s.label x y).toNat]? = some c) :
    packBase s w h ((s.cfg.labelY + y) * w + s.cfg.labelX + x) px = ⟨c.r, c.g, c.b, 0xff#8⟩ := by
  obtain ⟨hw, -⟩ := labelFits_iff.1 hfits
  have hcol : s.cfg.labelX + x < w := by omega
  have hrow : ((s.cfg.labelY + y) * w + s.cfg.labelX + x) / w = s.cfg.labelY + y := by
    rw [Nat.add_assoc, Nat.mul_comm, Nat.mul_add_div (by omega), Nat.div_eq_of_lt hcol, Nat.add_zero]
  have hmod : ((s.cfg.labelY + y) * w + s.cfg.labelX + x) % w = s.cfg.labelX + x := by
    rw [Nat.add_assoc, Nat.mul_add_mod_of_lt hcol]
  rw [packBase, if_pos hfits, labelWriteAt, hrow, hmod]
  dsimp only
  rw [if_pos (by omega), Nat.add_sub_cancel_left, Nat.add_sub_cancel_left, paletteColour, hc]
  rfl

/-- Outside the label rectangle the base colour is the template's (43 R214). -/
theorem packBase_template {s : State} {w h i : Nat} {px : Pixel}
    (hout : ¬ (s.cfg.labelX + 128 ≤ w ∧ s.cfg.labelY + 128 ≤ h) ∨
      ¬ (s.cfg.labelX ≤ i % w ∧ i % w < s.cfg.labelX + 128 ∧ s.cfg.labelY ≤ i / w ∧ i / w < s.cfg.labelY + 128)) :
    packBase s w h i px = px := by
  rw [packBase]
  split
  · next hfits =>
    have hrect := hout.resolve_left (not_not.2 (labelFits_iff.1 hfits))
    exact if_neg fun ⟨hylo, hyhi, hxlo, hxhi⟩ => hrect ⟨hxlo, hxhi, hylo, hyhi⟩
  · rfl

/-- Settles O42: each pixel's base colour, and the payload in it. -/
theorem pngPackEmbedsThePayload : Obligations.PngPackEmbedsThePayload := by
  intro s w h ver p hf _ hw hh hver hlen hbig
  refine ⟨_, exec_pngPack_of_image hlen ⟨hf, wf_pngPack hw hh hver⟩ hbig, packPixels_length hlen, fun i px hp => ?_⟩
  refine ⟨packBase s w h i px, ?_, fun x y c hx hy hfitx hfity hi hc => ?_, packBase_template⟩
  · exact getElem?_packPixels hp
  · rw [hi]
    exact packBase_label (labelFits_iff.2 ⟨hfitx, hfity⟩) hx hy hc

/-! ### The round trip -/

/-- Two colours differ by at most 8 in each channel. -/
def NearColours (c d : Rgb) : Prop := channelDist c.r d.r ≤ 64 ∧ channelDist c.g d.g ≤ 64 ∧ channelDist c.b d.b ≤ 64

/-- No two colours of the default palette are near each other (43 R215). -/
theorem defaultPalette_separated {i j : Nat} {c d : Rgb} (hc : defaultPalette[i]? = some c)
    (hd : defaultPalette[j]? = some d) (h : NearColours c d) : i = j := by
  have hall : ∀ i j : Fin defaultPalette.length,
      channelDist defaultPalette[i].r defaultPalette[j].r ≤ 64 ∧ channelDist defaultPalette[i].g defaultPalette[j].g ≤ 64 ∧
        channelDist defaultPalette[i].b defaultPalette[j].b ≤ 64 → i = j := by decide
  obtain ⟨hi, rfl⟩ := List.getElem?_eq_some_iff.1 hc
  obtain ⟨hj, rfl⟩ := List.getElem?_eq_some_iff.1 hd
  exact congrArg Fin.val (hall ⟨i, hi⟩ ⟨j, hj⟩ h)

/-- Channels with the same upper six bits differ by at most 3. -/
theorem channelDist_le_of_div_four {x y : Byte} (h : x.toNat / 4 = y.toNat / 4) : channelDist x y ≤ 9 :=
  Nat.pow_le_pow_left (show _ ≤ 3 by omega) 2

/-- Three and five apart make at most eight. -/
theorem channelDist_triangle {x y z : Byte} (hxy : channelDist x y ≤ 9) (hxz : channelDist x z ≤ 27) :
    channelDist y z ≤ 64 := by
  have hthree : (x.toNat - y.toNat) + (y.toNat - x.toNat) < 4 :=
    lt_of_pow_lt_pow_left₀ 2 (by decide) (hxy.trans_lt (by decide))
  have hfive : (x.toNat - z.toNat) + (z.toNat - x.toNat) < 6 :=
    lt_of_pow_lt_pow_left₀ 2 (by decide) (hxz.trans_lt (by decide))
  exact Nat.pow_le_pow_left (show _ ≤ 8 by omega) 2

/-- A default colour whose low two bits changed is still its own nearest: both it and the nearest are near what it became
(43 R215, R216). -/
theorem nearest_defaultPalette {i : Nat} {c : Rgb} {r g b : Byte} (hc : defaultPalette[i]? = some c)
    (hr : r.toNat / 4 = c.r.toNat / 4) (hg : g.toNat / 4 = c.g.toNat / 4) (hb : b.toNat / 4 = c.b.toNat / 4) :
    nearest defaultPalette r g b = i := by
  obtain ⟨n, hn, hle, -⟩ := nearestIsLowestClosest defaultPalette r g b i c hc
  have hr' := channelDist_le_of_div_four hr
  have hg' := channelDist_le_of_div_four hg
  have hb' := channelDist_le_of_div_four hb
  unfold colourDist at hle
  have hnear : NearColours c n :=
    ⟨channelDist_triangle hr' (by omega), channelDist_triangle hg' (by omega), channelDist_triangle hb' (by omega)⟩
  exact (defaultPalette_separated hc hn hnear).symm

/-- Embedding 0x00 clears the low two bits of every channel (43 R217). -/
theorem embedByte_zero_mod_four (p : Pixel) :
    (embedByte 0#8 p).r.toNat % 4 = 0 ∧ (embedByte 0#8 p).g.toNat % 4 = 0 ∧ (embedByte 0#8 p).b.toNat % 4 = 0 ∧
      (embedByte 0#8 p).a.toNat % 4 = 0 := by
  simp only [← and_three_toNat, embedByte, and_three_of_embedded]
  decide

/-- A label is its pixels (43 R206, R208). -/
theorem read_eq_of_labelPixels {m n : Memory}
    (hpix : ∀ x y, x < labelSide → y < labelSide → (labelPixel m x y).toNat = (labelPixel n x y).toNat) {a : Nat}
    (ha : a < labelSize) : m.read a = n.read a := by
  have hy : a / 64 < labelSide := by unfold labelSize at ha; unfold labelSide; omega
  have heven : a / 64 * 64 + 2 * (a % 64) / 2 = a := by omega
  have hodd : a / 64 * 64 + (2 * (a % 64) + 1) / 2 = a := by omega
  have hleft := hpix (2 * (a % 64)) (a / 64) (by unfold labelSide; omega) hy
  have hright := hpix (2 * (a % 64) + 1) (a / 64) (by unfold labelSide; omega) hy
  rw [labelPixel, labelPixel, heven] at hleft
  rw [labelPixel, labelPixel, hodd] at hright
  refine BitVec.eq_of_toNat_eq ?_
  rw [toNat_eq_pixelNibbles _ (a % 64), hleft, hright, ← toNat_eq_pixelNibbles]

section
variable {s : State} {w h ver : Nat} {p : ByteString} (hlen : p.length = 4 * w * h)
include hlen

/-- A payload pixel of a packed buffer (43 R217). -/
theorem packed_payload_pixel (hbig : payloadPixels ≤ w * h) {i : Nat} (hi : i ≤ romSize) :
    ∃ base, (toPixels (packPixels s w h p ver))[i]? = some (embedByte (packByte s ver i) base) := by
  have hin : i < (toPixels p).length := by
    rw [toPixels_length_of_image hlen]
    exact (Nat.lt_succ_of_le hi).trans_le hbig
  have hq := getElem?_packPixels (s := s) (w := w) (h := h) (ver := ver) (List.getElem?_eq_getElem hin)
  rw [if_pos hi] at hq
  exact ⟨_, hq⟩

/-- A packed label pixel of a default colour unpacks to itself (43 R219). -/
theorem labelPixel_unpackLabel_packPixels (hpal : s.cfg.palette = defaultPalette) (hfits : labelFits s.cfg w h = true)
    {x y : Nat} (hx : x < labelSide) (hy : y < labelSide) :
    (labelPixel (unpackLabel s.cfg w h (toPixels (packPixels s w h p ver))) x y).toNat = (labelPixel s.label x y).toNat := by
  have hpx := toPixels_length_of_image hlen
  have hin : (s.cfg.labelY + y) * w + s.cfg.labelX + x < (toPixels p).length := by
    have := labelRow_within hfits hpx hy
    omega
  have hlt : (labelPixel s.label x y).toNat < defaultPalette.length := (labelPixel s.label x y).isLt
  have hc := List.getElem?_eq_getElem hlt
  have hq := getElem?_packPixels (s := s) (w := w) (h := h) (ver := ver) (List.getElem?_eq_getElem hin)
  rw [packBase_label hfits hx hy (by rwa [hpal])] at hq
  have hqlen : (toPixels (packPixels s w h p ver)).length = w * h :=
    toPixels_length_of_image ((packPixels_length hlen).trans hlen)
  rw [labelPixel_unpackLabel hfits hqlen (by rw [hpal]; rfl) hx hy hq, hpal]
  split
  · exact nearest_defaultPalette hc (embedded_div_four ..) (embedded_div_four ..) (embedded_div_four ..)
  · exact nearest_defaultPalette hc rfl rfl rfl

end

/-- Settles O43: every payload pixel gives its byte back, and every label pixel its colour. -/
theorem pngRoundTrip : Obligations.PngRoundTrip := by
  intro s u w h ver p hf hfu hcfg hw hh hver hlen hbig
  have hqlen : (packPixels s w h p ver).length = 4 * w * h := (packPixels_length hlen).trans hlen
  have hpayload : ∀ {i}, i ≤ romSize → ∃ base,
      (toPixels (packPixels s w h p ver))[i]? = some (embedByte (packByte s ver i) base) :=
    packed_payload_pixel hlen hbig
  refine ⟨_, _, exec_pngPack_of_image hlen ⟨hf, wf_pngPack hw hh hver⟩ hbig,
    exec_pngUnpack_of_image hqlen ⟨hfu, wf_pngUnpack hw hh⟩ hbig, fun a ha => ?_, ?_, ?_, ?_⟩
  · obtain ⟨base, hq⟩ := hpayload ha.le
    exact (read_unpackRom hq ha).trans ((pixByte_embedByte ..).trans (if_pos ha))
  · obtain ⟨base, hq⟩ := hpayload le_rfl
    dsimp only
    rw [payloadAt_eq hq, pixByte_embedByte, packByte, if_neg (lt_irrefl romSize)]
  · intro hpal hfitx hfity a ha
    dsimp only
    rw [hcfg]
    exact read_eq_of_labelPixels (fun x y hx hy =>
      labelPixel_unpackLabel_packPixels hlen hpal (labelFits_iff.2 ⟨hfitx, hfity⟩) hx hy) ha
  · intro hzero hrom i px hi hq
    obtain ⟨base, hq'⟩ := hpayload hi
    have hbyte : packByte s ver i = 0#8 := by
      rw [packByte, hrom, hzero]
      exact ite_self _
    cases hq.symm.trans hq'
    rw [hbyte]
    exact embedByte_zero_mod_four base

end Sys2Proof.Machine
end

section
/-! SUPPORT. No decode reads or writes `MODE`: the region decode inside an exporter is the one of a `DECOMPRESS`
(42_detect_and_best.md R170; 43_rom_serializer.md R207; 44_text_sections.md R244). -/

namespace Sys2Proof.Machine

open Sys2Proof

/-- The state with another `MODE`. -/
def State.withMode (m : Mode) (s : State) : State := { s with mode := m }

@[simp] theorem withMode_stage (m : Mode) (s : State) : (s.withMode m).stage = s.stage := rfl

/-- A meaning that neither reads nor writes `MODE`: it commutes with setting it. -/
structure IgnoresMode (k : State → Step) : Prop where
  comm (m : Mode) (s : State) : k (s.withMode m) = andThen (k s) fun t => .next (t.withMode m)

/-! ### Compositions -/

theorem ignoresMode_next {f : State → State} (hf : ∀ m s, f (s.withMode m) = (f s).withMode m) :
    IgnoresMode fun s => .next (f s) := ⟨fun m s => congrArg Host.Outcome.next (hf m s)⟩

theorem ignoresMode_refused (r : Refusal) : IgnoresMode fun _ => .refused r := ⟨fun _ _ => rfl⟩

theorem ignoresMode_fault (f : Fault) : IgnoresMode fun _ => .fault f := ⟨fun _ _ => rfl⟩

theorem ignoresMode_ite (c : State → Prop) [DecidablePred c] (hc : ∀ m s, c (s.withMode m) ↔ c s) {k l : State → Step}
    (hk : IgnoresMode k) (hl : IgnoresMode l) : IgnoresMode fun s => if c s then k s else l s := by
  refine ⟨fun m s => ?_⟩
  by_cases h : c s
  · simp only [hc, h, if_true, hk.comm m s]
  · simp only [hc, h, if_false, hl.comm m s]

theorem ignoresMode_inDecode (form : Form) (i : Instr) {k : State → Step} (hk : IgnoresMode k) :
    IgnoresMode fun s => inDecode form i s k := by
  refine ⟨fun m s => ?_⟩
  cases hst : s.stage with
  | idle => simp only [inDecode, withMode_stage, hst, andThen]
  | ended _ _ => simp only [inDecode, withMode_stage, hst, andThen]
  | decoding f o =>
    have hwf := ignoresMode_ite (fun _ => i.wf = true) (fun _ _ => Iff.rfl) hk (ignoresMode_refused .illFormedToken)
    have hguard := ignoresMode_ite (fun s => f = form ∧ s.outlen.toNat < s.declen.toNat) (fun _ _ => Iff.rfl) hwf
      (ignoresMode_fault .noDecode)
    simp only [inDecode, withMode_stage, hst]
    exact hguard.comm m s

theorem ignoresMode_takeBits (n : Nat) {k : State → Step} (hk : IgnoresMode k) :
    IgnoresMode fun s => takeBits n s k :=
  ignoresMode_ite (fun s => s.bitpos.toNat + n ≤ 8 * s.inlen.toNat) (fun _ _ => Iff.rfl)
    (k := fun s => k { s with bitpos := bitIndexOf (s.bitpos.toNat + n) })
    ⟨fun m s => hk.comm m { s with bitpos := bitIndexOf (s.bitpos.toNat + n) }⟩
    (ignoresMode_next fun _ _ => rfl)

/-! ### The tokens -/

theorem copy_withMode (n offset : Nat) (m : Mode) (s : State) :
    copy n offset (s.withMode m) = (copy n offset s).withMode m := by
  induction n generalizing s with
  | zero => rfl
  | succ n ih =>
    rw [copy, copy, apply_ite (State.withMode m), ← ih]
    rfl

theorem reference_withMode (offset len : Nat) (m : Mode) (s : State) :
    reference offset len (s.withMode m) = (reference offset len s).withMode m := by
  rw [reference, reference, apply_ite (State.withMode m), ← copy_withMode]
  rfl

theorem literal_withMode (k v : Nat) (m : Mode) (s : State) :
    literal k v (s.withMode m) = (literal k v s).withMode m := by
  simp only [literal, apply_ite (State.withMode m)]
  rfl

theorem ignoresMode_byteToken {f : State → State} (hf : ∀ m s, f (s.withMode m) = (f s).withMode m) :
    IgnoresMode fun s => if s.inlen.toNat ≤ s.ip.toNat + 1 then .next (stop .trunc s) else .next (f s) :=
  ignoresMode_ite (fun s => s.inlen.toNat ≤ s.ip.toNat + 1) (fun _ _ => Iff.rfl) (ignoresMode_next fun _ _ => rfl)
    (ignoresMode_next hf)

theorem ignoresMode_reference (n offset len : Nat) :
    IgnoresMode fun s => takeBits n s fun s => .next (reference offset len s) :=
  ignoresMode_takeBits n (ignoresMode_next (reference_withMode offset len))

theorem ignoresMode_runToken (i : Instr) : IgnoresMode (runToken i) := by
  cases i with
  | lit code =>
    exact ignoresMode_inDecode _ _
      (ignoresMode_next (f := fun s => advanceIp 1 (append (alphaOf s.cfg code) s)) fun _ _ => rfl)
  | esc raw =>
    exact ignoresMode_inDecode _ _ (ignoresMode_byteToken (f := fun s => advanceIp 2 (append raw s)) fun _ _ => rfl)
  | bref offset len =>
    exact ignoresMode_inDecode _ _ (ignoresMode_byteToken (f := fun s => reference offset len (advanceIp 2 s)) fun m s =>
      reference_withMode offset len m (advanceIp 2 s))
  | mlit k v =>
    exact ignoresMode_inDecode _ _ (ignoresMode_takeBits _ (ignoresMode_next (literal_withMode k v)))
  | mbrefS offset len => exact ignoresMode_inDecode _ _ (ignoresMode_reference _ offset len)
  | mbrefM offset len =>
    exact ignoresMode_inDecode _ _ (ignoresMode_ite
      (fun s => s.cfg.modernRawEscape ∧ offset = 1 ∧ s.bitpos.toNat + 13 ≤ 8 * s.inlen.toNat) (fun _ _ => Iff.rfl)
      (ignoresMode_refused .rawEscape) (ignoresMode_reference _ offset len))
  | mbrefL offset len => exact ignoresMode_inDecode _ _ (ignoresMode_reference _ offset len)
  | _ => exact ignoresMode_fault .noDecode

/-! ### The loop -/

theorem rawStep_withMode (m : Mode) (s : State) : rawStep (s.withMode m) = (rawStep s).withMode m := by
  have hinbuf : (s.withMode m).inbuf[(s.withMode m).ip.toNat]? = s.inbuf[s.ip.toNat]? := rfl
  rw [rawStep, rawStep, apply_ite (State.withMode m), hinbuf]
  cases s.inbuf[s.ip.toNat]? with
  | none => rfl
  | some b =>
    dsimp only
    rw [apply_ite (State.withMode m)]
    rfl

/-- What is fetched, in a state with another `MODE`. -/
def Fetch.withMode (m : Mode) : Fetch → Fetch
  | .run i s => .run i (s.withMode m)
  | .act s => .act (s.withMode m)
  | .refuse r => .refuse r

theorem fetchLegacy_withMode (m : Mode) (s : State) : fetchLegacy (s.withMode m) = (fetchLegacy s).withMode m := by
  have hahead : legacyAhead (s.withMode m) = legacyAhead s := rfl
  rw [fetchLegacy, fetchLegacy, hahead]
  cases decodeLegacy (legacyAhead s) <;> rfl

theorem fetchModern_withMode (m : Mode) (s : State) : fetchModern (s.withMode m) = (fetchModern s).withMode m := by
  have hahead : modernAhead (s.withMode m) = modernAhead s := rfl
  rw [fetchModern, fetchModern, apply_ite (Fetch.withMode m), hahead]
  cases decodeModern (modernAhead s) <;> rfl

theorem fetchToken_withMode (form : Form) (m : Mode) (s : State) :
    fetchToken form (s.withMode m) = (fetchToken form s).withMode m := by
  cases form with
  | raw => exact congrArg Fetch.act (rawStep_withMode m s)
  | legacy =>
    simp only [fetchToken, apply_ite (Fetch.withMode m), fetchLegacy_withMode]
    rfl
  | modern =>
    simp only [fetchToken, apply_ite (Fetch.withMode m), fetchModern_withMode]
    rfl

theorem ignoresMode_decodeStep (form : Form) : IgnoresMode (decodeStep form) := by
  refine ⟨fun m s => ?_⟩
  rw [decodeStep, decodeStep, fetchToken_withMode]
  cases fetchToken form s with
  | run i t => exact (ignoresMode_runToken i).comm m t
  | act t => rfl
  | refuse r => rfl

theorem ignoresMode_decodeLoop (n : Nat) : IgnoresMode (decodeLoop n) := by
  induction n with
  | zero => exact ignoresMode_next fun _ _ => rfl
  | succ n ih =>
    refine ⟨fun m s => ?_⟩
    cases hst : s.stage with
    | idle => simp only [decodeLoop, withMode_stage, hst, andThen]
    | ended _ _ => simp only [decodeLoop, withMode_stage, hst, andThen]
    | decoding form o =>
      rw [decodeLoop_of_decoding (s := s.withMode m) hst, decodeLoop_of_decoding hst, (ignoresMode_decodeStep form).comm]
      cases decodeStep form s with
      | next t => exact ih.comm m t
      | fault f => rfl
      | refused r => rfl

theorem openDecode_withMode (form : Form) (o : Origin) (buf : ByteString) (m : Mode) (s : State) :
    openDecode form o buf (s.withMode m) = (openDecode form o buf s).withMode m := by
  cases form with
  | raw => rfl
  | legacy =>
    simp only [openDecode, openLegacy, apply_ite (State.withMode m)]
    rfl
  | modern =>
    simp only [openDecode, openModern, apply_ite (State.withMode m)]
    rfl

theorem ignoresMode_decodeBuffer (form : Form) (o : Origin) (buf : ByteString) : IgnoresMode (decodeBuffer form o buf) := by
  refine ⟨fun m s => ?_⟩
  rw [decodeBuffer, openDecode_withMode]
  exact (ignoresMode_decodeLoop _).comm m (openDecode form o buf s)

theorem postProcess_withMode (form : Form) (m : Mode) (s : State) :
    postProcess form (s.withMode m) = (postProcess form s).withMode m := by
  cases form with
  | raw => rfl
  | modern => rfl
  | legacy =>
    simp only [postProcess, dropSnippet, apply_ite (State.withMode m)]
    rfl

/-- A decoded and post-processed buffer has left `MODE`, the cache and the results alone. -/
theorem postProcess_decodeBuffer_keeps {form : Form} {o : Origin} {buf : ByteString} {s t : State}
    (h : decodeBuffer form o buf s = .next t) :
    (postProcess form t).mode = s.mode ∧ (postProcess form t).cache = s.cache ∧
      (postProcess form t).cacheValid = s.cacheValid ∧ (postProcess form t).results = s.results := by
  have hframe := decodeLoop_frame h
  rw [openDecode_frame] at hframe
  unfold TokenFrame at hframe
  rw [postProcess_frame, hframe]
  exact ⟨rfl, rfl, rfl, rfl⟩

/-- The end of a `DECOMPRESS(REGION)`, but for what it writes beside the decode registers (42 R170, R174). -/
theorem finishDecode_region_registers (form : Form) (m m' : Mode) (b : Bool) (c : ByteString) (r : List Result) (g : Stage)
    (t : State) :
    { finishDecode form .region (t.withMode m) with mode := m', cache := c, cacheValid := b, results := r, stage := g } =
      { postProcess form t with mode := m', cache := c, cacheValid := b, results := r, stage := g } := by
  rw [finishDecode, postProcess_withMode]
  rfl

/-- Where `DECOMPRESS(REGION)` would complete, the region decode inside an exporter leaves the same decode registers, text
and flags, and `MODE`, the cache, the results and the stage as they were (43 R207, 44 R244; log 15). -/
theorem decodeRegion_of_decompress {s u : State} (h : exec (.decompress .region) s = .next u) :
    decodeRegion s.cleared = .next { u with
      mode := s.mode, cache := s.cache, cacheValid := s.cacheValid, results := s.results, stage := s.stage } := by
  obtain ⟨hready, v, hv, -⟩ := execDecompress_next h
  have hfinish := exec_decompress_of_loop hready hv
  generalize hform : detect s.cfg (sourceBuffer .region s).2 = form at hfinish
  have hbuffer : decodeBuffer form .region (codeRegion s) (s.cleared.withMode form.mode) = .next v := by
    rw [← hform]
    exact hv
  rw [(ignoresMode_decodeBuffer form .region (codeRegion s)).comm, andThen_next_iff] at hbuffer
  obtain ⟨t, ht, hvt⟩ := hbuffer
  obtain rfl := Host.Outcome.next.inj hvt
  obtain rfl := Host.Outcome.next.inj (h.symm.trans hfinish)
  have hregion : decodeRegion s.cleared = .next { postProcess form t with stage := s.stage } := by
    rw [← andThen_of_next t fun t => .next { postProcess form t with stage := s.stage }, ← ht, ← hform]
    rfl
  obtain ⟨hmode, hcache, hvalid, hresults⟩ :
      (postProcess form t).mode = s.mode ∧ (postProcess form t).cache = s.cache ∧
        (postProcess form t).cacheValid = s.cacheValid ∧ (postProcess form t).results = s.results :=
    postProcess_decodeBuffer_keeps (s := s.cleared) ht
  rw [hregion]
  refine congrArg Host.Outcome.next (Eq.trans ?_ (finishDecode_region_registers form form.mode ..).symm)
  rw [← hmode, ← hcache, ← hvalid, ← hresults]

end Sys2Proof.Machine
end

section
/-! SUPPORT. `BIN_ASSEMBLE` (43_rom_serializer.md R207, R218). -/

namespace Sys2Proof.Machine

open Sys2Proof

/-! ### Once the source is there -/

/-- The state in which a `BIN_ASSEMBLE` on a source ends (43 R207). -/
def assembled (ver : Nat) (src : ByteString) (u : State) : State :=
  let v := flagOversize (chooseBest u.cfg src).2 (afterBothEncoders src (keepSource src u))
  respond (.image (binImage v (chooseBest u.cfg src).2 ver) v.status) v

/-- Everything a `BIN_ASSEMBLE` on a source changes (43 R207). -/
theorem assembled_eq (ver : Nat) (src : ByteString) (u : State) :
    assembled ver src u = { u with
      out := (assembled ver src u).out, mtf := (assembled ver src u).mtf, status := (assembled ver src u).status
      cache := src, cacheValid := true
      pos := (assembled ver src u).pos, bestLen := (assembled ver src u).bestLen, bestOff := (assembled ver src u).bestOff
      wb := (assembled ver src u).wb, freeCtr := (assembled ver src u).freeCtr
      results := u.results ++
        [.image (u.rom.slice 0 codeBase ++ (chooseBest u.cfg src).2 ++ [byteOf ver]) (assembled ver src u).status] } := by
  unfold assembled
  rw [flagOversize_frame]
  rfl

/-- What a `BIN_ASSEMBLE` returns (43 R207). -/
theorem assembled_returns (ver : Nat) (src : ByteString) (u : State) :
    (assembled ver src u).results.getLast? = some
      (.image (u.rom.slice 0 codeBase ++ (chooseBest u.cfg src).2 ++ [byteOf ver]) (assembled ver src u).status) := by
  rw [assembled_eq]
  exact List.getLast?_concat

/-- `OCO` is added to the flags of the region decode (60 R264). -/
theorem assembled_status (ver : Nat) (src : ByteString) (u : State) :
    (assembled ver src u).status = u.status ||| (if 15616 < (chooseBest u.cfg src).2.length then 0x08#8 else 0#8) := by
  refine (flagOversize_status ..).trans ?_
  split
  · rfl
  · exact BitVec.or_zero.symm

section
variable {ver : Nat} {src : ByteString} {s u : State}

theorem assembleBin_tooLong (h : sMax < src.length) : assembleBin ver src u = .refused .sourceTooLong := if_pos h

theorem assembleBin_hasZero (h : src.length ≤ sMax) (hz : 0#8 ∈ src) : assembleBin ver src u = .refused .sourceHasZero := by
  rw [assembleBin, if_neg (Nat.not_lt.2 h), if_pos hz]

theorem assembleBin_of_domain (h : src.length ≤ sMax) (hz : 0#8 ∉ src) :
    assembleBin ver src u = .next (assembled ver src u) := by
  rw [assembleBin, if_neg (Nat.not_lt.2 h), if_neg hz]
  rfl

/-- A `BIN_ASSEMBLE` that passes its preamble assembles its source (43 R207). -/
theorem exec_binAssemble_of_source (hf : s.faulted = false) (hver : ver < 256) (hsrc : SourceFrom s.cleared src u) :
    exec (.binAssemble ver) s = assembleBin ver src u := by
  have hready : Ready (.binAssemble ver) s := ⟨hf, decide_eq_true hver⟩
  show execBinAssemble ver s = _
  rw [execBinAssemble, preamble_of_ready hready, withSource]
  obtain ⟨hvalid, rfl, rfl⟩ | ⟨hinvalid, hregion, rfl⟩ := hsrc
  · rw [if_pos hvalid]
  · rw [if_neg (by rw [hinvalid]; exact Bool.false_ne_true), hregion, andThen_of_next]

/-- Taking the source leaves the parameters, ROM and the fault registers alone. -/
theorem SourceFrom.keeps (h : SourceFrom s src u) : u.cfg = s.cfg ∧ u.rom = s.rom ∧ u.faulted = s.faulted := by
  obtain ⟨-, -, rfl⟩ | ⟨-, hregion, -⟩ := h
  · exact ⟨rfl, rfl, rfl⟩
  · rw [decodeRegion_next hregion]
    exact ⟨rfl, rfl, rfl⟩

end

/-! ### The command -/

/-- Settles O36: the source is the cache, and the cache stays. -/
theorem binAssembleFromCache : Obligations.BinAssembleFromCache := by
  intro s ver hf hver hvalid
  rw [exec_binAssemble_of_source hf hver (.inl ⟨hvalid, rfl, rfl⟩)]
  refine ⟨assembleBin_tooLong, assembleBin_hasZero, fun hlen hz => ⟨_, assembleBin_of_domain hlen hz, ?_, ?_⟩⟩
  · exact (assembled_status ver s.cache s.cleared).trans BitVec.zero_or
  · rw [hvalid]
    exact assembled_eq ver s.cache s.cleared

/-- Settles O37: the source is the region decode's text, which is that of `DECOMPRESS(REGION)`. -/
theorem binAssembleDecodesTheRegion : Obligations.BinAssembleDecodesTheRegion := by
  intro s u ver hf hver hinvalid _ hu
  obtain ⟨r, hregion, hout, hstatus⟩ : ∃ r, decodeRegion s.cleared = .next r ∧ r.out = u.out ∧ r.status = u.status :=
    ⟨_, decodeRegion_of_decompress hu, rfl, rfl⟩
  have hsrc : SourceFrom s.cleared r.out r := .inr ⟨hinvalid, hregion, rfl⟩
  obtain ⟨hcfg, -, -⟩ : r.cfg = s.cfg ∧ _ := hsrc.keeps
  have hframe := decodeRegion_next hregion
  rw [exec_binAssemble_of_source hf hver hsrc, ← hout, ← hstatus, ← hcfg]
  refine ⟨assembleBin_tooLong, assembleBin_hasZero, fun hlen hz =>
    ⟨_, assembleBin_of_domain hlen hz, assembled_status .., ?_⟩⟩
  have hassembled := assembled_eq ver r.out r
  generalize assembled ver r.out r = t at hassembled ⊢
  rw [hassembled, hframe]
  rfl

/-- Settles O38: the second command's source is the cache the first one left, its source. -/
theorem binAssembleTwiceIsTheSame : Obligations.BinAssembleTwiceIsTheSame := by
  intro s t ver h
  obtain ⟨⟨hf, hver⟩, src, u, hsrc, hlen, hz, v, rfl, ht⟩ := execBinAssemble_next h
  obtain rfl : t = assembled ver src u := ht
  obtain ⟨hrom, hcfg, hfaulted, hcache, hvalid⟩ :
      (assembled ver src u).rom = u.rom ∧ (assembled ver src u).cfg = u.cfg ∧ (assembled ver src u).faulted = u.faulted ∧
        (assembled ver src u).cache = src ∧ (assembled ver src u).cacheValid = true := by
    rw [assembled_eq]
    exact ⟨rfl, rfl, rfl, rfl, rfl⟩
  obtain ⟨-, -, hkept⟩ := hsrc.keeps
  have hf' : (assembled ver src u).faulted = false := hfaulted.trans (hkept.trans hf)
  have hagain : SourceFrom (assembled ver src u).cleared src (assembled ver src u).cleared := .inl ⟨hvalid, hcache.symm, rfl⟩
  have hsecond := assembled_returns ver src (assembled ver src u).cleared
  rw [cleared_rom, cleared_cfg, hrom, hcfg] at hsecond
  have hexec := (exec_binAssemble_of_source hf' (of_decide_eq_true hver) hagain).trans (assembleBin_of_domain hlen hz)
  exact ⟨_, _, _, _, hexec, assembled_returns ver src u, hsecond⟩

end Sys2Proof.Machine
end

section
/-! SUPPORT. `TEXT_SERIALIZE` from its source, and `TEXT_PARSE` with and without its header (44_text_sections.md R230, R232,
R244). -/

namespace Sys2Proof.Machine

open Sys2Proof

/-! ### TEXT_SERIALIZE -/

/-- A `TEXT_SERIALIZE` that passes its preamble returns the text of its source and keeps the source (44 R244). -/
theorem exec_textSerialize_of_source {ver : Nat} {src : ByteString} {s u : State} (hf : s.faulted = false)
    (hver : ver < 256) (hsrc : SourceFrom s.cleared src u) :
    exec (.textSerialize ver) s =
      .next (respond (.text (serializeText (keepSource src u) src ver) u.status) (keepSource src u)) := by
  have hready : Ready (.textSerialize ver) s := ⟨hf, decide_eq_true hver⟩
  show execTextSerialize ver s = _
  rw [execTextSerialize, preamble_of_ready hready, withSource]
  obtain ⟨hvalid, rfl, rfl⟩ | ⟨hinvalid, hregion, rfl⟩ := hsrc
  · rw [if_pos hvalid]
    rfl
  · rw [if_neg (by rw [hinvalid]; exact Bool.false_ne_true), hregion, andThen_of_next]
    rfl

/-- With a valid cache the source is the cache, and the cache stays (44 R244). -/
theorem exec_textSerialize_of_cache {ver : Nat} {s : State} (hf : s.faulted = false) (hver : ver < 256)
    (hvalid : s.cacheValid = true) :
    exec (.textSerialize ver) s = .next { s with
      status := 0#8, results := s.results ++ [.text (serializeText s s.cache ver) 0#8] } := by
  rw [exec_textSerialize_of_source hf hver (.inl ⟨hvalid, rfl, rfl⟩)]
  have hkeep : keepSource s.cleared.cache s.cleared = s.cleared := by
    rw [keepSource, ← hvalid]
    rfl
  rw [hkeep]
  rfl

/-- No line is left of lines of zeros (44 R246). -/
theorem trimLines_of_dead {lines : List HexLine} (h : ∀ l ∈ lines, l.live = false) : trimLines lines = [] := by
  induction lines with
  | nil => rfl
  | cons l ls ih =>
    rw [trimLines, ih fun k hk => h k (List.mem_cons_of_mem l hk)]
    exact if_neg (by rw [h l List.mem_cons_self]; exact Bool.false_ne_true)

/-- A section of lines of zeros is left out (44 R246). -/
theorem hexSection_of_dead {marker : ByteString} {lines : List HexLine} (h : ∀ l ∈ lines, l.live = false) :
    hexSection marker lines = [] := by
  rw [hexSection, trimLines_of_dead h]

/-- The lines of a blank memory are lines of zeros. -/
theorem dead_of_blank {m : Memory} {base n : Nat} {text : ByteString} (h : ∀ a, m.read a = 0#8) :
    (HexLine.mk (m.slice base n) text).live = false := by
  simp [HexLine.live, Memory.slice, h]

theorem byteLines_dead {digits : Byte → ByteString} {m : Memory} {base width n : Nat} (h : ∀ a, m.read a = 0#8) :
    ∀ l ∈ byteLines digits m base width n, l.live = false := by
  intro l hl
  obtain ⟨i, -, rfl⟩ := List.mem_map.1 hl
  exact dead_of_blank h

/-- Settles O48: the source is the cache, and over zero memories every section is left out. -/
theorem textSerializeFromCache : Obligations.TextSerializeFromCache := by
  intro s ver hf hver hvalid
  refine ⟨exec_textSerialize_of_cache hf hver hvalid, fun hcache hzero => ?_⟩
  have hrom : ∀ a, s.rom.read a = 0#8 := fun a => (hzero a).1
  have hlabel : ∀ a, s.label.read a = 0#8 := fun a => (hzero a).2
  have hsfx : ∀ l ∈ (List.range 64).map (sfxLine s), l.live = false := fun l hl => by
    obtain ⟨e, -, rfl⟩ := List.mem_map.1 hl
    exact dead_of_blank hrom
  have hmusic : ∀ l ∈ (List.range 64).map (musicLine s), l.live = false := fun l hl => by
    obtain ⟨e, -, rfl⟩ := List.mem_map.1 hl
    exact dead_of_blank hrom
  rw [hcache, serializeText, hexSection_of_dead (byteLines_dead hrom), hexSection_of_dead (byteLines_dead hlabel),
    hexSection_of_dead (byteLines_dead hrom), hexSection_of_dead (byteLines_dead hrom), hexSection_of_dead hsfx,
    hexSection_of_dead hmusic]
  simp only [codeSection, if_true, List.append_nil]

/-- The text depends on the parameters and the memories alone (44 R244). -/
theorem serializeText_congr {s t : State} (hcfg : t.cfg = s.cfg) (hrom : t.rom = s.rom) (hlabel : t.label = s.label)
    (src : ByteString) (ver : Nat) : serializeText t src ver = serializeText s src ver := by
  have hsfx : sfxLine t = sfxLine s := by
    funext e
    simp only [sfxLine, sfxEntry, sfxMeta, noteWord, hrom]
  have hmusic : musicLine t = musicLine s := by
    funext e
    simp only [musicLine, songEntry, songFlagByte, songFlag, songChannel, hrom]
  rw [serializeText, serializeText, hcfg, hrom, hlabel, hsfx, hmusic]

/-- Settles O49: the region decode is the one of `DECOMPRESS(REGION)`, which completes where no raw escape can stand. -/
theorem textSerializeDecodesTheRegion : Obligations.TextSerializeDecodesTheRegion := by
  intro s ver hf hver hinvalid _ hplain
  obtain ⟨u, hu⟩ : ∃ u, exec (.decompress .region) s = .next u :=
    let ⟨_, hloop⟩ := beginDecompress_completes (src := .region) (s := s.cleared) hplain
    ⟨_, exec_decompress_of_loop ⟨hf, rfl⟩ hloop⟩
  obtain ⟨r, hregion, hout, hstatus⟩ : ∃ r, decodeRegion s.cleared = .next r ∧ r.out = u.out ∧ r.status = u.status :=
    ⟨_, decodeRegion_of_decompress hu, rfl, rfl⟩
  have hsrc : SourceFrom s.cleared r.out r := .inr ⟨hinvalid, hregion, rfl⟩
  have hframe := decodeRegion_next hregion
  have htext : serializeText (keepSource r.out r) r.out ver = serializeText s r.out ver :=
    serializeText_congr (by rw [keepSource_cfg, hframe]; rfl) (by rw [keepSource_rom, hframe]; rfl)
      (by rw [keepSource_label, hframe]; rfl) _ _
  refine ⟨_, u, hu, exec_textSerialize_of_source hf hver hsrc, hstatus, ?_⟩
  rw [← hout, htext]
  generalize serializeText s r.out ver = text
  rw [hframe]
  rfl

/-! ### TEXT_PARSE -/

/-- The header check looks for the phrase in line 0 (44 R232). -/
theorem hasHeader_iff {c : Config} {lines : List ByteString} :
    hasHeader c lines = true ↔ ∃ l, lines.head? = some l ∧ c.headerPhrase <:+: lineText l := by
  cases lines with
  | nil => simp [hasHeader]
  | cons l ls => simp [hasHeader, occurs_iff_infix]

/-- Settles O44: no line 0 holds the phrase. -/
theorem textWithoutHeaderFails : Obligations.TextWithoutHeaderFails := by
  intro s t hf hno
  have hheader : hasHeader s.cfg (rawLines t) = false := by
    rw [Bool.eq_false_iff, Ne, hasHeader_iff]
    rintro ⟨l, hl, hphrase⟩
    obtain rfl | hno := hno
    · cases hl
    · exact hno l hl hphrase
  show execTextParse t s = _
  rw [execTextParse, preamble_of_ready ⟨hf, rfl⟩]
  exact (if_pos hheader).trans (congrArg Host.Outcome.next (respond_failed_fnr s))

/-- A `TEXT_PARSE` of a text with its header applies its sections to the cleared cartridge (44 R230, R235). -/
theorem exec_textParse_of_header {t : ByteString} {s u : State} (hf : s.faulted = false)
    (h : hasHeader s.cfg (rawLines t) = true)
    (hu : applySections (splitSections s.cfg (rawLines t)).2 (clearForText s.cleared) = u) :
    exec (.textParse t) s = .next { u with results := s.results ++ [.parsed u.status] } := by
  have hresults : u.results = s.results := by
    rw [← hu, applySections_frame _ (clearForText s.cleared)]
    rfl
  show execTextParse t s = _
  rw [execTextParse, preamble_of_ready ⟨hf, rfl⟩]
  refine (if_neg (by rw [cleared_cfg, h]; exact Bool.noConfusion)).trans ?_
  show Host.Outcome.next (respond (.parsed (applySections _ _).status) (applySections _ _)) = _
  rw [cleared_cfg, hu, ← hresults]
  rfl

end Sys2Proof.Machine
end

section
/-! SUPPORT. What the text sections leave in ROM, LABEL, the cache and `STATUS` (44_text_sections.md R235 to R243). -/

namespace Sys2Proof.Machine

open Sys2Proof

/-! ### The capacity check -/

theorem pairDigits_length (swap : Bool) : ∀ ds : List Nat, (pairDigits swap ds).length = ds.length / 2
  | [] => rfl
  | [_] => by simp [pairDigits]
  | _ :: _ :: ds => by
    simp only [pairDigits, List.length_cons, pairDigits_length swap ds]
    omega

/-- The order of the digits of a pair has no part in how many bytes a content has (44 R236). -/
theorem hexBytes_length (swap : Bool) (content : ByteString) :
    (hexBytes swap content).length = (hexBytes false content).length := by
  rw [hexBytes, hexBytes, pairDigits_length, pairDigits_length]

theorem flagTooLarge_status (capacity : Nat) (bytes : ByteString) (s : State) :
    (flagTooLarge capacity bytes s).status = if capacity < bytes.length then s.status ||| 0x02#8 else s.status := by
  by_cases h : capacity < bytes.length <;> simp only [flagTooLarge, setFlagIf, h, decide_true, decide_false] <;> rfl

@[simp] theorem flagTooLarge_rom (capacity : Nat) (bytes : ByteString) (s : State) :
    (flagTooLarge capacity bytes s).rom = s.rom := by rw [flagTooLarge_frame]

@[simp] theorem flagTooLarge_label (capacity : Nat) (bytes : ByteString) (s : State) :
    (flagTooLarge capacity bytes s).label = s.label := by rw [flagTooLarge_frame]

/-- How many bytes a section may have; the code section has no limit (44 R241, R243). -/
def SectionKind.capacity : SectionKind → Option Nat
  | .code => none
  | .graphics => some 0x2000
  | .flags => some 0x100
  | .map => some 0x2000
  | .sound => some 5376
  | .music => some 320
  | .label => some 0x2000

/-- A section has more bytes than its capacity (44 R243). -/
def tooLarge (sec : SectionKind × ByteString) : Bool :=
  sec.1.capacity.any fun capacity => decide (capacity < (hexBytes false sec.2).length)

/-- The capacities, as a table (44 R243). -/
theorem capacity_eq_some_iff (k : SectionKind) (capacity : Nat) :
    k.capacity = some capacity ↔
      (k, capacity) ∈ [(SectionKind.graphics, 0x2000), (.map, 0x2000), (.label, 0x2000), (.flags, 0x100), (.music, 320),
        (.sound, 5376)] := by
  cases k <;> simp [SectionKind.capacity, eq_comm]

theorem tooLarge_iff {k : SectionKind} {content : ByteString} :
    tooLarge (k, content) = true ↔
      ∃ capacity, k.capacity = some capacity ∧ capacity < (hexBytes false content).length := by
  simp [tooLarge, Option.any_eq_true]

/-- A section sets `STL` when it is too large, and no other flag (44 R243). -/
theorem applySection_status (k : SectionKind) (content : ByteString) (s : State) :
    (applySection k content s).status = if tooLarge (k, content) then s.status ||| 0x02#8 else s.status := by
  have hmeasured : ∀ (capacity : Nat) (swap : Bool) (t : State), k.capacity = some capacity → t.status = s.status →
      (flagTooLarge capacity (hexBytes swap content) t).status =
        if tooLarge (k, content) then s.status ||| 0x02#8 else s.status := fun capacity swap t hk ht => by
    simp only [flagTooLarge_status, hexBytes_length swap, tooLarge, hk, Option.any_some, decide_eq_true_eq, ht]
  cases k with
  | code => rfl
  | graphics => exact hmeasured 0x2000 true _ rfl rfl
  | flags => exact hmeasured 0x100 false _ rfl rfl
  | map => exact hmeasured 0x2000 false _ rfl rfl
  | sound => exact hmeasured 5376 false _ rfl rfl
  | music => exact hmeasured 320 false _ rfl rfl
  | label => exact hmeasured 0x2000 true _ rfl rfl

/-- The sections set `STL` when one of them is too large (44 R243). -/
theorem applySections_status (secs : List (SectionKind × ByteString)) (s : State) :
    (applySections secs s).status = if secs.any tooLarge then s.status ||| 0x02#8 else s.status := by
  induction secs generalizing s with
  | nil => rfl
  | cons sec secs ih =>
    rw [applySections, ih, applySection_status, List.any_cons]
    cases tooLarge sec <;> cases secs.any tooLarge <;> simp [BitVec.or_assoc]

/-! ### The cache -/

theorem applySections_append (xs ys : List (SectionKind × ByteString)) (s : State) :
    applySections (xs ++ ys) s = applySections ys (applySections xs s) := by
  induction xs generalizing s with
  | nil => rfl
  | cons sec xs ih => exact ih _

/-- Sections of other kinds than code leave the cache alone (44 R241). -/
theorem applySections_cache_of_no_code {secs : List (SectionKind × ByteString)} (h : ∀ sec ∈ secs, sec.1 ≠ .code)
    (s : State) : (applySections secs s).cache = s.cache := by
  induction secs generalizing s with
  | nil => rfl
  | cons sec secs ih =>
    rw [applySections, ih fun sec' hsec => h sec' (List.mem_cons_of_mem sec hsec)]
    exact (applySection_cache (h sec List.mem_cons_self) ..).1

/-- The last code section is the cache (44 R241). -/
theorem applySections_cache_of_last_code {pre post : List (SectionKind × ByteString)} {content : ByteString}
    (h : ∀ sec ∈ post, sec.1 ≠ .code) (s : State) :
    (applySections (pre ++ (.code, content) :: post) s).cache = content := by
  rw [applySections_append, applySections, applySections_cache_of_no_code h, applySection_code]

/-- No section makes a valid cache invalid. -/
theorem applySections_cacheValid (secs : List (SectionKind × ByteString)) {s : State} (h : s.cacheValid = true) :
    (applySections secs s).cacheValid = true := by
  induction secs generalizing s with
  | nil => exact h
  | cons sec secs ih =>
    obtain ⟨k, content⟩ := sec
    refine ih ?_
    by_cases hk : k = .code
    · rw [hk, applySection_code]
    · rw [(applySection_cache hk content s).2, h]

/-! ### ROM below the code region -/

theorem Memory.read_of_below {m : Memory} {n a : Nat} (h : m.below n = true) (ha : n ≤ a) : m.read a = 0#8 := by
  induction m with
  | nil => rfl
  | cons c m ih =>
    obtain ⟨k, v⟩ := c
    obtain ⟨hk, hm⟩ := (Memory.below_cons n k v m).1 h
    rw [Memory.read, if_neg (by omega), ih hm]

/-- Every section stays below the code region (44 R237 to R242). -/
theorem applySection_belowCode (k : SectionKind) (content : ByteString) {s : State} (h : MemoryInv codeBase s.rom) :
    MemoryInv codeBase (applySection k content s).rom := by
  have haliased : ∀ base bytes, base + 0x1000 ≤ codeBase → MemoryInv codeBase (applyAliased base bytes s).rom :=
    fun base bytes hbase =>
      (h.writeList_take hbase).orList ((Nat.add_le_add_left (List.length_take_le ..) map2Base).trans (by decide))
  cases k with
  | code => exact h
  | label => simpa only [applySection, applyLabel, flagTooLarge_rom] using h
  | graphics => simpa only [applySection, applyGraphics, flagTooLarge_rom] using haliased _ _ (by decide)
  | map => simpa only [applySection, applyMap, flagTooLarge_rom] using haliased _ _ (by decide)
  | flags => simpa only [applySection, applyFlags, flagTooLarge_rom] using h.writeList_take (by decide)
  | music => simpa only [applySection, applyMusic, flagTooLarge_rom] using h.writeList_take (by decide)
  | sound =>
    have hfits : sfxBase + (sfxBytes 64 (hexBytes false content)).length ≤ codeBase :=
      (Nat.add_le_add_left (sfxBytes_length_le ..) sfxBase).trans (by decide)
    simpa only [applySection, applySound, flagTooLarge_rom] using h.writeList hfits

theorem applySections_belowCode (secs : List (SectionKind × ByteString)) {s : State} (h : MemoryInv codeBase s.rom) :
    MemoryInv codeBase (applySections secs s).rom := by
  induction secs generalizing s with
  | nil => exact h
  | cons sec secs ih => exact ih (applySection_belowCode sec.1 sec.2 h)

/-- The sections leave the code region of a cleared cartridge zero (44 R235, R241). -/
theorem applySections_codeRegion (secs : List (SectionKind × ByteString)) (s : State) {a : Nat} (ha : codeBase ≤ a) :
    (applySections secs (clearForText s)).rom.read a = 0#8 := by
  obtain ⟨-, hbelow⟩ := applySections_belowCode secs (s := clearForText s) (memoryInv_nil codeBase)
  exact Memory.read_of_below hbelow ha

/-- Settles O45: the sections' effects on `STATUS`, the cache and ROM, from the cleared cartridge on. -/
theorem textParseCompletes : Obligations.TextParseCompletes := by
  rintro s t l secs hf hline hphrase rfl
  generalize hsecs : (splitSections s.cfg (rawLines t)).2 = secs
  have hexec := exec_textParse_of_header hf (hasHeader_iff.2 ⟨l, hline, hphrase⟩) (congrArg (applySections · _) hsecs)
  have hframe := applySections_frame secs (clearForText s.cleared)
  have hvalid := applySections_cacheValid secs (s := clearForText s.cleared) rfl
  have hstatus : (applySections secs (clearForText s.cleared)).status = if secs.any tooLarge then 0x02#8 else 0#8 :=
    (applySections_status ..).trans (by rw [show (clearForText s.cleared).status = 0#8 from rfl, BitVec.zero_or])
  have hlast : ∀ pre content post, secs = pre ++ (.code, content) :: post → (∀ sec ∈ post, sec.1 ≠ .code) →
      (applySections secs (clearForText s.cleared)).cache = content := by
    rintro pre content post rfl hpost
    exact applySections_cache_of_last_code hpost _
  have hnone : (∀ sec ∈ secs, sec.1 ≠ .code) → (applySections secs (clearForText s.cleared)).cache = [] :=
    fun hno => applySections_cache_of_no_code hno _
  have hregion := fun a (ha : codeBase ≤ a) => applySections_codeRegion secs s.cleared ha
  unfold TextFrame at hframe
  generalize applySections secs (clearForText s.cleared) = u at *
  refine ⟨_, hexec, rfl, fun a => ⟨rfl, rfl⟩, ?_, ?_, ?_, hlast, hnone, hregion⟩
  · rw [hframe, hvalid]
    rfl
  · show u.status = 0#8 ∨ u.status = 0x02#8
    rw [hstatus]
    split
    · exact .inr rfl
    · exact .inl rfl
  · show u.status = 0x02#8 ↔ _
    have hset : (if secs.any tooLarge then 0x02#8 else 0#8) = 0x02#8 ↔ secs.any tooLarge = true := by
      cases secs.any tooLarge <;> decide
    simp only [hstatus, hset, List.any_eq_true, Prod.exists, tooLarge_iff, ← capacity_eq_some_iff, exists_and_left]

/-! ### The aliased half -/

theorem getD_take {bytes : ByteString} {i n : Nat} (h : i < n) : (bytes.take n).getD i 0#8 = bytes.getD i 0#8 := by
  rw [List.getD_eq_getElem?_getD, List.getD_eq_getElem?_getD, List.getElem?_take_of_lt h]

/-- Graphics and map each overwrite their own place and OR the bytes beyond it into map2, where the byte for an address is the
one of that index (44 R237). -/
theorem read_applyAliased {base a : Nat} {bytes : ByteString} {s : State} (h : s.rom.wf = true)
    (hbase : base + 0x1000 ≤ map2Base ∨ map2Base + 0x1000 ≤ base) :
    (applyAliased base bytes s).rom.read a =
      if base ≤ a ∧ a < base + min 0x1000 bytes.length then bytes.getD (a - base) 0#8
      else if map2Base ≤ a ∧ a < map2Base + 0x1000 then s.rom.read a ||| bytes.getD a 0#8
      else s.rom.read a := by
  show ((s.rom.writeList base (bytes.take 0x1000)).orList map2Base ((bytes.drop 0x1000).take 0x1000)).read a = _
  rw [Memory.read_orList (Memory.wf_writeList h), Memory.read_writeList h, List.length_take, List.length_take,
    List.length_drop]
  have hmap2 : map2Base = 0x1000 := rfl
  by_cases hdirect : base ≤ a ∧ a < base + min 0x1000 bytes.length
  · rw [if_neg (by omega), if_pos hdirect, if_pos hdirect, getD_take (by omega)]
  · rw [if_neg hdirect, if_neg hdirect]
    by_cases halias : map2Base ≤ a ∧ a < map2Base + 0x1000
    · rw [if_pos halias]
      have hindex : 0x1000 + (a - map2Base) = a := by omega
      split
      · rw [getD_take (by omega), List.getD_eq_getElem?_getD, List.getElem?_drop, hindex, List.getD_eq_getElem?_getD]
      · rw [List.getD_eq_default _ _ (by omega), BitVec.or_zero]
    · rw [if_neg halias, if_neg (by omega)]

theorem wf_applyAliased {base : Nat} {bytes : ByteString} {s : State} (h : s.rom.wf = true) :
    (applyAliased base bytes s).rom.wf = true :=
  Memory.wf_orList (Memory.wf_writeList h)

/-- Two sections of the aliased kind touch disjoint places but for map2, into which both OR (44 R237). -/
theorem applyAliased_comm {base base' : Nat} {bytes bytes' : ByteString} {s : State} (h : s.rom.wf = true)
    (hbase : base + 0x1000 ≤ map2Base) (hbase' : map2Base + 0x1000 ≤ base') :
    (applyAliased base bytes (applyAliased base' bytes' s)).rom =
      (applyAliased base' bytes' (applyAliased base bytes s)).rom := by
  refine Memory.ext_read (wf_applyAliased (wf_applyAliased h)) (wf_applyAliased (wf_applyAliased h)) fun a => ?_
  rw [read_applyAliased (wf_applyAliased h) (.inl hbase), read_applyAliased h (.inr hbase'),
    read_applyAliased (wf_applyAliased h) (.inr hbase'), read_applyAliased h (.inl hbase)]
  by_cases hmap2 : map2Base ≤ a ∧ a < map2Base + 0x1000
  · have hno : ¬ (base ≤ a ∧ a < base + min 0x1000 bytes.length) := by omega
    have hno' : ¬ (base' ≤ a ∧ a < base' + min 0x1000 bytes'.length) := by omega
    simp only [hno, hno', hmap2, if_false, and_self, if_true]
    rw [BitVec.or_assoc, BitVec.or_comm (bytes'.getD a 0#8), BitVec.or_assoc]
  · simp only [hmap2, if_false]
    by_cases hdirect : base ≤ a ∧ a < base + min 0x1000 bytes.length
    · have hno' : ¬ (base' ≤ a ∧ a < base' + min 0x1000 bytes'.length) := by omega
      simp only [hdirect, hno', if_false]
    · simp only [hdirect, if_false]

/-- `t` differs from `s` in ROM and `STATUS` at most. -/
def RomFrame (s t : State) : Prop := t = { s with rom := t.rom, status := t.status }

theorem RomFrame.trans {s t u : State} (h : RomFrame s t) (k : RomFrame t u) : RomFrame s u := by
  unfold RomFrame at *
  rw [k, h]

theorem RomFrame.ext {s t u : State} (h : RomFrame s t) (k : RomFrame s u) (hrom : t.rom = u.rom)
    (hstatus : t.status = u.status) : t = u := by
  unfold RomFrame at *
  rw [h, k, hrom, hstatus]

theorem applyGraphics_romFrame (content : ByteString) (s : State) : RomFrame s (applyGraphics content s) := by
  unfold RomFrame applyGraphics
  rw [flagTooLarge_frame]
  rfl

theorem applyMap_romFrame (content : ByteString) (s : State) : RomFrame s (applyMap content s) := by
  unfold RomFrame applyMap
  rw [flagTooLarge_frame]
  rfl

/-- Settles O46: each ORs into map2, which neither direct half reaches. -/
theorem graphicsAndMapOrderIsImmaterial : Obligations.GraphicsAndMapOrderIsImmaterial := by
  intro s gfx map h
  refine RomFrame.ext ((applyMap_romFrame map s).trans (applyGraphics_romFrame gfx _))
    ((applyGraphics_romFrame gfx s).trans (applyMap_romFrame map _)) ?_ ?_
  · simp only [applyGraphics, applyMap, flagTooLarge_rom, applyAliased]
    exact applyAliased_comm h (by decide) (by decide)
  · show (applySections [(.map, map), (.graphics, gfx)] s).status = (applySections [(.graphics, gfx), (.map, map)] s).status
    rw [applySections_status, applySections_status]
    simp only [List.any_cons, List.any_nil, Bool.or_false]
    rw [Bool.or_comm]

end Sys2Proof.Machine
end

section
/-! SUPPORT. Hex digits, sound lines and music lines read back (44_text_sections.md R236, R239, R240, R245, R252, R253). -/

namespace Sys2Proof.Machine

open Sys2Proof

/-! ### Digits -/

/-- A written digit is read with its value, and is neither a line end nor an underscore (44 R236, R245). -/
theorem hex1_digit : ∀ d : Fin 16, hexValue (hex1 d) = some d.val ∧ hex1 d ≠ 0x0a#8 ∧ hex1 d ≠ 0x5f#8 := by decide

theorem hexValue_hex1 {d : Nat} (h : d < 16) : hexValue (hex1 d) = some d := (hex1_digit ⟨d, h⟩).1

theorem hexValue_lt {b : Byte} {d : Nat} (h : hexValue b = some d) : d < 16 := by
  unfold hexValue at h
  dsimp only at h
  split at h
  · cases h; omega
  · split at h
    · cases h; omega
    · split at h <;> cases h
      omega

/-- `text` holds the digits of `bytes`, in pairs, whatever follows it (44 R236). -/
def Spells (swap : Bool) (text bytes : ByteString) : Prop :=
  ∀ rest, hexBytes swap (text ++ rest) = bytes ++ hexBytes swap rest

theorem Spells.hexBytes_eq {swap : Bool} {text bytes : ByteString} (h : Spells swap text bytes) :
    hexBytes swap text = bytes := by
  have := h []
  rwa [List.append_nil, show hexBytes swap [] = [] from rfl, List.append_nil] at this

theorem spells_nil (swap : Bool) : Spells swap [] [] := fun _ => rfl

theorem Spells.append {swap : Bool} {text text' bytes bytes' : ByteString} (h : Spells swap text bytes)
    (h' : Spells swap text' bytes') : Spells swap (text ++ text') (bytes ++ bytes') := fun rest => by
  rw [List.append_assoc, h, h', List.append_assoc]

theorem Spells.flatMap {α : Type} {swap : Bool} {text bytes : α → ByteString} {l : List α}
    (h : ∀ a ∈ l, Spells swap (text a) (bytes a)) : Spells swap (l.flatMap text) (l.flatMap bytes) := by
  induction l with
  | nil => exact spells_nil swap
  | cons a l ih =>
    rw [List.flatMap_cons, List.flatMap_cons]
    exact (h a List.mem_cons_self).append (ih fun b hb => h b (List.mem_cons_of_mem a hb))

/-- A byte that is no digit is skipped (44 R236). -/
theorem spells_skip {swap : Bool} {b : Byte} (h : hexValue b = none) : Spells swap [b] [] := fun rest => by
  show hexBytes swap (b :: rest) = _
  rw [hexBytes, List.filterMap_cons_none h]
  rfl

/-- Two digits are a byte, in the order of the section (44 R236). -/
theorem spells_pair {swap : Bool} {d e : Nat} (hd : d < 16) (he : e < 16) :
    Spells swap [hex1 d, hex1 e] [byteOf (if swap then e * 16 + d else d * 16 + e)] := fun rest => by
  show hexBytes swap (hex1 d :: hex1 e :: rest) = _
  rw [hexBytes, List.filterMap_cons_some (hexValue_hex1 hd), List.filterMap_cons_some (hexValue_hex1 he)]
  rfl

/-- `Hex2` of a byte is read back as the byte (44 R245). -/
theorem spells_hex2 (b : Byte) : Spells false (hex2 b) [b] := by
  have h := spells_pair (swap := false) (show b.toNat / 16 < 16 by omega) (Nat.mod_lt b.toNat (by decide))
  rwa [if_neg Bool.false_ne_true, Nat.div_add_mod', byteOf_toNat] at h

/-- `Hex2s` of a byte is read back with swapped digits as the byte (44 R245). -/
theorem spells_hex2s (b : Byte) : Spells true (hex2s b) [b] := by
  have h := spells_pair (swap := true) (Nat.mod_lt b.toNat (by decide)) (show b.toNat / 16 < 16 by omega)
  rwa [if_pos rfl, Nat.div_add_mod', byteOf_toNat] at h

/-- The digits of bytes, one pair a byte (44 R248 to R251). -/
theorem spells_bytes {swap : Bool} {digits : Byte → ByteString} (h : ∀ b, Spells swap (digits b) [b])
    (bytes : ByteString) : Spells swap (bytes.flatMap digits) bytes := by
  have hall := Spells.flatMap (l := bytes) fun b _ => h b
  rwa [List.flatMap_singleton'] at hall

theorem even_of_pair {d e : Nat} {ds : List Nat} (h : (d :: e :: ds).length % 2 = 0) : ds.length % 2 = 0 := by
  rw [List.length_cons, List.length_cons] at h
  omega

theorem pairDigits_append (swap : Bool) : ∀ {ds es : List Nat}, ds.length % 2 = 0 →
    pairDigits swap (ds ++ es) = pairDigits swap ds ++ pairDigits swap es
  | [], _, _ => rfl
  | [_], _, h => by cases h
  | d :: e :: ds, es, h => by
    rw [List.cons_append, List.cons_append, pairDigits, pairDigits, List.cons_append,
      pairDigits_append swap (even_of_pair h)]

/-- A text with an even number of digits spells what is read from it alone (44 R236). -/
theorem spells_of_even {swap : Bool} {text : ByteString} (h : (text.filterMap hexValue).length % 2 = 0) :
    Spells swap text (hexBytes swap text) := fun rest => by
  rw [hexBytes, List.filterMap_append, pairDigits_append swap h]
  rfl

/-- The digits of the bytes that digit pairs give are the digits (44 R240). -/
theorem nibbles_pairDigits : ∀ {ds : List Nat}, ds.length % 2 = 0 → (∀ d ∈ ds, d < 16) →
    nibbles (pairDigits false ds) = ds
  | [], _, _ => rfl
  | [_], h, _ => by cases h
  | d :: e :: ds, h, hlt => by
    have hd : d < 16 := hlt d List.mem_cons_self
    have he : e < 16 := hlt e (List.mem_cons_of_mem d List.mem_cons_self)
    have hbyte : (byteOf (d * 16 + e)).toNat = d * 16 + e := byteOf_toNat_of_lt (by omega)
    have hrest := nibbles_pairDigits (even_of_pair h) fun x hx => hlt x (List.mem_cons_of_mem d (List.mem_cons_of_mem e hx))
    rw [pairDigits, nibbles, if_neg Bool.false_ne_true, hbyte, hrest]
    congr 1
    · omega
    · congr 1
      omega

/-! ### Notes -/

/-- The five digits of a note (44 R252). -/
def noteNibbles (w : Word16) : List Nat :=
  [(notePitch w).toNat / 16, (notePitch w).toNat % 16, (noteInstrument w).toNat, (noteVolume w).toNat, (noteEffect w).toNat]

/-- The bytes of a note, low byte first (43 R221). -/
def wordBytes (w : Word16) : ByteString := [w.extractLsb' 0 8, w.extractLsb' 8 8]

theorem noteDigits_read (w : Word16) : (noteDigits w).filterMap hexValue = noteNibbles w := by
  have hpitch : (byteOf (notePitch w).toNat).toNat = (notePitch w).toNat := byteOf_toNat_of_lt (by omega)
  have hp1 : (notePitch w).toNat / 16 < 16 := by omega
  have hp0 : (notePitch w).toNat % 16 < 16 := Nat.mod_lt _ (by decide)
  have hi : (noteInstrument w).toNat < 16 := by omega
  have hv : (noteVolume w).toNat < 16 := by omega
  have he : (noteEffect w).toNat < 16 := by omega
  simp only [noteDigits, hex2, hpitch, List.cons_append, List.nil_append, List.filterMap_cons_some (hexValue_hex1 hp1),
    List.filterMap_cons_some (hexValue_hex1 hp0), List.filterMap_cons_some (hexValue_hex1 hi),
    List.filterMap_cons_some (hexValue_hex1 hv), List.filterMap_cons_some (hexValue_hex1 he), List.filterMap_nil, noteNibbles]

/-- A word is its four fields (43 R221). -/
theorem noteFields_append (w : Word16) : noteEffect w ++ noteVolume w ++ noteInstrument w ++ notePitch w = w := by
  have hjoin (hi len lo lenLo : Nat) (h : hi = lo + lenLo) :
      w.extractLsb' hi len ++ w.extractLsb' lo lenLo = w.extractLsb' lo (len + lenLo) :=
    BitVec.extractLsb'_append_extractLsb'_eq_extractLsb' h
  rw [noteEffect, noteVolume, noteInstrument, notePitch, hjoin 12 4 9 3 rfl, hjoin 9 (4 + 3) 6 3 rfl,
    hjoin 6 (4 + 3 + 3) 0 6 rfl]
  exact BitVec.extractLsb'_eq_self

/-- A field of a 20-bit value is the number it was put together from. -/
theorem extractLsb'_ofNat {n v start len : Nat} (x : BitVec len) (h : v / 2 ^ start % 2 ^ len = x.toNat)
    (hfits : start + len ≤ n) : (BitVec.ofNat n v).extractLsb' start len = x := by
  refine BitVec.eq_of_toNat_eq ?_
  have hsplit : 2 ^ n = 2 ^ start * 2 ^ (n - start) := by rw [← Nat.pow_add, Nat.add_sub_cancel' (by omega)]
  rw [BitVec.extractLsb'_toNat, BitVec.toNat_ofNat, Nat.shiftRight_eq_div_pow, ← h, hsplit, Nat.mod_mul_right_div_self,
    Nat.mod_mod_of_dvd _ (Nat.pow_dvd_pow 2 (by omega))]

/-- The digits of a note give its word back (44 R240, R252). -/
theorem noteOf_noteNibbles (w : Word16) :
    noteOf ((notePitch w).toNat / 16) ((notePitch w).toNat % 16) (noteInstrument w).toNat (noteVolume w).toNat
      (noteEffect w).toNat = w := by
  rw [noteOf]
  rw [extractLsb'_ofNat (noteEffect w) (by omega) (by decide), extractLsb'_ofNat (noteVolume w) (by omega) (by decide),
    extractLsb'_ofNat (noteInstrument w) (by omega) (by decide), extractLsb'_ofNat (notePitch w) (by omega) (by decide)]
  exact noteFields_append w

theorem noteBytes_noteNibbles (ws : List Word16) : noteBytes (ws.flatMap noteNibbles) = ws.flatMap wordBytes := by
  induction ws with
  | nil => rfl
  | cons w ws ih =>
    rw [List.flatMap_cons, List.flatMap_cons, ← ih, noteNibbles]
    show (noteOf _ _ _ _ _).extractLsb' 0 8 :: (noteOf _ _ _ _ _).extractLsb' 8 8 :: _ = _
    rw [noteOf_noteNibbles]
    rfl

/-! ### Slices of memory -/

theorem slice_append (m : Memory) (base n k : Nat) : m.slice base (n + k) = m.slice base n ++ m.slice (base + n) k := by
  rw [Memory.slice, Memory.slice, Memory.slice, ← List.map_append, List.range'_append_1]

/-- A slice is the parts of one width it is cut into. -/
theorem slice_mul (m : Memory) (base width n : Nat) :
    m.slice base (width * n) = (List.range n).flatMap fun i => m.slice (base + width * i) width := by
  induction n with
  | zero => rfl
  | succ n ih =>
    rw [Nat.mul_succ, slice_append, ih, List.range_succ, List.flatMap_append, List.flatMap_singleton]

/-! ### Sound lines -/

/-- The note part of a sound line (44 R252). -/
def noteText (s : State) (e : Nat) : ByteString := (List.range 32).flatMap fun n => noteDigits (noteWord s e n)

/-- The words of a sound entry (43 R221). -/
def noteWords (s : State) (e : Nat) : List Word16 := (List.range 32).map (noteWord s e)

theorem noteText_digits (s : State) (e : Nat) : (noteText s e).filterMap hexValue = (noteWords s e).flatMap noteNibbles := by
  rw [noteText, noteWords, List.filterMap_flatMap, List.flatMap_map]
  simp only [noteDigits_read]

theorem noteText_digits_length (s : State) (e : Nat) : ((noteText s e).filterMap hexValue).length = 160 := by
  have hfive : ∀ w, (noteNibbles w).length = 5 := fun _ => rfl
  rw [noteText_digits, noteWords, List.flatMap_map, List.length_flatMap]
  simp only [hfive, List.map_const', List.sum_replicate, List.length_range, smul_eq_mul]

/-- The block of a sound line: the meta bytes and the bytes its note digits give (44 R240). -/
def sfxBlock (s : State) (e : Nat) : ByteString :=
  s.rom.slice (sfxBase + 68 * e + 64) 4 ++ hexBytes false (noteText s e)

theorem noteText_bytes_length (s : State) (e : Nat) : (hexBytes false (noteText s e)).length = 80 := by
  rw [hexBytes, pairDigits_length, noteText_digits_length]

theorem slice_length (m : Memory) (base n : Nat) : (m.slice base n).length = n := by
  rw [Memory.slice, List.length_map, List.length_range']

theorem sfxBlock_length (s : State) (e : Nat) : (sfxBlock s e).length = 84 := by
  rw [sfxBlock, List.length_append, slice_length, noteText_bytes_length]

/-- The text of a sound line spells its block (44 R252). -/
theorem spells_sfxLine (s : State) (e : Nat) : Spells false (sfxLine s e).text (sfxBlock s e) := by
  have hmeta := Spells.flatMap (l := List.range 4) fun j _ => spells_hex2 (sfxMeta s e j)
  have hnotes : Spells false (noteText s e) (hexBytes false (noteText s e)) :=
    spells_of_even (by rw [noteText_digits_length])
  exact hmeta.append hnotes

theorem wordBytes_noteWord (s : State) (e n : Nat) :
    wordBytes (noteWord s e n) = s.rom.slice (sfxBase + 68 * e + 2 * n) 2 := by
  rw [wordBytes, noteWord, BitVec.extractLsb'_append_eq_right, BitVec.extractLsb'_append_eq_left]
  rfl

/-- The block of a sound line is the entry with its meta bytes moved to the front (43 R221; 44 R240). -/
theorem sfxFromBlock_sfxBlock (s : State) (e : Nat) : sfxFromBlock (sfxBlock s e) = sfxEntry s e := by
  have hmeta : (s.rom.slice (sfxBase + 68 * e + 64) 4).length = 4 := slice_length ..
  have hnibbles : nibbles (hexBytes false (noteText s e)) = (noteWords s e).flatMap noteNibbles := by
    rw [hexBytes, nibbles_pairDigits (by rw [noteText_digits_length]) fun d hd => ?_, noteText_digits]
    obtain ⟨b, -, hb⟩ := List.mem_filterMap.1 hd
    exact hexValue_lt hb
  have hwords : (noteWords s e).flatMap wordBytes = s.rom.slice (sfxBase + 68 * e) (2 * 32) := by
    rw [slice_mul, noteWords, List.flatMap_map]
    simp only [wordBytes_noteWord]
  rw [sfxFromBlock, sfxBlock, List.drop_left' hmeta, List.take_left' hmeta, hnibbles, noteBytes_noteNibbles, hwords, sfxEntry,
    ← slice_append]

/-- A whole block at the front is one entry (44 R240). -/
theorem sfxBytes_block {block : ByteString} (h : block.length = 84) (n : Nat) (rest : ByteString) :
    sfxBytes (n + 1) (block ++ rest) = sfxFromBlock block ++ sfxBytes n rest := by
  rw [sfxBytes, List.take_left' h, List.drop_left' h, if_neg (by omega)]

/-! ### Music lines -/

/-- Bit `k` of a music line's flag byte is flag `k` (44 R253). -/
theorem flagByte_bit : ∀ (f : Fin 4 → Bool) (k : Fin 4),
    byteOf ((f 0).toNat + 2 * (f 1).toNat + 4 * (f 2).toNat + 8 * (f 3).toNat) >>> k.val &&& 1#8 = byteOf (f k).toNat := by
  decide

/-- A song byte is its channel reference and its flag (43 R220). -/
theorem songByte_fields : ∀ b : Byte,
    (byteOf (b.extractLsb' 0 7).toNat &&& 0x7f#8) ||| (byteOf (b.getLsbD 7).toNat <<< 7) = b := by
  decide

/-- A channel byte of a music line gives the ROM byte back (44 R239, R253). -/
theorem songByte_of_line (s : State) (e : Nat) {k : Nat} (hk : k < 4) :
    songByte (byteOf (songFlagByte s e)) (byteOf (songChannel s e k).toNat) k = s.rom.read (songBase + 4 * e + k) := by
  have hflag : byteOf (songFlagByte s e) >>> k &&& 1#8 = byteOf (songFlag s e k).toNat :=
    flagByte_bit (fun i => songFlag s e i) ⟨k, hk⟩
  rw [songByte, hflag]
  exact songByte_fields _

/-- The five bytes of a music line (44 R253). -/
def songGroup (s : State) (e : Nat) : ByteString :=
  [byteOf (songFlagByte s e), byteOf (songChannel s e 0).toNat, byteOf (songChannel s e 1).toNat,
    byteOf (songChannel s e 2).toNat, byteOf (songChannel s e 3).toNat]

/-- The text of a music line spells its five bytes (44 R253). -/
theorem spells_musicLine (s : State) (e : Nat) : Spells false (musicLine s e).text (songGroup s e) := by
  have hflags := spells_hex2 (byteOf (songFlagByte s e))
  have hspace : Spells false [0x20#8] [] := spells_skip (by decide)
  have hchannels := Spells.flatMap (l := List.range 4) fun k _ => spells_hex2 (byteOf (songChannel s e k).toNat)
  exact (hflags.append hspace).append hchannels

/-- Five bytes of a music line are one entry (44 R239). -/
theorem songBytes_group (s : State) (e : Nat) (rest : ByteString) :
    songBytes (songGroup s e ++ rest) = songEntry s e ++ songBytes rest := by
  show songByte _ _ 0 :: songByte _ _ 1 :: songByte _ _ 2 :: songByte _ _ 3 :: songBytes rest = _
  rw [songByte_of_line s e (by decide), songByte_of_line s e (by decide), songByte_of_line s e (by decide),
    songByte_of_line s e (by decide)]
  rfl

/-- Settles O47: a line's text spells its group or block, and that is its entry. -/
theorem musicAndSoundLinesParseBack : Obligations.MusicAndSoundLinesParseBack := by
  refine ⟨fun s e _ => ?_, fun s e _ => ?_⟩
  · rw [(spells_musicLine s e).hexBytes_eq]
    simpa [songBytes] using songBytes_group s e []
  · rw [(spells_sfxLine s e).hexBytes_eq]
    simpa [sfxBytes, sfxFromBlock_sfxBlock] using sfxBytes_block (sfxBlock_length s e) 0 []

end Sys2Proof.Machine
end

section
/-! SUPPORT. The lines, the marker lines and the sections of a text (44_text_sections.md R231 to R234, R247). -/

namespace Sys2Proof.Machine

open Sys2Proof

/-! ### Lines -/

/-- A text is empty, or one line without its end, or a line and a text after it (44 R231). -/
theorem lines_induction {P : ByteString → Prop} (nil : P []) (last : ∀ l, l ≠ [] → 0x0a#8 ∉ l → P l)
    (line : ∀ l rest, 0x0a#8 ∉ l → P rest → P (l ++ 0x0a#8 :: rest)) (t : ByteString) : P t := by
  induction hn : t.length using Nat.strong_induction_on generalizing t with
  | _ n ih =>
    by_cases hmem : 0x0a#8 ∈ t
    · obtain ⟨l, rest, rfl, hl⟩ := List.eq_append_cons_of_mem hmem
      exact line l rest hl (ih rest.length (by rw [← hn, List.length_append, List.length_cons]; omega) rest rfl)
    · by_cases hnil : t = []
      · exact hnil ▸ nil
      · exact last t hnil hmem

theorem rawLines_of_line {l : ByteString} (h : 0x0a#8 ∉ l) (rest : ByteString) :
    rawLines (l ++ 0x0a#8 :: rest) = (l ++ [0x0a#8]) :: rawLines rest := by
  induction l with
  | nil => rfl
  | cons b l ih =>
    obtain ⟨hb, hl⟩ := not_or.1 (List.mem_cons.not.1 h)
    show rawLines (b :: (l ++ 0x0a#8 :: rest)) = _
    rw [rawLines, if_neg (Ne.symm hb), ih hl]
    rfl

theorem rawLines_of_last {l : ByteString} (hne : l ≠ []) (h : 0x0a#8 ∉ l) : rawLines l = [l] := by
  induction l with
  | nil => exact absurd rfl hne
  | cons b l ih =>
    obtain ⟨hb, hl⟩ := not_or.1 (List.mem_cons.not.1 h)
    rw [rawLines, if_neg (Ne.symm hb)]
    by_cases hnil : l = []
    · rw [hnil]
      rfl
    · rw [ih hnil hl]

/-- A line is compared without its line end (44 R231). -/
theorem lineText_line_end {l : ByteString} (h : 0x0a#8 ∉ l) : lineText (l ++ [0x0a#8]) = lineText l := by
  have hlast : l.getLast? ≠ some 0x0a#8 := fun hl => h (List.mem_of_getLast? hl)
  have hdrop : dropLast1 0x0a#8 (l ++ [0x0a#8]) = l := by rw [dropLast1, if_pos List.getLast?_concat, List.dropLast_concat]
  have hkeep : dropLast1 0x0a#8 l = l := if_neg hlast
  rw [lineText, lineText, hdrop, hkeep]

theorem dropLast1_prefix (b : Byte) (l : ByteString) : dropLast1 b l <+: l := by
  unfold dropLast1
  split
  · exact List.dropLast_prefix l
  · exact List.prefix_refl l

theorem lineText_prefix (l : ByteString) : lineText l <+: l := (dropLast1_prefix ..).trans (dropLast1_prefix ..)

/-! ### Marker lines -/

theorem markerOf_line_end (c : Config) {l : ByteString} (h : 0x0a#8 ∉ l) : markerOf c (l ++ [0x0a#8]) = markerOf c l := by
  rw [markerOf, markerOf, lineText_line_end h]

/-- Only the markers have a part in what a line is (44 R234). -/
theorem markerOf_congr {c d : Config} (h : c.markers = d.markers) (l : ByteString) : markerOf c l = markerOf d l := by
  simp only [Config.markers, List.cons.injEq, and_true, true_and] at h
  obtain ⟨hlua, hgfx, hmap, hsfx, hmusic, hlabel⟩ := h
  rw [markerOf, markerOf, hlua, hgfx, hmap, hsfx, hmusic, hlabel]

theorem markerOf_of_not_mem {c : Config} {l : ByteString} (h : lineText l ∉ c.markers) : markerOf c l = none := by
  simp only [Config.markers, List.mem_cons, List.not_mem_nil, not_or, or_false] at h
  obtain ⟨hlua, hgfx, hgff, hmap, hsfx, hmusic, hlabel⟩ := h
  simp only [markerOf, hlua, hgfx, hgff, hmap, hsfx, hmusic, hlabel, if_false]

/-- A line that does not begin with an underscore is no default marker (44 R234). -/
theorem markerOf_none {c : Config} (h : c.markers = defaultConfig.markers) {l : ByteString}
    (hl : l.head? ≠ some 0x5f#8) : markerOf c l = none := by
  have hunderscore : ∀ m ∈ defaultConfig.markers, m.head? = some 0x5f#8 := by decide
  refine markerOf_of_not_mem fun hmem => hl ?_
  obtain ⟨rest, hrest⟩ := lineText_prefix l
  rw [← hrest, List.head?_append, hunderscore _ (h ▸ hmem)]
  rfl

/-! ### Sections -/

/-- A text of whole lines without a marker adds to the content it stands in and nothing else (44 R233). -/
def Plain (c : Config) (p : ByteString) : Prop :=
  ∀ t, splitSections c (rawLines (p ++ t)) = (p ++ (splitSections c (rawLines t)).1, (splitSections c (rawLines t)).2)

theorem plain_nil (c : Config) : Plain c [] := fun _ => rfl

theorem Plain.append {c : Config} {p q : ByteString} (hp : Plain c p) (hq : Plain c q) : Plain c (p ++ q) := fun t => by
  rw [List.append_assoc, hp, hq, List.append_assoc]

theorem Plain.flatMap {α : Type} {c : Config} {f : α → ByteString} {l : List α} (h : ∀ a ∈ l, Plain c (f a)) :
    Plain c (l.flatMap f) := by
  induction l with
  | nil => exact plain_nil c
  | cons a l ih =>
    rw [List.flatMap_cons]
    exact (h a List.mem_cons_self).append (ih fun b hb => h b (List.mem_cons_of_mem a hb))

theorem plain_line {c : Config} {l : ByteString} (h : 0x0a#8 ∉ l) (hmark : markerOf c l = none) :
    Plain c (l ++ [0x0a#8]) := fun t => by
  rw [List.append_assoc]
  show splitSections c (rawLines (l ++ 0x0a#8 :: t)) = _
  rw [rawLines_of_line h, splitSections, markerOf_line_end c h, hmark]

/-- A text that ends its last line (44 R247). -/
def endLine (t : ByteString) : ByteString := if t = [] ∨ t.getLast? = some 0x0a#8 then t else t ++ [0x0a#8]

theorem endLine_of_line (l rest : ByteString) : endLine (l ++ 0x0a#8 :: rest) = l ++ [0x0a#8] ++ endLine rest := by
  cases rest with
  | nil =>
    rw [endLine, if_pos (Or.inr List.getLast?_concat)]
    exact (List.append_nil _).symm
  | cons b rest =>
    have hlast : (l ++ 0x0a#8 :: b :: rest).getLast? = (b :: rest).getLast? := by
      rw [List.getLast?_append_of_ne_nil _ (List.cons_ne_nil 0x0a#8 (b :: rest)), List.getLast?_cons_cons]
    by_cases hend : (b :: rest).getLast? = some 0x0a#8
    · rw [endLine, endLine, if_pos (.inr (hlast.trans hend)), if_pos (.inr hend), List.append_assoc]
      rfl
    · rw [endLine, endLine, if_neg (by simp [hlast, hend]), if_neg (by simp [hend]), List.append_assoc, List.append_assoc]
      rfl

/-- A source none of whose lines is a marker is plain, once its last line is ended (44 R247). -/
theorem plain_endLine {c : Config} {t : ByteString} (h : ∀ l ∈ rawLines t, markerOf c l = none) : Plain c (endLine t) := by
  induction t using lines_induction with
  | nil => exact plain_nil c
  | last l hne hl =>
    have hlast : l.getLast? ≠ some 0x0a#8 := fun hlast => hl (List.mem_of_getLast? hlast)
    rw [rawLines_of_last hne hl] at h
    rw [endLine, if_neg (not_or.2 ⟨hne, hlast⟩)]
    exact plain_line hl (h l List.mem_cons_self)
  | line l rest hl ih =>
    rw [rawLines_of_line hl] at h
    rw [endLine_of_line]
    refine Plain.append (plain_line hl ?_) (ih fun k hk => h k (List.mem_cons_of_mem _ hk))
    rw [← markerOf_line_end c hl]
    exact h _ List.mem_cons_self

/-- `text` is the marker lines and contents of these sections, with nothing before the first (44 R233). -/
def Sectioned (c : Config) (text : ByteString) (secs : List (SectionKind × ByteString)) : Prop :=
  splitSections c (rawLines text) = ([], secs)

theorem sectioned_nil (c : Config) : Sectioned c [] [] := rfl

/-- A marker line and a plain content before sections are a section more (44 R233). -/
theorem Sectioned.cons {c : Config} {text : ByteString} {secs : List (SectionKind × ByteString)} (h : Sectioned c text secs)
    {marker content : ByteString} {k : SectionKind} (hline : 0x0a#8 ∉ marker) (hmark : markerOf c marker = some k)
    (hcontent : Plain c content) : Sectioned c (marker ++ [0x0a#8] ++ content ++ text) ((k, content) :: secs) := by
  rw [List.append_assoc, List.append_assoc]
  show splitSections c (rawLines (marker ++ 0x0a#8 :: (content ++ text))) = _
  unfold Sectioned at h
  rw [rawLines_of_line hline, splitSections, markerOf_line_end c hline, hmark, hcontent, h, List.append_nil]

end Sys2Proof.Machine
end

section
/-! SUPPORT. What `TEXT_PARSE` makes of the text of `TEXT_SERIALIZE` (44_text_sections.md R244 to R254). -/

namespace Sys2Proof.Machine

open Sys2Proof

/-! ### The lines of a section, trimmed and read back -/

/-- Trimming leaves out lines of zeros at the end only (44 R246). -/
theorem trimLines_append_dead (lines : List HexLine) :
    ∃ dead, lines = trimLines lines ++ dead ∧ ∀ l ∈ dead, l.live = false := by
  induction lines with
  | nil => exact ⟨[], rfl, fun l hl => nomatch hl⟩
  | cons l ls ih =>
    obtain ⟨dead, hls, hdead⟩ := ih
    rw [trimLines]
    generalize trimLines ls = kept at hls
    subst hls
    cases kept with
    | cons k ks => exact ⟨dead, rfl, hdead⟩
    | nil =>
      by_cases hl : l.live = true
      · exact ⟨dead, by simp [hl], hdead⟩
      · exact ⟨l :: dead, by simp [hl], List.forall_mem_cons.2 ⟨Bool.eq_false_of_not_eq_true hl, hdead⟩⟩

theorem trimLines_subset {lines : List HexLine} {l : HexLine} (h : l ∈ trimLines lines) : l ∈ lines := by
  obtain ⟨dead, hlines, -⟩ := trimLines_append_dead lines
  rw [hlines]
  exact List.mem_append_left dead h

/-- The bytes of the lines that trimming leaves. -/
def trimmedBytes (lines : List HexLine) : ByteString := (trimLines lines).flatMap HexLine.bytes

/-- The lines cover the `n` bytes of a memory from `base` on. -/
def Covers (lines : List HexLine) (m : Memory) (base n : Nat) : Prop := lines.flatMap HexLine.bytes = m.slice base n

theorem trimmedBytes_length_le {lines : List HexLine} {m : Memory} {base n : Nat} (h : Covers lines m base n) :
    (trimmedBytes lines).length ≤ n := by
  obtain ⟨dead, hlines, -⟩ := trimLines_append_dead lines
  have hlen := congrArg List.length h
  rw [hlines, List.flatMap_append, List.length_append, slice_length] at hlen
  exact hlen ▸ Nat.le_add_right ..

theorem getD_slice (m : Memory) (base n i : Nat) :
    (m.slice base n).getD i 0#8 = if i < n then m.read (base + i) else 0#8 := by
  rw [List.getD_eq_getElem?_getD, Memory.slice, List.getElem?_map]
  split
  · next hi => rw [List.getElem?_range' hi, Nat.one_mul]; rfl
  · next hi => rw [List.getElem?_eq_none (by rw [List.length_range']; omega)]; rfl

/-- Zeros at the end make no difference where a byte that is not there counts as zero. -/
theorem getD_append_zeros {bytes zeros : ByteString} (h : ∀ b ∈ zeros, b = 0#8) (i : Nat) :
    (bytes ++ zeros).getD i 0#8 = bytes.getD i 0#8 := by
  by_cases hi : i < bytes.length
  · exact List.getD_append _ _ _ _ hi
  · rw [List.getD_append_right _ _ _ _ (by omega), List.getD_eq_default bytes _ (by omega), List.getD_eq_getElem?_getD]
    cases hb : zeros[i - bytes.length]? with
    | none => rfl
    | some b => exact h b (List.mem_of_getElem? hb)

/-- Beyond the trimmed bytes the memory is zero (44 R246). -/
theorem trimmedBytes_getD {lines : List HexLine} {m : Memory} {base n : Nat} (h : Covers lines m base n) (i : Nat) :
    (trimmedBytes lines).getD i 0#8 = if i < n then m.read (base + i) else 0#8 := by
  obtain ⟨dead, hlines, hdead⟩ := trimLines_append_dead lines
  have hzero : ∀ b ∈ dead.flatMap HexLine.bytes, b = 0#8 := fun b hb => by
    obtain ⟨l, hl, hb⟩ := List.mem_flatMap.1 hb
    simpa using List.any_eq_false.1 (hdead l hl) b hb
  have hslice : trimmedBytes lines ++ dead.flatMap HexLine.bytes = m.slice base n := by
    rw [trimmedBytes, ← List.flatMap_append, ← hlines]
    exact h
  rw [← getD_slice, ← hslice, getD_append_zeros hzero]

/-- The text of trimmed lines, each with its line end (44 R246). -/
def sectionContent (lines : List HexLine) : ByteString := (trimLines lines).flatMap fun l => l.text ++ [0x0a#8]

theorem trimLines_length_le (lines : List HexLine) : (trimLines lines).length ≤ lines.length := by
  obtain ⟨dead, hlines, -⟩ := trimLines_append_dead lines
  conv_rhs => rw [hlines, List.length_append]
  exact Nat.le_add_right ..

section
variable {read : Nat → ByteString → ByteString} {lines : List HexLine} {n : Nat} (hnil : ∀ n, read n [] = [])
  (hline : ∀ l ∈ lines, ∀ n rest, read (n + 1) (l.text ++ 0x0a#8 :: rest) = l.bytes ++ read n rest)
  (hn : lines.length ≤ n)
include hnil hline hn

/-- A reader that makes a line's bytes of each line, and may count the lines, as the reader of sound entries does. -/
theorem read_lines : read n (lines.flatMap fun l => l.text ++ [0x0a#8]) = lines.flatMap HexLine.bytes := by
  induction lines generalizing n with
  | nil => exact hnil n
  | cons l ls ih =>
    rw [List.length_cons] at hn
    obtain ⟨n, rfl⟩ : ∃ k, n = k + 1 := ⟨n - 1, by omega⟩
    rw [List.flatMap_cons, List.flatMap_cons, List.append_assoc, List.singleton_append, hline l List.mem_cons_self,
      ih (fun k hk => hline k (List.mem_cons_of_mem l hk)) (Nat.le_of_succ_le_succ hn)]

/-- Such a reader makes the trimmed bytes of a section. -/
theorem read_sectionContent : read n (sectionContent lines) = trimmedBytes lines :=
  read_lines hnil (fun l hl => hline l (trimLines_subset hl)) ((trimLines_length_le lines).trans hn)

end

/-- A line end after a line is skipped (44 R236). -/
theorem Spells.line {swap : Bool} {text bytes : ByteString} (h : Spells swap text bytes) (rest : ByteString) :
    hexBytes swap (text ++ 0x0a#8 :: rest) = bytes ++ hexBytes swap rest :=
  (h _).trans (congrArg (bytes ++ ·) (spells_skip (by decide) rest))

/-- Lines of plain bytes are read back as their bytes (44 R237, R238, R242). -/
theorem hexBytes_byteLines {swap : Bool} {digits : Byte → ByteString} (h : ∀ b, Spells swap (digits b) [b]) (m : Memory)
    (base width n : Nat) :
    hexBytes swap (sectionContent (byteLines digits m base width n)) = trimmedBytes (byteLines digits m base width n) := by
  refine read_sectionContent (read := fun _ => hexBytes swap) (fun _ => rfl) (fun l hl _ rest => ?_) le_rfl
  obtain ⟨i, -, rfl⟩ := List.mem_map.1 hl
  exact (spells_bytes h _).line rest

theorem covers_byteLines (digits : Byte → ByteString) (m : Memory) (base width n : Nat) :
    Covers (byteLines digits m base width n) m base (width * n) := by
  rw [Covers, byteLines, List.flatMap_map, slice_mul]

/-! ### The six hex sections -/

section
variable (s : State)

/-- The lines of the graphics section (44 R248). -/
def gfxLines : List HexLine := byteLines hex2s s.rom gfxBase 64 128
/-- The lines of the label section (44 R249). -/
def labelLines : List HexLine := byteLines hex2s s.label 0 64 128
/-- The lines of the flags section (44 R250). -/
def flagLines : List HexLine := byteLines hex2 s.rom flagsBase 128 2
/-- The lines of the map section (44 R251). -/
def mapLines : List HexLine := byteLines hex2 s.rom mapBase 128 32
/-- The lines of the sound section (44 R252). -/
def sfxLines : List HexLine := (List.range 64).map (sfxLine s)
/-- The lines of the music section (44 R253). -/
def musicLines : List HexLine := (List.range 64).map (musicLine s)

theorem covers_sfxLines : Covers (sfxLines s) s.rom sfxBase (68 * 64) := by
  rw [Covers, sfxLines, List.flatMap_map, slice_mul]
  rfl

theorem covers_musicLines : Covers (musicLines s) s.rom songBase (4 * 64) := by
  rw [Covers, musicLines, List.flatMap_map, slice_mul]
  rfl

/-- The sound section is read back as its entries (44 R240, R252). -/
theorem sfxBytes_sfxLines : sfxBytes 64 (hexBytes false (sectionContent (sfxLines s))) = trimmedBytes (sfxLines s) := by
  have hnil : ∀ n, sfxBytes n (hexBytes false []) = [] := fun n => by cases n <;> rfl
  refine read_sectionContent (read := fun n text => sfxBytes n (hexBytes false text)) hnil (fun l hl n rest => ?_) ?_
  · obtain ⟨e, -, rfl⟩ := List.mem_map.1 hl
    show sfxBytes (n + 1) (hexBytes false (_ ++ _)) = _
    rw [(spells_sfxLine s e).line, sfxBytes_block (sfxBlock_length s e), sfxFromBlock_sfxBlock]
    rfl
  · rw [sfxLines, List.length_map, List.length_range]

/-- The music section is read back as its entries (44 R239, R253). -/
theorem songBytes_musicLines : songBytes (hexBytes false (sectionContent (musicLines s))) = trimmedBytes (musicLines s) := by
  refine read_sectionContent (read := fun _ text => songBytes (hexBytes false text)) (fun _ => rfl) (fun l hl _ rest => ?_)
    le_rfl
  obtain ⟨e, -, rfl⟩ := List.mem_map.1 hl
  show songBytes (hexBytes false (_ ++ _)) = _
  rw [(spells_musicLine s e).line, songBytes_group]
  rfl

end

end Sys2Proof.Machine
end

section
/-! SUPPORT. The round trip of a cartridge through its text (44_text_sections.md R254). -/

namespace Sys2Proof.Machine

open Sys2Proof

/-! ### The sections of a serialized text -/

/-- The section a hex section is, if any line of it is left (44 R246). -/
def hexSections (k : SectionKind) (lines : List HexLine) : List (SectionKind × ByteString) :=
  if trimLines lines = [] then [] else [(k, sectionContent lines)]

/-- The section the source is, if it is not empty (44 R247). -/
def codeSections (src : ByteString) : List (SectionKind × ByteString) := if src = [] then [] else [(.code, endLine src)]

/-- The sections of a cartridge's text (44 R244). -/
def textSections (s : State) (src : ByteString) : List (SectionKind × ByteString) :=
  codeSections src ++ (hexSections .graphics (gfxLines s) ++ (hexSections .label (labelLines s) ++
    (hexSections .flags (flagLines s) ++ (hexSections .map (mapLines s) ++ (hexSections .sound (sfxLines s) ++
      hexSections .music (musicLines s))))))

/-- A text that neither ends a line nor has an underscore, as the text of a hex line (44 R245). -/
def LineSafe (text : ByteString) : Prop := ∀ b ∈ text, b ≠ 0x0a#8 ∧ b ≠ 0x5f#8

theorem LineSafe.append {t u : ByteString} (ht : LineSafe t) (hu : LineSafe u) : LineSafe (t ++ u) :=
  List.forall_mem_append.2 ⟨ht, hu⟩

theorem LineSafe.flatMap {α : Type} {f : α → ByteString} {l : List α} (h : ∀ a, LineSafe (f a)) :
    LineSafe (l.flatMap f) := fun b hb => by
  obtain ⟨a, -, hb⟩ := List.mem_flatMap.1 hb
  exact h a b hb

/-- Written digits are safe (44 R245). -/
theorem lineSafe_digits {ds : List Nat} (h : ∀ d ∈ ds, d < 16) : LineSafe (ds.map hex1) := fun b hb => by
  obtain ⟨d, hd, rfl⟩ := List.mem_map.1 hb
  exact (hex1_digit ⟨d, h d hd⟩).2

theorem lineSafe_hex2 (b : Byte) : LineSafe (hex2 b) :=
  lineSafe_digits (ds := [b.toNat / 16, b.toNat % 16]) (by simp; omega)

theorem lineSafe_hex2s (b : Byte) : LineSafe (hex2s b) :=
  lineSafe_digits (ds := [b.toNat % 16, b.toNat / 16]) (by simp; omega)

theorem lineSafe_noteDigits (w : Word16) : LineSafe (noteDigits w) :=
  (lineSafe_hex2 _).append (lineSafe_digits
    (ds := [(noteInstrument w).toNat, (noteVolume w).toNat, (noteEffect w).toNat]) (by simp; omega))

theorem lineSafe_byteLines {digits : Byte → ByteString} (h : ∀ b, LineSafe (digits b)) (m : Memory) (base width n : Nat) :
    ∀ l ∈ byteLines digits m base width n, LineSafe l.text := fun l hl => by
  obtain ⟨i, -, rfl⟩ := List.mem_map.1 hl
  exact LineSafe.flatMap h

theorem lineSafe_sfxLines (s : State) : ∀ l ∈ sfxLines s, LineSafe l.text := fun l hl => by
  obtain ⟨e, -, rfl⟩ := List.mem_map.1 hl
  exact (LineSafe.flatMap fun j => lineSafe_hex2 _).append (LineSafe.flatMap fun n => lineSafe_noteDigits _)

theorem lineSafe_musicLines (s : State) : ∀ l ∈ musicLines s, LineSafe l.text := fun l hl => by
  obtain ⟨e, -, rfl⟩ := List.mem_map.1 hl
  have hspace : LineSafe [0x20#8] := by unfold LineSafe; decide
  exact ((lineSafe_hex2 _).append hspace).append (LineSafe.flatMap fun k => lineSafe_hex2 _)

/-- The number of the version has one to three digits (44 R244). -/
theorem lineSafe_decimal {ver : Nat} : LineSafe (decimal ver) := by
  have hmod : ∀ n, n % 10 < 16 := fun n => by omega
  unfold decimal
  split
  · exact lineSafe_digits (ds := [ver]) (by simp; omega)
  · split
    · exact lineSafe_digits (ds := [ver / 10, ver % 10]) (by simp; omega)
    · exact lineSafe_digits (ds := [ver / 100 % 10, ver / 10 % 10, ver % 10]) (by simp; omega)

theorem lineSafe_versionWord : LineSafe versionWord := by unfold LineSafe; decide

theorem LineSafe.plain {c : Config} (hc : c.markers = defaultConfig.markers) {text : ByteString} (h : LineSafe text) :
    Plain c (text ++ [0x0a#8]) :=
  plain_line (fun hmem => (h _ hmem).1 rfl) (markerOf_none hc fun hhead => (h _ (List.mem_of_head? hhead)).2 rfl)

/-- A marker is a line of its kind (44 R234). -/
def IsMarker (c : Config) (marker : ByteString) (k : SectionKind) : Prop :=
  0x0a#8 ∉ marker ∧ markerOf c marker = some k

/-- The markers with their kinds (44 R234). -/
def markedKinds (c : Config) : List (ByteString × SectionKind) :=
  c.markers.zip [.code, .graphics, .flags, .map, .sound, .music, .label]

theorem isMarker_of_default {c : Config} (h : c.markers = defaultConfig.markers) :
    ∀ p ∈ markedKinds c, IsMarker c p.1 p.2 := by
  simp only [IsMarker, markerOf_congr h, markedKinds, h]
  decide

section
variable {c : Config} {text : ByteString} {secs : List (SectionKind × ByteString)}

/-- A hex section before other sections (44 R246). -/
theorem Sectioned.hexSection (h : Sectioned c text secs) (hc : c.markers = defaultConfig.markers) {marker : ByteString}
    {k : SectionKind} {lines : List HexLine} (hmark : IsMarker c marker k)
    (hsafe : ∀ l ∈ lines, LineSafe l.text) :
    Sectioned c (Machine.hexSection marker lines ++ text) (hexSections k lines ++ secs) := by
  have hplain : Plain c (sectionContent lines) := by
    unfold sectionContent
    exact Plain.flatMap fun l hl => (hsafe l (trimLines_subset hl)).plain hc
  have hcons := h.cons hmark.1 hmark.2 hplain
  unfold Machine.hexSection hexSections
  unfold sectionContent at hcons ⊢
  generalize trimLines lines = kept at hcons ⊢
  cases kept with
  | nil => exact h
  | cons l ls => exact hcons

/-- The code section before other sections (44 R247). -/
theorem Sectioned.codeSection (h : Sectioned c text secs) {src : ByteString}
    (hmark : IsMarker c c.markLua .code) (hsrc : ∀ l ∈ rawLines src, markerOf c l = none) :
    Sectioned c (Machine.codeSection c src ++ text) (codeSections src ++ secs) := by
  have hcons := h.cons hmark.1 hmark.2 (plain_endLine hsrc)
  by_cases hnil : src = []
  · rw [Machine.codeSection, codeSections, if_pos hnil, if_pos hnil]
    exact h
  · have hend : src ++ (if src.getLast? = some 0x0a#8 then [] else [0x0a#8]) = endLine src := by
      by_cases hlast : src.getLast? = some 0x0a#8
      · rw [endLine, if_pos hlast, if_pos (.inr hlast), List.append_nil]
      · rw [endLine, if_neg hlast, if_neg (not_or.2 ⟨hnil, hlast⟩)]
    rw [Machine.codeSection, codeSections, if_neg hnil, if_neg hnil, List.append_assoc (c.markLua ++ _), hend]
    exact hcons

end

/-- The text of a cartridge, section by section (44 R244). -/
theorem serializeText_eq (s : State) (src : ByteString) (ver : Nat) :
    serializeText s src ver = (s.cfg.headerPhrase ++ [0x0a#8]) ++ ((versionWord ++ decimal ver ++ [0x0a#8]) ++
      (codeSection s.cfg src ++ (hexSection s.cfg.markGfx (gfxLines s) ++ (hexSection s.cfg.markLabel (labelLines s) ++
        (hexSection gffMarker (flagLines s) ++ (hexSection s.cfg.markMap (mapLines s) ++
          (hexSection s.cfg.markSfx (sfxLines s) ++ hexSection s.cfg.markMusic (musicLines s)))))))) := by
  simp only [serializeText, List.append_assoc]
  rfl

section
variable {s : State} {src : ByteString} (hphrase : s.cfg.headerPhrase = defaultConfig.headerPhrase)
  (hmarkers : s.cfg.markers = defaultConfig.markers) (hsrc : ∀ l ∈ rawLines src, markerOf s.cfg l = none)
include hphrase

/-- A serialized text has its header (44 R232). -/
theorem hasHeader_serializeText (ver : Nat) : hasHeader s.cfg (rawLines (serializeText s src ver)) = true := by
  have hline : 0x0a#8 ∉ s.cfg.headerPhrase := by rw [hphrase]; decide
  have htext : lineText s.cfg.headerPhrase = s.cfg.headerPhrase := by rw [hphrase]; decide
  rw [serializeText_eq, List.append_assoc, List.singleton_append, rawLines_of_line hline, hasHeader_iff]
  exact ⟨_, rfl, by rw [lineText_line_end hline, htext]⟩

include hmarkers hsrc

/-- The sections of a serialized text are the cartridge's (44 R254). -/
theorem splitSections_serializeText (ver : Nat) :
    (splitSections s.cfg (rawLines (serializeText s src ver))).2 = textSections s src := by
  have hheader : Plain s.cfg (s.cfg.headerPhrase ++ [0x0a#8]) :=
    plain_line (by rw [hphrase]; decide) (markerOf_none hmarkers (by rw [hphrase]; decide))
  have hversion : Plain s.cfg (versionWord ++ decimal ver ++ [0x0a#8]) :=
    (lineSafe_versionWord.append lineSafe_decimal).plain hmarkers
  have hmark : ∀ p ∈ markedKinds s.cfg, IsMarker s.cfg p.1 p.2 := isMarker_of_default hmarkers
  simp only [markedKinds, Config.markers, List.zip_cons_cons, List.zip_nil_left, List.forall_mem_cons] at hmark
  obtain ⟨hlua, hgfx, hgff, hmap, hsfx, hmusic, hlabel, -⟩ := hmark
  have hbytes {digits : Byte → ByteString} (h : ∀ b, LineSafe (digits b)) {m : Memory} {base width n : Nat} :=
    lineSafe_byteLines h m base width n
  have htail := ((sectioned_nil s.cfg).hexSection hmarkers hmusic (lineSafe_musicLines s)).hexSection hmarkers hsfx
    (lineSafe_sfxLines s)
  have hflags := (htail.hexSection hmarkers hmap (lines := mapLines s) (hbytes lineSafe_hex2)).hexSection hmarkers hgff
    (lines := flagLines s) (hbytes lineSafe_hex2)
  have hgraphics := (hflags.hexSection hmarkers hlabel (lines := labelLines s) (hbytes lineSafe_hex2s)).hexSection hmarkers hgfx
    (lines := gfxLines s) (hbytes lineSafe_hex2s)
  have hall := hgraphics.codeSection hlua hsrc
  unfold Sectioned at hall
  rw [List.append_nil, List.append_nil] at hall
  rw [serializeText_eq, hheader, hversion]
  exact congrArg Prod.snd hall

end

end Sys2Proof.Machine
end

section
/-! SUPPORT. The memories and the cache a serialized text restores (44_text_sections.md R235 to R242, R254). -/

namespace Sys2Proof.Machine

open Sys2Proof

/-! ### One hex section -/

/-- An empty section of bytes changes nothing (44 R243). -/
theorem applySection_nil {k : SectionKind} (hk : k ≠ .code) (s : State) : applySection k [] s = s := by
  cases k with
  | code => exact absurd rfl hk
  | graphics | flags | map | sound | music | label => rfl

/-- A section that was left out counts as an empty one (44 R246). -/
theorem applySections_hexSections {k : SectionKind} (hk : k ≠ .code) (lines : List HexLine) (s : State) :
    applySections (hexSections k lines) s = applySection k (sectionContent lines) s := by
  unfold hexSections
  split
  · next hnil =>
    rw [sectionContent, hnil]
    exact (applySection_nil hk s).symm
  · rfl

section
variable {lines : List HexLine} {src m : Memory} {base n : Nat}

/-- Trimmed bytes written where a memory is blank are all the bytes they cover (44 R246). -/
theorem read_writeList_trimmedBytes (hcovers : Covers lines src base n) (hm : m.wf = true)
    (hblank : ∀ a ∈ Set.Ico base (base + n), m.read a = 0#8) (a : Nat) :
    (a ∈ Set.Ico base (base + n) → (m.writeList base (trimmedBytes lines)).read a = src.read a) ∧
      (a ∉ Set.Ico base (base + n) → (m.writeList base (trimmedBytes lines)).read a = m.read a) := by
  have hlen := trimmedBytes_length_le hcovers
  rw [Memory.read_writeList hm, Set.mem_Ico]
  refine ⟨fun hin => ?_, fun hout => if_neg (by omega)⟩
  have hbyte := trimmedBytes_getD hcovers (a - base)
  rw [if_pos (by omega), Nat.add_sub_cancel' hin.1] at hbyte
  split
  · exact hbyte
  · rw [hblank a hin, ← hbyte, List.getD_eq_default _ _ (by omega)]

end

/-- The sections restore the part `A` of ROM from `src` where it is blank, and leave the rest of ROM alone. -/
def Restores (src : Memory) (A : Set Nat) (secs : List (SectionKind × ByteString)) : Prop :=
  ∀ t : State, MemoryInv codeBase t.rom → (∀ a ∈ A, t.rom.read a = 0#8) → ∀ a,
    (a ∈ A → (applySections secs t).rom.read a = src.read a) ∧
      (a ∉ A → (applySections secs t).rom.read a = t.rom.read a)

/-- Sections that leave ROM alone restore nothing. -/
theorem restores_empty {secs : List (SectionKind × ByteString)} (h : ∀ t, (applySections secs t).rom = t.rom)
    (src : Memory) : Restores src ∅ secs := fun t _ _ a => ⟨fun ha => ha.elim, fun _ => by rw [h]⟩

/-- Sections that restore disjoint parts restore both. -/
theorem Restores.append {src : Memory} {A B : Set Nat} {xs ys : List (SectionKind × ByteString)} (hx : Restores src A xs)
    (hy : Restores src B ys) (hdisjoint : Disjoint A B) : Restores src (A ∪ B) (xs ++ ys) := by
  intro t ht hblank a
  rw [applySections_append]
  have hnot : ∀ b ∈ B, b ∉ A := fun b hb ha => Set.disjoint_left.1 hdisjoint ha hb
  have hfirst := hx t ht fun b hb => hblank b (.inl hb)
  have hsecond := hy (applySections xs t) (applySections_belowCode xs ht) (fun b hb => by
    rw [(hfirst b).2 (hnot b hb), hblank b (.inr hb)]) a
  refine ⟨?_, fun ha => ?_⟩
  · rintro (hA | hB)
    · rw [hsecond.2 fun hB => hnot a hB hA, (hfirst a).1 hA]
    · exact hsecond.1 hB
  · rw [hsecond.2 fun hB => ha (.inr hB), (hfirst a).2 fun hA => ha (.inl hA)]

/-- A section that writes its lines' bytes over its own part restores it. -/
theorem restores_of_write {src : Memory} {base n : Nat} {k : SectionKind} {lines : List HexLine} (hk : k ≠ .code)
    (hcovers : Covers lines src base n)
    (h : ∀ t, (applySection k (sectionContent lines) t).rom = t.rom.writeList base (trimmedBytes lines)) :
    Restores src (Set.Ico base (base + n)) (hexSections k lines) := by
  rintro t ⟨hwf, -⟩ hblank a
  rw [applySections_hexSections hk, h]
  exact read_writeList_trimmedBytes hcovers hwf hblank a

section
variable (s : State)

theorem restores_gfx : Restores s.rom (Set.Ico 0 0x2000) (hexSections .graphics (gfxLines s)) := by
  rintro t ⟨hwf, -⟩ hblank a
  have hcovers : Covers (gfxLines s) s.rom 0 0x2000 := covers_byteLines hex2s s.rom gfxBase 64 128
  have hlen := trimmedBytes_length_le hcovers
  have hbyte := trimmedBytes_getD hcovers a
  rw [applySections_hexSections (by decide), applySection, applyGraphics, flagTooLarge_rom, gfxLines,
    hexBytes_byteLines spells_hex2s, ← gfxLines, read_applyAliased hwf (.inl (by decide)), Set.mem_Ico]
  have hgfx : gfxBase = 0 := rfl
  have hmap2 : map2Base = 0x1000 := rfl
  refine ⟨fun hin => ?_, fun hout => by rw [if_neg (by omega), if_neg (by omega)]⟩
  rw [if_pos (by omega), Nat.zero_add] at hbyte
  rw [hblank a hin, hgfx, Nat.sub_zero, BitVec.zero_or, hbyte]
  split
  · rfl
  · split
    · rfl
    · rw [← hbyte, List.getD_eq_default _ _ (by omega)]

theorem restores_flags : Restores s.rom (Set.Ico 0x3000 (0x3000 + 0x100)) (hexSections .flags (flagLines s)) := by
  have hcovers : Covers (flagLines s) s.rom flagsBase 0x100 := covers_byteLines hex2 s.rom flagsBase 128 2
  refine restores_of_write (by decide) hcovers fun t => ?_
  rw [applySection, applyFlags, flagTooLarge_rom, flagLines, hexBytes_byteLines spells_hex2, ← flagLines,
    List.take_of_length_le (trimmedBytes_length_le hcovers)]
  rfl

theorem restores_map : Restores s.rom (Set.Ico 0x2000 (0x2000 + 0x1000)) (hexSections .map (mapLines s)) := by
  have hcovers : Covers (mapLines s) s.rom mapBase 0x1000 := covers_byteLines hex2 s.rom mapBase 128 32
  have hlen := trimmedBytes_length_le hcovers
  refine restores_of_write (by decide) hcovers fun t => ?_
  rw [applySection, applyMap, flagTooLarge_rom, mapLines, hexBytes_byteLines spells_hex2, ← mapLines, applyAliased,
    List.take_of_length_le hlen, List.drop_of_length_le hlen]
  rfl

theorem restores_sound : Restores s.rom (Set.Ico 0x3200 (0x3200 + 68 * 64)) (hexSections .sound (sfxLines s)) := by
  refine restores_of_write (by decide) (covers_sfxLines s) fun t => ?_
  rw [applySection, applySound, flagTooLarge_rom, sfxBytes_sfxLines]
  rfl

theorem restores_music : Restores s.rom (Set.Ico 0x3100 (0x3100 + 4 * 64)) (hexSections .music (musicLines s)) := by
  refine restores_of_write (by decide) (covers_musicLines s) fun t => ?_
  rw [applySection, applyMusic, flagTooLarge_rom, songBytes_musicLines,
    List.take_of_length_le (trimmedBytes_length_le (covers_musicLines s))]
  rfl

theorem codeSections_rom (src : ByteString) (t : State) : (applySections (codeSections src) t).rom = t.rom := by
  unfold codeSections
  split <;> rfl

theorem labelSections_rom (t : State) : (applySections (hexSections .label (labelLines s)) t).rom = t.rom := by
  rw [applySections_hexSections (by decide), applySection, applyLabel, flagTooLarge_rom]

/-- The sections restore ROM below the code region (44 R254). -/
theorem restores_textSections (src : ByteString) : Restores s.rom (Set.Iio codeBase) (textSections s src) := by
  have hunion : Set.Iio codeBase = ∅ ∪ (Set.Ico 0 0x2000 ∪ (∅ ∪ (Set.Ico 0x3000 (0x3000 + 0x100) ∪
      (Set.Ico 0x2000 (0x2000 + 0x1000) ∪ (Set.Ico 0x3200 (0x3200 + 68 * 64) ∪ Set.Ico 0x3100 (0x3100 + 4 * 64)))))) := by
    ext a
    simp only [codeBase, Set.mem_Iio, Set.mem_union, Set.mem_Ico, Set.mem_empty_iff_false, false_or]
    omega
  rw [hunion]
  have hcode := restores_empty (codeSections_rom src) s.rom
  have hlabel := restores_empty (labelSections_rom s) s.rom
  refine hcode.append ((restores_gfx s).append (hlabel.append ((restores_flags s).append ((restores_map s).append
    ((restores_sound s).append (restores_music s) ?_) ?_) ?_) (Set.empty_disjoint _)) ?_) (Set.empty_disjoint _)
  all_goals
    rw [Set.disjoint_left]
    intro a
    simp only [Set.mem_union, Set.mem_Ico, Set.mem_empty_iff_false, false_or]
    omega

/-! ### The label and the cache -/

/-- Only a label section touches the label. -/
theorem applySection_label {k : SectionKind} (hk : k ≠ .label) (content : ByteString) (t : State) :
    (applySection k content t).label = t.label := by
  cases k with
  | label => exact absurd rfl hk
  | code => rfl
  | graphics | flags | map | sound | music =>
    simp only [applySection, applyGraphics, applyFlags, applyMap, applySound, applyMusic, flagTooLarge_label, applyAliased]

theorem applySections_label_of_no_label {secs : List (SectionKind × ByteString)} (h : ∀ sec ∈ secs, sec.1 ≠ .label)
    (t : State) : (applySections secs t).label = t.label := by
  induction secs generalizing t with
  | nil => rfl
  | cons sec secs ih =>
    rw [applySections, ih fun sec' hsec => h sec' (List.mem_cons_of_mem sec hsec)]
    exact applySection_label (h sec List.mem_cons_self) ..

theorem kind_of_mem_hexSections {k : SectionKind} {lines : List HexLine} {sec : SectionKind × ByteString}
    (h : sec ∈ hexSections k lines) : sec.1 = k := by
  unfold hexSections at h
  split at h
  · cases h
  · rw [List.mem_singleton.1 h]

theorem kind_of_mem_codeSections {src : ByteString} {sec : SectionKind × ByteString} (h : sec ∈ codeSections src) :
    sec.1 = .code := by
  unfold codeSections at h
  split at h
  · cases h
  · rw [List.mem_singleton.1 h]

/-- The label section is written over a blank label (44 R242). -/
theorem read_label_hexSections {t : State} (ht : t.label = []) {a : Nat} (ha : a < 0x2000) :
    (applySections (hexSections .label (labelLines s)) t).label.read a = s.label.read a := by
  have hcovers : Covers (labelLines s) s.label 0 0x2000 := covers_byteLines hex2s s.label 0 64 128
  rw [applySections_hexSections (by decide), applySection, applyLabel, flagTooLarge_label, labelLines,
    hexBytes_byteLines spells_hex2s, ← labelLines, List.take_of_length_le (trimmedBytes_length_le hcovers), ht]
  exact (read_writeList_trimmedBytes hcovers rfl (fun _ _ => rfl) a).1 ⟨Nat.zero_le a, ha⟩

/-- The sections restore the label (44 R254). -/
theorem label_textSections (src : ByteString) {t : State} (ht : t.label = []) {a : Nat} (ha : a < 0x2000) :
    (applySections (textSections s src) t).label.read a = s.label.read a := by
  have hkeep {secs : List (SectionKind × ByteString)} (h : ∀ sec ∈ secs, sec.1 ≠ .label) :=
    applySections_label_of_no_label h
  have hhex {k : SectionKind} (hk : k ≠ .label) (lines : List HexLine) : ∀ sec ∈ hexSections k lines, sec.1 ≠ .label :=
    fun sec hsec => kind_of_mem_hexSections hsec ▸ hk
  have hcode : ∀ sec ∈ codeSections src, sec.1 ≠ .label :=
    fun sec hsec => kind_of_mem_codeSections hsec ▸ by decide
  simp only [textSections, applySections_append]
  rw [hkeep (hhex (by decide) _), hkeep (hhex (by decide) _), hkeep (hhex (by decide) _), hkeep (hhex (by decide) _)]
  exact read_label_hexSections s (by rw [hkeep (hhex (by decide) _), hkeep hcode, ht]) ha

/-- The sections restore the source, its last line ended (44 R241, R247, R254). -/
theorem cache_textSections (src : ByteString) {t : State} (ht : t.cache = []) :
    (applySections (textSections s src) t).cache = endLine src := by
  have hhex {k : SectionKind} (hk : k ≠ .code) (lines : List HexLine) : ∀ sec ∈ hexSections k lines, sec.1 ≠ .code :=
    fun sec hsec => kind_of_mem_hexSections hsec ▸ hk
  have hno {xs ys : List (SectionKind × ByteString)} (hx : ∀ sec ∈ xs, sec.1 ≠ .code)
      (hy : ∀ sec ∈ ys, sec.1 ≠ .code) : ∀ sec ∈ xs ++ ys, sec.1 ≠ .code := List.forall_mem_append.2 ⟨hx, hy⟩
  have hrest := hno (hhex (k := .graphics) (by decide) (gfxLines s)) (hno (hhex (k := .label) (by decide) (labelLines s))
    (hno (hhex (k := .flags) (by decide) (flagLines s)) (hno (hhex (k := .map) (by decide) (mapLines s))
      (hno (hhex (k := .sound) (by decide) (sfxLines s)) (hhex (k := .music) (by decide) (musicLines s))))))
  rw [textSections, codeSections]
  by_cases hnil : src = []
  · rw [if_pos hnil, List.nil_append, applySections_cache_of_no_code hrest, ht, hnil]
    rfl
  · rw [if_neg hnil]
    exact applySections_cache_of_last_code (pre := []) hrest t

end

/-- Settles O50: the text's sections are the cartridge's, and they restore ROM, LABEL and the cache part by part. -/
theorem textRoundTrip : Obligations.TextRoundTrip := by
  intro s u ver hf hu hver hvalid hcfg hphrase hmarkers hsrc
  have hheader := hasHeader_serializeText (src := s.cache) hphrase ver
  have hsections := splitSections_serializeText hphrase hmarkers hsrc ver
  rw [← hcfg] at hheader hsections
  have hparse := exec_textParse_of_header hu hheader (congrArg (applySections · _) hsections)
  have hrom := restores_textSections s s.cache (clearForText u.cleared) (memoryInv_nil codeBase) fun _ _ => rfl
  exact ⟨_, _, exec_textSerialize_of_cache hf hver hvalid, rfl, hparse, fun a ha => (hrom a).1 ha,
    fun a ha => (hrom a).2 (Nat.not_lt.2 ha), fun a ha => label_textSections s s.cache rfl ha,
    cache_textSections s s.cache rfl⟩

end Sys2Proof.Machine
end

section
/-! SUPPORT. The preamble of a command and the fault of an access out of range (60_exceptions.md R265, R266; 20_memory.md
R48). -/

namespace Sys2Proof.Machine

open Sys2Proof

/-! ### The preamble -/

/-- A command's meaning is its preamble, then one body, the same in every state (60 R266). -/
theorem exec_eq_preamble {i : Instr} (hi : i.stream = .command) :
    ∃ k : State → Step, ∀ s, exec i s = preamble i s k := by
  cases i with
  | lit _ | esc _ | bref _ _ | mlit _ _ | mbrefS _ _ | mbrefM _ _ | mbrefL _ _ => cases hi
  | _ =>
    simp only [exec]
    exact ⟨_, fun _ => rfl⟩

theorem preamble_of_faulted {i : Instr} {s : State} {k : State → Step} (hf : s.faulted = true) :
    preamble i s k = .refused .faulted := if_pos hf

theorem preamble_of_not_wf {i : Instr} {s : State} {k : State → Step} (hf : s.faulted = false) (hw : i.wf = false) :
    preamble i s k = .refused .operandWidth := by
  simp [preamble, hf, hw]

/-- The preamble clears `STATUS` before the body can read it (60 R266). -/
theorem preamble_status (i : Instr) (s : State) (k : State → Step) (b : Byte) :
    preamble i { s with status := b } k = preamble i s k := rfl

/-- Settles O15: a command is its preamble, then a body that starts with `STATUS` cleared. -/
theorem preambleRunsFirst : Obligations.PreambleRunsFirst := by
  intro i s hi
  obtain ⟨k, hk⟩ := exec_eq_preamble hi
  simp only [hk]
  exact ⟨preamble_of_faulted, preamble_of_not_wf, preamble_status i s k⟩

/-! ### The fault -/

/-- An accessor's range check fails: the fault is taken and the access is not made (60 R265). -/
theorem preamble_outOfRange {i : Instr} {s : State} {k : State → Step} {c : Cause} {a size : Nat} (hready : Ready i s)
    (ha : size ≤ a) :
    preamble i s (fun s => if size ≤ a then .next (raiseFault c a s) else k s) = .next (raiseFault c a s.cleared) :=
  (preamble_of_ready hready).trans (if_pos ha)

/-- Settles O20: the four accessors pass their preamble and fail their range check. -/
theorem outOfRangeTakesTheFault : Obligations.OutOfRangeTakesTheFault := by
  intro s a v hf ha hv
  have haddr : decide (a < 2 ^ 16) = true := decide_eq_true ha
  have hboth : (decide (a < 2 ^ 16) && decide (v < 2 ^ 8)) = true := Bool.and_eq_true_iff.2 ⟨haddr, decide_eq_true hv⟩
  have hromRead : Ready (.romRead a) s := ⟨hf, haddr⟩
  have hromWrite : Ready (.romWrite a v) s := ⟨hf, hboth⟩
  have hlabelRead : Ready (.labelRead a) s := ⟨hf, haddr⟩
  have hlabelWrite : Ready (.labelWrite a v) s := ⟨hf, hboth⟩
  simp only [exec]
  exact ⟨fun hrom => ⟨preamble_outOfRange hromRead hrom, preamble_outOfRange hromWrite hrom⟩,
    fun hlabel => ⟨preamble_outOfRange hlabelRead hlabel, preamble_outOfRange hlabelWrite hlabel⟩⟩

end Sys2Proof.Machine
end

section
/-! SUPPORT. The flags a decode can set: `CBR` while its loop runs, and one stop reason when it ends (60_exceptions.md R263,
R269, R270; 42_detect_and_best.md R170). -/

namespace Sys2Proof.Machine

open Sys2Proof

/-! ### Flags -/

/-- Different flags are different bits of `STATUS` (10 R28). -/
theorem mask_getLsbD_bit (f g : Flag) : g.mask.getLsbD f.bit = decide (f = g) := by cases f <;> cases g <;> rfl

theorem hasFlag_setFlag {f g : Flag} {s : State} : hasFlag f (setFlag g s) = true ↔ hasFlag f s = true ∨ f = g := by
  rw [hasFlag, setFlag_status, BitVec.getLsbD_or, mask_getLsbD_bit, Bool.or_eq_true, decide_eq_true_iff]
  rfl

/-- No flag of `STATUS` but `CBR` is set, as it is while a decode's loop runs. -/
def CbrOnly (s : State) : Prop := ∀ f, hasFlag f s = true → f = .cbr

/-- The flags that end a decode's loop (60 R270). -/
def stopReasons : List Flag := [.trunc, .clit, .endmark]

/-- No flag of `STATUS` but `CBR` and one stop reason is set. -/
def OneReason (s : State) : Prop := ∃ r ∈ stopReasons, ∀ f, hasFlag f s = true → f = .cbr ∨ f = r

/-- What holds of `STATUS` from a decode's set-up to its end: a stop reason is set only where the loop has ended. -/
def ReasonInv (s : State) : Prop := CbrOnly s ∨ OneReason s ∧ ∀ form o, s.stage ≠ .decoding form o

theorem CbrOnly.oneReason {s : State} (hs : CbrOnly s) : OneReason s :=
  ⟨.trunc, by decide, fun f hf => .inl (hs f hf)⟩

theorem ReasonInv.oneReason {s : State} (hs : ReasonInv s) : OneReason s := hs.elim CbrOnly.oneReason And.left

/-- While the loop runs no stop reason is set. -/
theorem ReasonInv.cbrOnly {s : State} {form : Form} {o : Origin} (hs : ReasonInv s) (hst : s.stage = .decoding form o) :
    CbrOnly s := hs.resolve_right fun ⟨_, hno⟩ => hno form o hst

theorem cbrOnly_cleared (s : State) : CbrOnly s.cleared := fun f hf => by
  have hzero : hasFlag f s.cleared = false := BitVec.getLsbD_zero
  exact absurd hf (Bool.eq_false_iff.1 hzero)

/-! ### The loop -/

theorem Stage.stopped_ne_decoding (g : Stage) (form : Form) (o : Origin) : g.stopped ≠ .decoding form o := by
  cases g <;> nofun

/-- A stop adds its one reason and ends the loop (00 R11). -/
theorem CbrOnly.stop {s : State} {r : Flag} (hs : CbrOnly s) (hr : r ∈ stopReasons) : ReasonInv (stop r s) :=
  .inr ⟨⟨r, hr, fun f hf => (hasFlag_setFlag.1 hf).imp_left (hs f)⟩, Stage.stopped_ne_decoding s.stage⟩

theorem CbrOnly.reference {s : State} (hs : CbrOnly s) (offset len : Nat) : CbrOnly (reference offset len s) := by
  unfold Machine.reference
  split
  · exact fun f hf => (hasFlag_setFlag.1 hf).elim (hs f) id
  · rw [copy_frame]
    exact hs

/-- A literal code sets nothing, `CLIT` or `ENDMARK` (41 R141). -/
theorem CbrOnly.literal {s : State} (hs : CbrOnly s) (k v : Nat) : ReasonInv (literal k v s) := by
  unfold Machine.literal
  split
  · exact hs.stop (by decide)
  · dsimp only
    split
    · exact CbrOnly.stop (s := { s with mtf := mtfPromote s.mtf (litRank k v) }) hs (by decide)
    · exact .inl hs

theorem ReadThen.reasonInv {n : Nat} {k : State → State} {s t : State} (hs : CbrOnly s)
    (hk : ∀ u, CbrOnly u → ReasonInv (k u)) (h : ReadThen n k s t) : ReasonInv t := by
  rcases h with ⟨-, rfl⟩ | ⟨-, rfl⟩
  · exact CbrOnly.stop (s := { s with bitpos := _ }) hs (by decide)
  · exact hk _ hs

/-- A token that completes (40 R102 to R104, 41 R141 to R145). -/
theorem runToken_reasonInv {i : Instr} {s t : State} (hs : CbrOnly s) (h : runToken i s = .next t) : ReasonInv t := by
  have htrunc : ReasonInv (stop .trunc s) := hs.stop (by decide)
  have href : ∀ offset len u, CbrOnly u → ReasonInv (reference offset len u) := fun offset len _ hu =>
    .inl (hu.reference offset len)
  cases i with
  | lit code =>
    obtain ⟨-, rfl⟩ := execLit_next h
    exact .inl hs
  | esc raw =>
    obtain ⟨-, ⟨-, rfl⟩ | ⟨-, rfl⟩⟩ := execEsc_next h
    · exact htrunc
    · exact .inl hs
  | bref offset len =>
    obtain ⟨-, ⟨-, rfl⟩ | ⟨-, rfl⟩⟩ := execBref_next h
    · exact htrunc
    · exact href offset len (advanceIp 2 s) hs
  | mlit k v => exact (execMlit_next h).2.reasonInv hs fun _ hu => hu.literal k v
  | mbrefS offset len => exact (execMbrefS_next h).2.reasonInv hs (href offset len)
  | mbrefM offset len => exact (execMbrefM_next h).2.reasonInv hs (href offset len)
  | mbrefL offset len => exact (execMbrefL_next h).2.reasonInv hs (href offset len)
  | _ => cases h

theorem rawStep_cbrOnly {s : State} (hs : CbrOnly s) : CbrOnly (rawStep s) := by
  rcases rawStep_cases s with h | ⟨b, -, -, -, h⟩ <;> rw [h] <;> exact hs

/-- What the head of the loop does itself sets nothing or `TRUNC` (40 R101, 41 R139, 42 R172). -/
theorem fetchToken_act_reasonInv {form : Form} {s u : State} (hs : CbrOnly s) (h : fetchToken form s = .act u) :
    ReasonInv u := by
  rcases fetchToken_act_cases h with ⟨-, rfl⟩ | ⟨-, -, rfl⟩ | ⟨-, rfl⟩ | ⟨-, rfl⟩
  · exact .inl (rawStep_cbrOnly hs)
  · exact .inl hs
  · exact hs.stop (by decide)
  · exact CbrOnly.stop (s := { s with bitpos := _ }) hs (by decide)

theorem decodeStep_reasonInv {form : Form} {s t : State} (hs : CbrOnly s) (h : decodeStep form s = .next t) :
    ReasonInv t := by
  unfold decodeStep at h
  split at h
  · next i u hf => rw [fetchToken_run hf] at h; exact runToken_reasonInv hs h
  · next u hf => cases h; exact fetchToken_act_reasonInv hs hf
  · cases h

/-- The loop stops at the first stop reason, so it sets no second one (60 R270). -/
theorem decodeLoop_reasonInv {n : Nat} {s t : State} (hs : ReasonInv s) (h : decodeLoop n s = .next t) :
    ReasonInv t := by
  induction n generalizing s with
  | zero => cases h; exact hs
  | succ n ih =>
    unfold decodeLoop at h
    split at h
    · next form o hst =>
      obtain ⟨u, hu, ht⟩ := andThen_next_iff.1 h
      exact ih (decodeStep_reasonInv (hs.cbrOnly hst) hu) ht
    · cases h; exact hs
    · cases h; exact hs

/-! ### The command -/

/-- A set-up sets nothing, or `TRUNC` at a cut header (40 R100, 41 R130). -/
theorem openDecode_reasonInv {s : State} (hs : CbrOnly s) (form : Form) (o : Origin) (buf : ByteString) :
    ReasonInv (openDecode form o buf s) := by
  have hcut : ∀ u : State, u.status = s.status → ReasonInv (stop .trunc u) := fun u hu =>
    CbrOnly.stop (fun f hf => hs f (by rwa [hasFlag, hu] at hf)) (by decide)
  cases form with
  | raw => exact .inl hs
  | legacy =>
    unfold openDecode openLegacy
    dsimp only
    split
    · exact hcut _ rfl
    · exact .inl hs
  | modern =>
    unfold openDecode openModern
    dsimp only
    split
    · exact hcut _ rfl
    · exact .inl hs

theorem beginDecompress_reasonInv {s : State} (hs : CbrOnly s) (src : Source) : ReasonInv (beginDecompress src s) :=
  openDecode_reasonInv (s := { s with mode := (detect s.cfg (sourceBuffer src s).2).mode }) hs ..

/-- The end of a decode leaves the flags as the loop left them (42 R170). -/
theorem hasFlag_closeDecode (f : Flag) (s : State) : hasFlag f (closeDecode s) = hasFlag f s := by
  rcases closeDecode_cases s with h | ⟨form, o, -, h⟩ <;> rw [h]
  rw [finishDecode_eq]
  rfl

/-- A `DECOMPRESS` that completes has set no flag but `CBR` and one stop reason (42 R170; 60 R270). -/
theorem exec_decompress_oneReason {src : Source} {s t : State} (h : exec (.decompress src) s = .next t) :
    OneReason t := by
  obtain ⟨-, u, hu, rfl⟩ := execDecompress_next h
  have hloop : ReasonInv u := decodeLoop_reasonInv (beginDecompress_reasonInv (cbrOnly_cleared s) src) hu
  simpa only [OneReason, hasFlag_closeDecode] using hloop.oneReason

/-- Settles O58: the flags set are among `CBR` and one stop reason. -/
theorem decodeEndsWithOneReason : Obligations.DecodeEndsWithOneReason := by
  intro s t src h
  obtain ⟨r, hr, hflags⟩ := exec_decompress_oneReason h
  have hdiffer : ∀ f g, f ≠ .cbr → g ≠ .cbr → f ≠ g → ¬ (hasFlag f t = true ∧ hasFlag g t = true) :=
    fun f g hf hg hne ⟨hft, hgt⟩ =>
      hne (((hflags f hft).resolve_left hf).trans ((hflags g hgt).resolve_left hg).symm)
  have hunset : ∀ f, f ≠ .cbr → f ∉ stopReasons → hasFlag f t = false := fun f hf hno =>
    Bool.eq_false_iff.2 fun hft => hno ((hflags f hft).resolve_left hf ▸ hr)
  exact ⟨hdiffer _ _ nofun nofun nofun, hdiffer _ _ nofun nofun nofun, hdiffer _ _ nofun nofun nofun,
    hunset _ nofun (by decide), hunset _ nofun (by decide), hunset _ nofun (by decide)⟩

end Sys2Proof.Machine
end

section
/-! SUPPORT. The fault stays until a reset (60_exceptions.md R265, R266; 70_reset_and_hazards.md R290, R291). -/

namespace Sys2Proof.Machine

open Sys2Proof

/-- What a faulted machine can do without a reset event leaves the fault registers alone: a decode under way goes on or ends,
an idle engine waits, and a command is refused (60 R266). -/
theorem step_keeps_fault {s t : State} (hf : s.faulted = true) (hno : s.stage ≠ .idle ∨ s.port.head? ≠ some .reset)
    (h : step s = .next t) : t.faulted = s.faulted ∧ t.fcause = s.fcause ∧ t.faddr = s.faddr := by
  rcases step_next h with ⟨form, o, -, hloop⟩ | ⟨form, o, -, rfl⟩ | ⟨-, -, rfl⟩ | ⟨rest, hst, hp, -⟩ |
    ⟨-, -, -, -, -, hnf, -, -⟩
  · rw [decodeStep_frame hloop]
    exact ⟨rfl, rfl, rfl⟩
  · rw [finishDecode_eq]
    exact ⟨rfl, rfl, rfl⟩
  · exact ⟨rfl, rfl, rfl⟩
  · have hhead : s.port.head? = some .reset := by rw [hp, List.head?_cons]
    exact absurd hhead (hno.resolve_left (absurd hst))
  · exact absurd (hf.symm.trans hnf) nofun

/-- Settles O56: no step but the reset event writes the fault registers of a faulted state, and that event writes their reset
values. -/
theorem onlyResetClearsTheFault : Obligations.OnlyResetClearsTheFault := by
  refine ⟨fun s t hf hno h => ?_, fun s rest hst hp => ⟨_, step_of_reset hst hp, rfl, rfl, rfl⟩⟩
  obtain ⟨hfaulted, hregisters⟩ := step_keeps_fault hf hno h
  exact ⟨hfaulted.trans hf, hregisters⟩

end Sys2Proof.Machine
end
